-- ==== Sys2Proof/Word.lean ====
section
/-! DEFINITION. The word types of the block: the 24-bit command word (rule R100) and the 8-bit and
16-bit registers and elements (rules R14, R71). -/

namespace Sys2Proof

/-- One element of a store, one octet, one 8-bit register (rules R14, R71). -/
abbrev Octet := BitVec 8

/-- One 16-bit register; read signed (`toInt`) where the spec says `s16`, unsigned where it says `u16`. -/
abbrev Reg16 := BitVec 16

/-- A command word: `op` in bits 23:16, `arg` in bits 15:0 (rule R100). -/
abbrev CmdWord := BitVec 24

end Sys2Proof
end

