-- ==== Sys2Proof/Syntax.lean ====
section
/-! DEFINITION. The 31 operations of rule R104, one constructor each, with the operand each takes
(rule R102). -/

namespace Sys2Proof

/-- One operation of rule R104 with its operand. Samples are the 8 bits of the `s8` layout, read
signed by the meanings; a FIFO id is the raw 2-bit field, of which 3 is reserved (rule R102). -/
inductive Instr where
  /-- `INIT` (rule R340). -/
  | init
  /-- `ADCTICK s` (rule R180). -/
  | adctick (s : Octet)
  /-- `DACTICK` (rule R230). -/
  | dactick
  /-- `TXPUSH b` (rule R271). -/
  | txpush (b : Octet)
  /-- `TXSTART` (rule R270). -/
  | txstart
  /-- `RXPOP` (rule R272). -/
  | rxpop
  /-- `RXEMPTY` (rule R273). -/
  | rxempty
  /-- `TXFULL` (rule R274). -/
  | txfull
  /-- `SENDING` (rule R275). -/
  | sending
  /-- `RELAX` (rule R276). -/
  | relax
  /-- `DISCRIM s` (rule R181). -/
  | discrim (s : Octet)
  /-- `IIR.B` (rule R182). -/
  | iirB
  /-- `IIR.C` (rule R183). -/
  | iirC
  /-- `SLICE` (rule R184). -/
  | slice
  /-- `DLYPUSH s` (rule R185). -/
  | dlypush (s : Octet)
  /-- `CLKREC` (rule R186). -/
  | clkrec
  /-- `BITDEC` (rule R187). -/
  | bitdec
  /-- `NRZIDEC` (rule R189). -/
  | nrzidec
  /-- `HDLCRX bit` (rule R210). -/
  | hdlcrx (bit : Bool)
  /-- `TXFETCH` (rule R231). -/
  | txfetch
  /-- `TXBIT` (rule R232). -/
  | txbit
  /-- `DDSSTEP` (rule R164). -/
  | ddsstep
  /-- `SINSAMPLE idx` (rule R162). -/
  | sinsample (idx : BitVec 9)
  /-- `FPUSH f, v` (rule R141). -/
  | fpush (f : BitVec 2) (v : Octet)
  /-- `FPOP f` (rule R142). -/
  | fpop (f : BitVec 2)
  /-- `FEMPTY f` (rule R143). -/
  | fempty (f : BitVec 2)
  /-- `FFULL f` (rule R144). -/
  | ffull (f : BitVec 2)
  /-- `FPUSH.L f, v` (rule R145). -/
  | fpushL (f : BitVec 2) (v : Octet)
  /-- `FPOP.L f` (rule R145). -/
  | fpopL (f : BitVec 2)
  /-- `FEMPTY.L f` (rule R145). -/
  | femptyL (f : BitVec 2)
  /-- `FFULL.L f` (rule R145). -/
  | ffullL (f : BitVec 2)
  deriving DecidableEq, Repr

end Sys2Proof
end

