-- ==== Sys2Proof/WellFormed.lean ====
section
/-! DEFINITION. Which operations are well formed: the operand types already keep every field in its
range, so the one check left is the reserved FIFO id 3 (rules R102, R105 (d)). -/

namespace Sys2Proof

/-- A FIFO id names a FIFO: 0, 1 or 2; 3 is reserved (rule R102). -/
def fifoIdOk (f : BitVec 2) : Bool := f != 3#2

/-- Well-formedness of an operation (rules R102, R105 (d)). -/
def Instr.wf : Instr → Bool
  | .init => true
  | .adctick _ => true
  | .dactick => true
  | .txpush _ => true
  | .txstart => true
  | .rxpop => true
  | .rxempty => true
  | .txfull => true
  | .sending => true
  | .relax => true
  | .discrim _ => true
  | .iirB => true
  | .iirC => true
  | .slice => true
  | .dlypush _ => true
  | .clkrec => true
  | .bitdec => true
  | .nrzidec => true
  | .hdlcrx _ => true
  | .txfetch => true
  | .txbit => true
  | .ddsstep => true
  | .sinsample _ => true
  | .fpush f _ => fifoIdOk f
  | .fpop f => fifoIdOk f
  | .fempty f => fifoIdOk f
  | .ffull f => fifoIdOk f
  | .fpushL f _ => fifoIdOk f
  | .fpopL f => fifoIdOk f
  | .femptyL f => fifoIdOk f
  | .ffullL f => fifoIdOk f

end Sys2Proof
end

