-- ==== Sys2Proof/Decode.lean ====
section
/-! DEFINITION. The command word of rule R100: its fields, the operand layouts of rule R102, the
operation table of rule R104, the decoder (rules R105, R106) and the encoder. A command word is one
24-bit word; no byte order enters (rule R72). -/

namespace Sys2Proof

/-- Why a command word names no operation that may be performed (rule R105, codes 1 to 3 of R301). -/
inductive Reject where
  /-- `op` is in no row of rule R104 (R105 (a)). -/
  | reservedOp
  /-- `op` is an internal code (R105 (b)). -/
  | internalOp
  /-- A must-be-zero bit of `arg` is 1, or the FIFO id is 3 (R105 (c), (d)). -/
  | badOperand
  deriving DecidableEq, Repr

/-- The operand layouts of rule R102. -/
inductive Layout where
  | noOperand
  | s8
  | u8
  | idx9
  | bit
  | fv
  | f
  deriving DecidableEq, Repr

/-- Column "agent" of rule R104: who may present the operation (or, for an internal one, on whose
behalf it runs). A rule for the agents, not a check of the block (rule R321). -/
inductive Presenter where
  | host
  | adc
  | dac
  /-- Internal use by the ADC agent; the host for a unit test. -/
  | adcOrHost
  /-- Internal use by the DAC agent; the host for a unit test. -/
  | dacOrHost
  /-- The owner of the FIFO the operand names. -/
  | fifoOwner
  deriving DecidableEq, Repr

/-- One row of rule R104. -/
structure OpRow where
  /-- `op`. -/
  code : BitVec 8
  /-- The mnemonic. -/
  mnemonic : String
  /-- The operand layout. -/
  layout : Layout
  /-- Column "agent". -/
  presenter : Presenter
  /-- Column "issuable". -/
  issuable : Bool
  /-- The operation with the operand the layout extracts from `arg`. -/
  build : BitVec 16 → Instr

/-- `op = w[23:16]` (rule R100). -/
def opField (w : CmdWord) : BitVec 8 := w.extractLsb' 16 8

/-- `arg = w[15:0]` (rule R100). -/
def argField (w : CmdWord) : BitVec 16 := w.extractLsb' 0 16

/-- `arg[7:0]`: a sample, an octet or a FIFO element (rule R102). -/
def argOctet (a : BitVec 16) : Octet := a.extractLsb' 0 8

/-- `arg[8:0]`: a sine index (rule R102). -/
def argIdx (a : BitVec 16) : BitVec 9 := a.extractLsb' 0 9

/-- `arg[9:8]`: a FIFO id (rule R102). -/
def argFifo (a : BitVec 16) : BitVec 2 := a.extractLsb' 8 2

/-- `arg[0]`: a line bit (rule R102). -/
def argBit (a : BitVec 16) : Bool := a.getLsbD 0

/-- The must-be-zero bits of `arg` are 0 and a FIFO id is not 3 (rules R102, R105 (c), (d)). -/
def Layout.operandOk (l : Layout) (a : BitVec 16) : Bool :=
  match l with
  | .noOperand => a == 0#16
  | .s8 => a.extractLsb' 8 8 == 0#8
  | .u8 => a.extractLsb' 8 8 == 0#8
  | .idx9 => a.extractLsb' 9 7 == 0#7
  | .bit => a.extractLsb' 1 15 == 0#15
  | .fv => a.extractLsb' 10 6 == 0#6 && fifoIdOk (argFifo a)
  | .f => a.extractLsb' 10 6 == 0#6 && a.extractLsb' 0 8 == 0#8 && fifoIdOk (argFifo a)

/-- Rows 00 to 16 of rule R104: the ticks and the host port. -/
def portRows : List OpRow :=
  [ ⟨0x00#8, "INIT", .noOperand, .host, true, fun _ => .init⟩,
    ⟨0x01#8, "ADCTICK", .s8, .adc, true, fun a => .adctick (argOctet a)⟩,
    ⟨0x02#8, "DACTICK", .noOperand, .dac, true, fun _ => .dactick⟩,
    ⟨0x10#8, "TXPUSH", .u8, .host, true, fun a => .txpush (argOctet a)⟩,
    ⟨0x11#8, "TXSTART", .noOperand, .host, true, fun _ => .txstart⟩,
    ⟨0x12#8, "RXPOP", .noOperand, .host, true, fun _ => .rxpop⟩,
    ⟨0x13#8, "RXEMPTY", .noOperand, .host, true, fun _ => .rxempty⟩,
    ⟨0x14#8, "TXFULL", .noOperand, .host, true, fun _ => .txfull⟩,
    ⟨0x15#8, "SENDING", .noOperand, .host, true, fun _ => .sending⟩,
    ⟨0x16#8, "RELAX", .noOperand, .host, true, fun _ => .relax⟩ ]

/-- Rows 20 to 28 of rule R104: the demodulator and the receive parser. -/
def adcRows : List OpRow :=
  [ ⟨0x20#8, "DISCRIM", .s8, .adc, false, fun a => .discrim (argOctet a)⟩,
    ⟨0x21#8, "IIR.B", .noOperand, .adc, false, fun _ => .iirB⟩,
    ⟨0x22#8, "IIR.C", .noOperand, .adc, false, fun _ => .iirC⟩,
    ⟨0x23#8, "SLICE", .noOperand, .adc, false, fun _ => .slice⟩,
    ⟨0x24#8, "DLYPUSH", .s8, .adc, false, fun a => .dlypush (argOctet a)⟩,
    ⟨0x25#8, "CLKREC", .noOperand, .adc, false, fun _ => .clkrec⟩,
    ⟨0x26#8, "BITDEC", .noOperand, .adc, false, fun _ => .bitdec⟩,
    ⟨0x27#8, "NRZIDEC", .noOperand, .adc, false, fun _ => .nrzidec⟩,
    ⟨0x28#8, "HDLCRX", .bit, .adcOrHost, true, fun a => .hdlcrx (argBit a)⟩ ]

/-- Rows 30 to 33 of rule R104: the modulator and the sine table. -/
def dacRows : List OpRow :=
  [ ⟨0x30#8, "TXFETCH", .noOperand, .dac, false, fun _ => .txfetch⟩,
    ⟨0x31#8, "TXBIT", .noOperand, .dac, false, fun _ => .txbit⟩,
    ⟨0x32#8, "DDSSTEP", .noOperand, .dac, false, fun _ => .ddsstep⟩,
    ⟨0x33#8, "SINSAMPLE", .idx9, .dacOrHost, true, fun a => .sinsample (argIdx a)⟩ ]

/-- Rows 40 to 47 of rule R104: the FIFO primitives. -/
def fifoRows : List OpRow :=
  [ ⟨0x40#8, "FPUSH", .fv, .fifoOwner, false, fun a => .fpush (argFifo a) (argOctet a)⟩,
    ⟨0x41#8, "FPOP", .f, .fifoOwner, false, fun a => .fpop (argFifo a)⟩,
    ⟨0x42#8, "FEMPTY", .f, .fifoOwner, false, fun a => .fempty (argFifo a)⟩,
    ⟨0x43#8, "FFULL", .f, .fifoOwner, false, fun a => .ffull (argFifo a)⟩,
    ⟨0x44#8, "FPUSH.L", .fv, .host, false, fun a => .fpushL (argFifo a) (argOctet a)⟩,
    ⟨0x45#8, "FPOP.L", .f, .host, false, fun a => .fpopL (argFifo a)⟩,
    ⟨0x46#8, "FEMPTY.L", .f, .host, false, fun a => .femptyL (argFifo a)⟩,
    ⟨0x47#8, "FFULL.L", .f, .host, false, fun a => .ffullL (argFifo a)⟩ ]

/-- The complete operation list, rule R104. -/
def opTable : List OpRow := portRows ++ adcRows ++ dacRows ++ fifoRows

/-- The row of an operation code, if the code is not reserved (rule R105 (a)). -/
def lookupOp (c : BitVec 8) : Option OpRow := opTable.find? fun r => r.code == c

/-- The operation a row and an operand field stand for, or `badOperand` (rules R102, R105). -/
def OpRow.operation (r : OpRow) (a : BitVec 16) : Except Reject Instr :=
  if r.layout.operandOk a then .ok (r.build a) else .error .badOperand

/-- The row of rule R104 and the operand a command word stands for, internal codes included: what
the word NAMES. Total on all `2^24` words. -/
def decode (w : CmdWord) : Except Reject Instr :=
  match lookupOp (opField w) with
  | none => .error .reservedOp
  | some r => r.operation (argField w)

/-- What the command port accepts (rule R106): the internal codes are refused before the operand is
looked at, so a reserved code, an internal code and a bad operand are reported in that order
(rule R301, lowest code first). -/
def decodePort (w : CmdWord) : Except Reject Instr :=
  match lookupOp (opField w) with
  | none => .error .reservedOp
  | some r => if r.issuable then r.operation (argField w) else .error .internalOp

/-! ## The encoder -/

/-- The operation code of an operation (rule R104). -/
def Instr.op : Instr → BitVec 8
  | .init => 0x00#8
  | .adctick _ => 0x01#8
  | .dactick => 0x02#8
  | .txpush _ => 0x10#8
  | .txstart => 0x11#8
  | .rxpop => 0x12#8
  | .rxempty => 0x13#8
  | .txfull => 0x14#8
  | .sending => 0x15#8
  | .relax => 0x16#8
  | .discrim _ => 0x20#8
  | .iirB => 0x21#8
  | .iirC => 0x22#8
  | .slice => 0x23#8
  | .dlypush _ => 0x24#8
  | .clkrec => 0x25#8
  | .bitdec => 0x26#8
  | .nrzidec => 0x27#8
  | .hdlcrx _ => 0x28#8
  | .txfetch => 0x30#8
  | .txbit => 0x31#8
  | .ddsstep => 0x32#8
  | .sinsample _ => 0x33#8
  | .fpush _ _ => 0x40#8
  | .fpop _ => 0x41#8
  | .fempty _ => 0x42#8
  | .ffull _ => 0x43#8
  | .fpushL _ _ => 0x44#8
  | .fpopL _ => 0x45#8
  | .femptyL _ => 0x46#8
  | .ffullL _ => 0x47#8

/-- `arg` of the layouts `s8` and `u8`: eight zeros above the octet (rule R102). -/
def octetArg (v : Octet) : BitVec 16 := 0#8 ++ v

/-- `arg` of the layout `fv`: six zeros, the FIFO id, the element (rule R102). -/
def fifoArg (f : BitVec 2) (v : Octet) : BitVec 16 := 0#6 ++ (f ++ v)

/-- `arg` of the layout `bit`: fifteen zeros above the bit (rule R102). -/
def bitArg (b : Bool) : BitVec 16 := 0#15 ++ BitVec.ofBool b

/-- `arg` of the layout `idx9`: seven zeros above the index (rule R102). -/
def idxArg (i : BitVec 9) : BitVec 16 := 0#7 ++ i

/-- The operand field of an operation (rule R102). -/
def Instr.arg : Instr → BitVec 16
  | .init => 0#16
  | .adctick s => octetArg s
  | .dactick => 0#16
  | .txpush b => octetArg b
  | .txstart => 0#16
  | .rxpop => 0#16
  | .rxempty => 0#16
  | .txfull => 0#16
  | .sending => 0#16
  | .relax => 0#16
  | .discrim s => octetArg s
  | .iirB => 0#16
  | .iirC => 0#16
  | .slice => 0#16
  | .dlypush s => octetArg s
  | .clkrec => 0#16
  | .bitdec => 0#16
  | .nrzidec => 0#16
  | .hdlcrx b => bitArg b
  | .txfetch => 0#16
  | .txbit => 0#16
  | .ddsstep => 0#16
  | .sinsample i => idxArg i
  | .fpush f v => fifoArg f v
  | .fpop f => fifoArg f 0#8
  | .fempty f => fifoArg f 0#8
  | .ffull f => fifoArg f 0#8
  | .fpushL f v => fifoArg f v
  | .fpopL f => fifoArg f 0#8
  | .femptyL f => fifoArg f 0#8
  | .ffullL f => fifoArg f 0#8

/-- The command word of an operation (rules R100, R102, R104). -/
def encode (i : Instr) : CmdWord := i.op ++ i.arg

/-- Whether a command word may present the operation (column "issuable" of rule R104). -/
def Instr.issuable (i : Instr) : Bool :=
  match lookupOp i.op with
  | some r => r.issuable
  | none => false

/-- Column "agent" of rule R104. -/
def Instr.presenter (i : Instr) : Presenter :=
  match lookupOp i.op with
  | some r => r.presenter
  | none => .host

/-- The operation the decoder reads from a word numbered as spec/opcode_table.json numbers it: one
24-bit command word, bit 0 least significant. -/
def decodeTableWord (nbits w : Nat) : Option Instr :=
  if nbits ≤ 24 ∧ w < 2 ^ 24 then
    match decode (BitVec.ofNat 24 w) with
    | .ok i => some i
    | .error _ => none
  else none

end Sys2Proof
end

