-- ==== Sys2Proof/Config.lean ====
section
/-! DEFINITION. The build-time configuration record of rules R10 and R13. The constants of rule R9,
the derived constants of rule R11 and the admissibility conditions of rule R303 are functions in
Machine/Build.lean; the record holds only what a build chooses. -/

namespace Sys2Proof

/-- The receive IIR variant (rule R10, `FILTER`). -/
inductive Filter where
  | butterworth
  | chebyshev
  deriving DecidableEq, Repr

/-- The configuration record: the seven options of rule R10 and the two parameters of rule R13. No
operation reads it back to the host or writes it (rule R57). -/
structure Config where
  /-- `FILTER`. -/
  filter : Filter
  /-- `RX_BUFLEN`, capacity of `rx_fifo` in octets. -/
  rxBuflen : Nat
  /-- `TX_BUFLEN`, capacity of `tx_fifo` in octets. -/
  txBuflen : Nat
  /-- `DAC_SAMPLERATE` in Hz. -/
  dacSamplerate : Nat
  /-- `PREAMBLE_LEN_MS`. -/
  preambleLenMs : Nat
  /-- `TRAILER_LEN_MS`. -/
  trailerLenMs : Nat
  /-- `RX_TIMEOUT_MS`: `-1` infinite, `0` non-blocking, positive a millisecond budget. -/
  rxTimeoutMs : Int
  /-- `SIN_TABLE`, the contents of the read-only store `sin_table` (rules R13, R24). -/
  sinTable : List Octet
  /-- `ABORT_ONES`, 7 or 8 (rule R13, conflict C1). -/
  abortOnes : Nat
  deriving DecidableEq, Repr

end Sys2Proof
end

