-- ==== Sys2Proof/Machine/Build.lean ====
section
/-! DEFINITION. Build time: the fixed constants of rule R9, `DIV_ROUND` (R16), the derived constants
of rule R11, the conditions a configuration must meet (R10, R12, R13, R303), the default sine table of
rule R161 and the configuration of the spec's own test vectors. -/

namespace Sys2Proof.Machine

/-! ## Fixed constants (rule R9) -/

/-- `SAMPLE_RATE`, Hz. -/
@[simp] abbrev sampleRate : Nat := 9600
/-- `BIT_RATE`, bits per second. -/
@[simp] abbrev bitRate : Nat := 1200
/-- `SAMPLES_PER_BIT`. -/
@[simp] abbrev samplesPerBit : Nat := 8
/-- `MARK_FREQ`, Hz. -/
@[simp] abbrev markFreq : Nat := 1200
/-- `SPACE_FREQ`, Hz. -/
@[simp] abbrev spaceFreq : Nat := 2200
/-- `HDLC_FLAG`. -/
@[simp] abbrev hdlcFlag : Octet := 0x7E#8
/-- `HDLC_RESET`. -/
@[simp] abbrev hdlcReset : Octet := 0x7F#8
/-- `AX25_ESC`. -/
@[simp] abbrev ax25Esc : Octet := 0x1B#8
/-- `BIT_STUFF_LEN`. -/
@[simp] abbrev bitStuffLen : Nat := 5
/-- `SIN_LEN`. -/
@[simp] abbrev sinLen : Nat := 512
/-- `SIN_QUARTER`. -/
@[simp] abbrev sinQuarter : Nat := 128
/-- `PHASE_BIT`. -/
@[simp] abbrev phaseBit : Int := 8
/-- `PHASE_MAX`. -/
@[simp] abbrev phaseMax : Int := 64
/-- `PHASE_THRES`. -/
@[simp] abbrev phaseThres : Int := 32
/-- `DELAY_LEN`. -/
@[simp] abbrev delayLen : Nat := 4

/-! ## Derived constants (rules R11, R16) -/

/-- `DIV_ROUND(a, b)`: nearest integer, an exact half taken up (rule R16). -/
def divRound (a b : Nat) : Nat := (a + b / 2) / b

/-- `DAC_SAMPLES_PER_BIT` (rule R11). -/
def dacSamplesPerBit (c : Config) : Nat := c.dacSamplerate / bitRate

/-- `MARK_INC` (rule R11). -/
def markInc (c : Config) : Nat := divRound (sinLen * markFreq) c.dacSamplerate

/-- `SPACE_INC` (rule R11). -/
def spaceInc (c : Config) : Nat := divRound (sinLen * spaceFreq) c.dacSamplerate

/-- `PREAMBLE_FLAGS` (rule R11). -/
def preambleFlags (c : Config) : Nat := divRound (c.preambleLenMs * bitRate) 8000

/-- `TRAILER_FLAGS` (rule R11). -/
def trailerFlags (c : Config) : Nat := divRound (c.trailerLenMs * bitRate) 8000

/-! ## Admissible configurations -/

/-- The conditions of rules R13 and R160 on `SIN_TABLE`: 128 values in `[128, 255]`, the first 128 and
the last 255. It has 128 elements because there is one at index 127 and none at 128. -/
def tableOk (t : List Octet) : Bool :=
  t[sinQuarter]?.isNone && t.all (fun v => decide (128 ≤ v.toNat)) &&
    t[0]? == some 128#8 && t[127]? == some 255#8

/-- The domains of rule R10 and the constraints of rules R12, R13 and R303. -/
def admissible (c : Config) : Bool :=
  decide (1 ≤ c.rxBuflen) && decide (1 ≤ c.txBuflen) &&
  decide (0 < c.dacSamplerate) && decide (c.dacSamplerate % bitRate = 0) &&
  decide (-1 ≤ c.rxTimeoutMs) &&
  decide (markInc c ≠ spaceInc c) && decide (dacSamplesPerBit c ≤ 65535) &&
  decide (preambleFlags c ≤ 65535) && decide (trailerFlags c ≤ 65535) &&
  tableOk c.sinTable && (c.abortOnes == 7 || c.abortOnes == 8)

/-! ## The default table and the configuration of the vectors -/

/-- Entries 0 to 63 of the default `SIN_TABLE` (rule R161, rows 0 to 3). PRESUMED: the spec marks the
values as general knowledge. -/
def sinTableLow : List Octet :=
  [128#8, 129#8, 131#8, 132#8, 134#8, 135#8, 137#8, 138#8, 140#8, 142#8, 143#8, 145#8, 146#8, 148#8, 149#8, 151#8,
   152#8, 154#8, 155#8, 157#8, 158#8, 160#8, 162#8, 163#8, 165#8, 166#8, 167#8, 169#8, 170#8, 172#8, 173#8, 175#8,
   176#8, 178#8, 179#8, 181#8, 182#8, 183#8, 185#8, 186#8, 188#8, 189#8, 190#8, 192#8, 193#8, 194#8, 196#8, 197#8,
   198#8, 200#8, 201#8, 202#8, 203#8, 205#8, 206#8, 207#8, 208#8, 210#8, 211#8, 212#8, 213#8, 214#8, 215#8, 217#8]

/-- Entries 64 to 127 of the default `SIN_TABLE` (rule R161, rows 4 to 7). -/
def sinTableHigh : List Octet :=
  [218#8, 219#8, 220#8, 221#8, 222#8, 223#8, 224#8, 225#8, 226#8, 227#8, 228#8, 229#8, 230#8, 231#8, 232#8, 233#8,
   234#8, 234#8, 235#8, 236#8, 237#8, 238#8, 238#8, 239#8, 240#8, 241#8, 241#8, 242#8, 243#8, 243#8, 244#8, 245#8,
   245#8, 246#8, 246#8, 247#8, 248#8, 248#8, 249#8, 249#8, 250#8, 250#8, 250#8, 251#8, 251#8, 252#8, 252#8, 252#8,
   253#8, 253#8, 253#8, 253#8, 254#8, 254#8, 254#8, 254#8, 254#8, 255#8, 255#8, 255#8, 255#8, 255#8, 255#8, 255#8]

/-- The default `SIN_TABLE` (rule R161). -/
def defaultSinTable : List Octet := sinTableLow ++ sinTableHigh

/-- The configuration `State.reset` carries. DESIGN CHOICE (log entry 1): the spec gives the options no
default; this is the one its own vectors use (95_test_vectors.md, header and section 8). -/
def vectorConfig : Config :=
  { filter := .butterworth
    rxBuflen := 64
    txBuflen := 64
    dacSamplerate := 9600
    preambleLenMs := 40
    trailerLenMs := 20
    rxTimeoutMs := 0
    sinTable := defaultSinTable
    abortOnes := 8 }

end Sys2Proof.Machine
end

