-- ==== Sys2Proof/Machine/State.lean ====
section
/-! DEFINITION. The state of the block (rules R20 to R53, R146), the boundary it shares with its three
agents (command words in, replies and events out; rules R100, R101, R320), why an operation can stop,
and the state right after reset (rules R64, R340). -/

namespace Sys2Proof.Machine

/-- The backing store of one FIFO: cells in rising address order, none equal to what an unlisted
address reads as (rules R70, R71). -/
abbrev Memory := List Host.Cell

/-- The four storage spaces of rule R70. -/
inductive Space where
  | rom
  | dly
  | rxf
  | txf
  deriving DecidableEq, Repr

/-- The three FIFOs (rules R21 to R23). -/
inductive Fifo where
  | delay
  | rx
  | tx
  deriving DecidableEq, Repr

/-- A FIFO in the ring layout of rule R146. -/
structure Ring where
  /-- The backing store, a storage space of rule R70. -/
  buf : Memory
  /-- The read index. -/
  head : Nat
  /-- The write index. -/
  tail : Nat
  /-- The number of elements held. -/
  count : Nat
  deriving DecidableEq, Repr

/-- An output event on the collaborator boundary (rules R17, R320). -/
inductive Event where
  /-- `dac_write(v)`: one unsigned sample to the DAC. -/
  | dacWrite (v : Octet)
  /-- `dac_irq_start`. -/
  | dacIrqStart
  /-- `dac_irq_stop`. -/
  | dacIrqStop
  deriving DecidableEq, Repr

/-- A value an operation returns to the agent that issued it (rules R101, R104). -/
inductive Reply where
  /-- A bit: `RXEMPTY`, `TXFULL`, `SENDING`, `FEMPTY`, `FFULL`, `BITDEC`, `NRZIDEC`. -/
  | bit (b : Bool)
  /-- Eight bits: `RXPOP`, `SINSAMPLE`, `DDSSTEP`, `FPOP`. -/
  | octet (v : Octet)
  /-- `continue`, from `TXFETCH`. -/
  | fetchContinue
  /-- `stop`, from `TXFETCH`. -/
  | fetchStop
  deriving DecidableEq, Repr

/-- The whole machine. The first field is the build's configuration, which nothing writes; then every
register and store of 10_state.md; then the boundary. -/
structure State where
  /-- The configuration record (rules R10, R13), fixed at build time. -/
  cfg : Config
  /-- `delay_fifo` (rule R21). -/
  delayFifo : Ring
  /-- `rx_fifo` (rule R22). -/
  rxFifo : Ring
  /-- `tx_fifo` (rule R23). -/
  txFifo : Ring
  /-- `iir_x[0]`, `s16`: the previous filter input (rule R25). -/
  iirX0 : Reg16
  /-- `iir_x[1]`, `s16`: the newest filter input (rule R25). -/
  iirX1 : Reg16
  /-- `iir_y[0]`, `s16`: the previous filter output (rule R26). -/
  iirY0 : Reg16
  /-- `iir_y[1]`, `s16`: the newest filter output (rule R26). -/
  iirY1 : Reg16
  /-- `sampled_bits`, `u8` (rule R27). -/
  sampledBits : Octet
  /-- `found_bits`, `u8` (rule R28). -/
  foundBits : Octet
  /-- `curr_phase`, `s8` (rule R29). -/
  currPhase : Octet
  /-- `demod_bits`, `u16` (rule R30). -/
  demodBits : Reg16
  /-- `hdlc_rxstart` (rule R31). -/
  hdlcRxstart : Bool
  /-- `hdlc_currchar`, `u8` (rule R32). -/
  hdlcCurrchar : Octet
  /-- `hdlc_bit_idx`, `u8` (rule R33). -/
  hdlcBitIdx : Octet
  /-- `curr_out`, `u8` (rule R40). -/
  currOut : Octet
  /-- `tx_bit`, `u8` (rule R41). -/
  txBit : Octet
  /-- `sample_count`, `u16` (rule R45). -/
  sampleCount : Reg16
  /-- `phase_acc`, `u16` (rule R46). -/
  phaseAcc : Reg16
  /-- `phase_inc`, `u16` (rule R47). -/
  phaseInc : Reg16
  /-- `bit_stuff` (rule R48). -/
  bitStuff : Bool
  /-- `stuff_cnt`, `u8` (rule R49). -/
  stuffCnt : Octet
  /-- `preamble_len`, `u16` (rule R50). -/
  preambleLen : Reg16
  /-- `trailer_len`, `u16` (rule R51). -/
  trailerLen : Reg16
  /-- `sending`, also the DAC interrupt enable (rule R52). -/
  sending : Bool
  /-- `initialised` (rule R53). -/
  initialised : Bool
  /-- Boundary: the command words the three agents present, in the total order of rule R81. -/
  pending : List CmdWord
  /-- Boundary: the events emitted so far, oldest first (rule R320). -/
  events : List Event
  /-- Boundary: the values returned so far, oldest first (rule R101). -/
  replies : List Reply
  deriving DecidableEq, Repr

/-- Why the machine stops with a fault. The block itself has no fault state (rule R300). -/
inductive Fault where
  /-- An element outside a space's index range (rules R70, R71). Raised by `memRead` and `memWrite`.
  Safe: rule R75 says no operation forms such an index, and the model's invariant rules it out. -/
  | noSuchElement (space : Space) (index : Nat)
  deriving DecidableEq, Repr

/-- Why an operation has no step (rules R17, R300): the refusal causes of rule R301. -/
inductive Refusal where
  /-- An instruction with no meaning yet. Raised by `exec` only. Safe. -/
  | notModelled (mnemonic : String)
  /-- Code 1: `op` is reserved. Raised by `step` on a command word. Safe: the spec's own refusal. -/
  | reservedOp
  /-- Code 2: `op` is an internal code. Raised by `step` on a command word. Safe: the spec's own. -/
  | internalOp
  /-- Code 3: a must-be-zero bit is 1, or FIFO id 3. Raised by `step`, and by the eight FIFO
  operations on id 3. Safe: the spec's own. -/
  | badOperand
  /-- Code 4: not initialised. Raised by every operation but `INIT`. Safe: the spec's own. -/
  | notInitialised
  /-- Code 5: `tx_fifo` is full. Raised by `TXPUSH`. Safe: the spec's own. -/
  | txFifoFull
  /-- Code 6: `rx_fifo` is empty. Raised by `RXPOP`. Safe: the spec's own. -/
  | rxFifoEmpty
  /-- Code 7: `sending = 0`. Raised by `DACTICK`. Safe: the spec's own. -/
  | dacIrqDisabled
  /-- Code 8: push onto a full FIFO. Raised by `FPUSH`, `FPUSH.L` and whatever pushes. Safe: the spec's own. -/
  | fifoFull
  /-- Code 9: pop of an empty FIFO. Raised by `FPOP`, `FPOP.L` and whatever pops. Safe: the spec's own. -/
  | fifoEmpty
  /-- The configuration is inadmissible, so the build was rejected and no block exists (rules R12,
  R303). Raised by `step`. Safe: the spec says nothing about such a block. -/
  | buildRejected
  deriving DecidableEq, Repr

/-- A ring of zeros holding `n` elements from index 0 (rule R146, after `INIT`). -/
def Ring.ofZeros (n : Nat) : Ring := { buf := [], head := 0, tail := 0, count := n }

/-- The machine right after reset: every register at the value of rules R64 and R340. The configuration
is log entry 1, `initialised = 1` log entry 2, the boundary empty log entry 3. -/
def State.reset : State :=
  { cfg := vectorConfig
    delayFifo := Ring.ofZeros 4
    rxFifo := Ring.ofZeros 0
    txFifo := Ring.ofZeros 0
    iirX0 := 0#16
    iirX1 := 0#16
    iirY0 := 0#16
    iirY1 := 0#16
    sampledBits := 0#8
    foundBits := 0#8
    currPhase := 0#8
    demodBits := 0#16
    hdlcRxstart := false
    hdlcCurrchar := 0#8
    hdlcBitIdx := 0#8
    currOut := 0#8
    txBit := 0#8
    sampleCount := 0#16
    phaseAcc := 0#16
    phaseInc := 0#16
    bitStuff := false
    stuffCnt := 0#8
    preambleLen := 0#16
    trailerLen := 0#16
    sending := false
    initialised := true
    pending := []
    events := []
    replies := [] }

end Sys2Proof.Machine
end

