-- ==== Sys2Proof/Machine/Ops.lean ====
section
/-! DEFINITION. The shared operations: sequencing of results, reads and writes of the storage spaces
(rules R17, R70, R71), the ring FIFOs (R140 to R146), output events and replies (R17, R101), and the
initialisation check (R341). The block takes no exception and returns from none (R300, R313, R314): what
stands in their place is refusal, which every operation here answers without a next state, so nothing
is written. -/

namespace Sys2Proof.Machine

/-- The result of a sub-operation: a value, a fault or a refusal. -/
abbrev Res (α : Type) := Host.Outcome α Fault Refusal

/-- `o`, then `k` on its value. A refusal of a part refuses the whole operation (rule R80: one atomic
step; rule R17: a refusal writes nothing). -/
def andThen {α β : Type} (o : Res α) (k : α → Res β) : Res β :=
  match o with
  | .next a => k a
  | .fault f => .fault f
  | .refused r => .refused r

/-! ## Storage spaces -/

/-- What an element that no cell lists reads as: zero. For `DLY` this is the reset contents (rule
R146); for `RXF` and `TXF` it is a DESIGN CHOICE (log entry 4) no operation can observe. -/
def Memory.unlisted : Octet := 0#8

/-- The element at an index of a store. -/
def Memory.read (m : Memory) (a : Nat) : Octet :=
  match m with
  | [] => Memory.unlisted
  | (b, v) :: rest => if a = b then v else Memory.read rest a

/-- A cell, unless it would say what an unlisted address already says. -/
def Memory.cell (a : Nat) (v : Octet) (rest : Memory) : Memory :=
  if v = Memory.unlisted then rest else (a, v) :: rest

/-- The store with one element replaced, still in canonical form. -/
def Memory.write (m : Memory) (a : Nat) (v : Octet) : Memory :=
  match m with
  | [] => Memory.cell a v []
  | (b, w) :: rest =>
    if a < b then Memory.cell a v ((b, w) :: rest)
    else if a = b then Memory.cell a v rest
    else (b, w) :: Memory.write rest a v

/-- Cells from `lo` on rise strictly and none is redundant. -/
def Memory.wfFrom (lo : Nat) (m : Memory) : Bool :=
  match m with
  | [] => true
  | (b, v) :: rest => decide (lo ≤ b) && (v != Memory.unlisted) && Memory.wfFrom (b + 1) rest

/-- The canonical form: addresses strictly rising, no cell equal to what an unlisted address reads as. -/
def Memory.wf (m : Memory) : Bool := Memory.wfFrom 0 m

/-- Every cell lies in the index range `0 .. n - 1` (rule R70). -/
def Memory.within (n : Nat) (m : Memory) : Bool := m.all fun c => decide (c.1 < n)

/-- The space that backs a FIFO (rule R70). -/
def Fifo.space : Fifo → Space
  | .delay => .dly
  | .rx => .rxf
  | .tx => .txf

/-- `CAP(F)` (rule R140). -/
def Fifo.cap (c : Config) : Fifo → Nat
  | .delay => delayLen
  | .rx => c.rxBuflen
  | .tx => c.txBuflen

/-- The number of elements of a space (rule R70). -/
def Space.size (c : Config) : Space → Nat
  | .rom => sinQuarter
  | .dly => Fifo.cap c .delay
  | .rxf => Fifo.cap c .rx
  | .txf => Fifo.cap c .tx

/-- The ring of a FIFO. -/
def State.ring (s : State) : Fifo → Ring
  | .delay => s.delayFifo
  | .rx => s.rxFifo
  | .tx => s.txFifo

/-- The state with one FIFO's ring replaced. -/
def State.setRing (s : State) (f : Fifo) (r : Ring) : State :=
  match f with
  | .delay => { s with delayFifo := r }
  | .rx => { s with rxFifo := r }
  | .tx => { s with txFifo := r }

/-- `MemRead(space, i, 1)` (rules R17, R71): one element; an index outside the space does not exist. -/
def memRead (sp : Space) (i : Nat) (s : State) : Res Octet :=
  if i < Space.size s.cfg sp then
    match sp with
    | .rom =>
      match s.cfg.sinTable[i]? with
      | some v => .next v
      | none => .fault (.noSuchElement .rom i)
    | .dly => .next (s.delayFifo.buf.read i)
    | .rxf => .next (s.rxFifo.buf.read i)
    | .txf => .next (s.txFifo.buf.read i)
  else .fault (.noSuchElement sp i)

/-- `MemWrite(space, i, 1, v)` on the space that backs a FIFO (rules R17, R71). `ROM` is written by
nothing (rule R70). -/
def memWrite (f : Fifo) (i : Nat) (v : Octet) (s : State) : Res State :=
  if i < Space.size s.cfg f.space then
    .next (s.setRing f { s.ring f with buf := (s.ring f).buf.write i v })
  else .fault (.noSuchElement f.space i)

/-! ## FIFOs -/

/-- The abstract queue of a ring of capacity `n`, oldest first (rules R140, R146). -/
def Ring.queue (n : Nat) (r : Ring) : List Octet :=
  (List.range r.count).map fun k => r.buf.read ((r.head + k) % n)

/-- `q(F)` (rule R140). -/
def State.queue (s : State) (f : Fifo) : List Octet := (s.ring f).queue (Fifo.cap s.cfg f)

/-- The bounds of rule R146 and the canonical form of the store. -/
def Ring.ok (n : Nat) (r : Ring) : Bool :=
  decide (r.head < n) && decide (r.tail < n) && decide (r.count ≤ n) &&
  decide (r.tail = (r.head + r.count) % n) && r.buf.wf && r.buf.within n

/-- `fifo_is_empty(F)` (rule R143). -/
def fifoIsEmpty (f : Fifo) (s : State) : Bool := (s.ring f).count == 0

/-- `fifo_is_full(F)` (rule R144). -/
def fifoIsFull (f : Fifo) (s : State) : Bool := (s.ring f).count == Fifo.cap s.cfg f

/-- `fifo_push(F, v)` in the ring form (rule R141). -/
def fifoPush (f : Fifo) (v : Octet) (s : State) : Res State :=
  if (s.ring f).count < Fifo.cap s.cfg f then
    andThen (memWrite f (s.ring f).tail v s) fun t =>
      .next (t.setRing f
        { t.ring f with
          tail := ((s.ring f).tail + 1) % Fifo.cap s.cfg f
          count := (s.ring f).count + 1 })
  else .refused .fifoFull

/-- `fifo_pop(F)` in the ring form (rule R142): the element and the state without it. -/
def fifoPop (f : Fifo) (s : State) : Res (Octet × State) :=
  if 0 < (s.ring f).count then
    andThen (memRead f.space (s.ring f).head s) fun v =>
      .next (v, s.setRing f
        { s.ring f with
          head := ((s.ring f).head + 1) % Fifo.cap s.cfg f
          count := (s.ring f).count - 1 })
  else .refused .fifoEmpty

/-! ## The boundary -/

/-- `emit e` (rules R17, R320). -/
def State.emit (s : State) (e : Event) : State := { s with events := s.events ++ [e] }

/-- `return v` to the agent that issued the operation (rules R17, R101). -/
def State.reply (s : State) (v : Reply) : State := { s with replies := s.replies ++ [v] }

/-- Every operation but `INIT` is refused while `initialised = 0` (rules R106, R341). -/
def ifInitialised (s : State) (o : Res State) : Res State :=
  if s.initialised then o else .refused .notInitialised

end Sys2Proof.Machine
end

