-- ==== Sys2Proof/Machine/Operands.lean ====
section
/-! DEFINITION. Operand forms and the arithmetic of rules R14 and R15: the signed reading of samples
and elements (R102, R118), the FIFO id (R102), the arithmetic shift, the shift registers and the folded
sine index (R162). -/

namespace Sys2Proof.Machine

/-- `v >>a k`: floor of `v / 2^k` (rule R15). -/
def asr (v : Int) (k : Nat) : Int := v / 2 ^ k

/-- An integer held in an `s16` register, low 16 bits (rule R14, `trunc_16`). -/
def toS16 (v : Int) : Reg16 := BitVec.ofInt 16 v

/-- An integer held in an `s8` register, low 8 bits (rule R14, `trunc_8`). -/
def toS8 (v : Int) : Octet := BitVec.ofInt 8 v

/-- A natural number held in a `u16` register. -/
def toU16 (v : Nat) : Reg16 := BitVec.ofNat 16 v

/-- The signed value of a sample operand or a `delay_fifo` element (rules R102, R118). -/
def sampleValue (x : Octet) : Int := x.toInt

/-- The FIFO an id names; 3 is reserved (rule R102). -/
def fifoOf (f : BitVec 2) : Option Fifo :=
  if f = 0#2 then some .delay
  else if f = 1#2 then some .rx
  else if f = 2#2 then some .tx
  else none

/-- An operation on the FIFO its operand names; id 3 is refused, before the initialisation check (rules
R105 (d), R301). -/
def onFifo (f : BitVec 2) (k : Fifo → Res State) : Res State :=
  match fifoOf f with
  | some g => k g
  | none => .refused .badOperand

/-- A `u8` shift register with one bit shifted in at bit 0 (rules R184, R187). -/
def shiftIn8 (r : Octet) (b : Bool) : Octet := (r <<< 1) ||| (if b then 1#8 else 0#8)

/-- A `u16` shift register with one bit shifted in at bit 0 (rule R210). -/
def shiftIn16 (r : Reg16) (b : Bool) : Reg16 := (r <<< 1) ||| (if b then 1#16 else 0#16)

/-- The octet accumulator with one bit entering at bit 7 (rules R73, R214). -/
def shiftInTop (r : Octet) (b : Bool) : Octet := (r >>> 1) ||| (if b then 0x80#8 else 0#8)

/-- The table index a sine index folds to: reflected in the upper quarter (rule R162). -/
def foldIdx (i : Nat) : Nat := if 128 ≤ i % 256 then 255 - i % 256 else i % 256

/-- The increment held in `phase_inc` for MARK (rules R11, R47). -/
def markReg (c : Config) : Reg16 := toU16 (markInc c)

/-- The increment held in `phase_inc` for SPACE (rules R11, R47). -/
def spaceReg (c : Config) : Reg16 := toU16 (spaceInc c)

/-- `SWITCH_TONE(p)` (rule R165). -/
def switchTone (c : Config) (p : Reg16) : Reg16 :=
  if p = markReg c then spaceReg c else markReg c

end Sys2Proof.Machine
end

