-- ==== Sys2Proof/Machine/Flags.lean ====
section
/-! DEFINITION. The conditions the rules test. The block has no condition codes (rule R56); these are
the predicates its pseudocode evaluates. -/

namespace Sys2Proof.Machine

/-- `EDGE(v)`: the two most recent bits differ (rule R18). -/
def edge (v : Octet) : Bool := v.getLsbD 0 != v.getLsbD 1

/-- The majority of the three most recent bits (rule R187). -/
def majority (v : Octet) : Bool :=
  let three := v.extractLsb' 0 3
  three == 7#3 || three == 6#3 || three == 5#3 || three == 3#3

/-- The slice of a filter output: strictly positive (rule R184). -/
def slicePositive (y : Reg16) : Bool := decide (0 < y.toInt)

/-- `demod_bits[7:0] == 0x7E` (rules R117, R210). -/
def isFlag (d : Reg16) : Bool := d.extractLsb' 0 8 == hdlcFlag

/-- The low `ABORT_ONES` bits are all 1 (rules R117, R210). -/
def isAbort (c : Config) (d : Reg16) : Bool := d.toNat % 2 ^ c.abortOnes == 2 ^ c.abortOnes - 1

/-- `demod_bits[5:0] == 0x3E` (rules R117, R210). -/
def isStuffed (d : Reg16) : Bool := d.extractLsb' 0 6 == 0x3E#6

/-- The reserved octets `HDLC_FLAG`, `HDLC_RESET`, `AX25_ESC` (rules R113, R214). -/
def isReserved (v : Octet) : Bool := v == hdlcFlag || v == hdlcReset || v == ax25Esc

/-- The octets sent with stuffing off when they are not escaped (rules R114, R231). -/
def isOutOfBand (v : Octet) : Bool := v == hdlcFlag || v == hdlcReset

end Sys2Proof.Machine
end

