-- ==== Sys2Proof/Machine/Hdlc.lean ====
section
/-! DEFINITION. The HDLC receive parser, 43_hdlc_rx.md. -/

namespace Sys2Proof.Machine

/-- `RXPUT(b)`, the guarded push (rule R215): 1 if stored; if `rx_fifo` is full the frame is dropped. -/
def rxPut (b : Octet) (s : State) : Res (Bool × State) :=
  if fifoIsFull .rx s then .next (false, { s with hdlcRxstart := false })
  else andThen (fifoPush .rx b s) fun t => .next (true, t)

/-- Empty the byte accumulator. -/
def clearAccumulator (s : State) : State := { s with hdlcCurrchar := 0#8, hdlcBitIdx := 0#8 }

/-- `FLAG_CASE` (rule R211). -/
def flagCase (s : State) : Res State :=
  andThen (rxPut hdlcFlag s) fun p => .next (clearAccumulator { p.2 with hdlcRxstart := p.1 })

/-- `ABORT_CASE` (rule R212). -/
def abortCase (s : State) : State := { s with hdlcRxstart := false }

/-- Store a completed octet, with the escape introducer before a reserved one (rule R214): the octet is
not attempted when its introducer could not be stored. -/
def storeOctet (c : Octet) (s : State) : Res State :=
  andThen (if isReserved c then rxPut ax25Esc s else .next (true, s)) fun p =>
    if p.1 then andThen (rxPut c p.2) fun q => .next q.2 else .next p.2

/-- `DATA_CASE(bit)` (rule R214). -/
def dataCase (b : Bool) (s : State) : Res State :=
  let t := { s with
    hdlcCurrchar := shiftInTop s.hdlcCurrchar b
    hdlcBitIdx := s.hdlcBitIdx + 1#8 }
  if t.hdlcBitIdx = 8#8 then
    andThen (storeOctet t.hdlcCurrchar t) fun u => .next (clearAccumulator u)
  else .next t

/-- `HDLCRX bit` (rule R210): shift, then flag, abort, stuffed bit, outside a frame, data, in that
order. -/
def hdlcRxOp (b : Bool) (s : State) : Res State :=
  let t := { s with demodBits := shiftIn16 s.demodBits b }
  if isFlag t.demodBits then flagCase t
  else if isAbort t.cfg t.demodBits then .next (abortCase t)
  else if isStuffed t.demodBits then .next t
  else if t.hdlcRxstart then dataCase b t
  else .next t

/-- `HDLCRX bit` (rule R210). -/
def execHdlcrx (b : Bool) (s : State) : Res State := ifInitialised s (hdlcRxOp b s)

end Sys2Proof.Machine
end

