-- ==== Sys2Proof/Machine/Demod.lean ====
section
/-! DEFINITION. The demodulator, 42_demod.md: the seven sub-operations of an ADC tick and the tick. -/

namespace Sys2Proof.Machine

/-- `DISCRIM s` (rule R181): the product with the sample of four ticks ago, over 4, enters the filter. -/
def discrimOp (x : Octet) (s : State) : Res State :=
  andThen (fifoPop .delay s) fun p =>
    .next { p.2 with
      iirX0 := p.2.iirX1
      iirX1 := toS16 (asr (sampleValue p.1 * sampleValue x) 2) }

/-- The Butterworth recurrence on integers (rule R182): each shift floors separately. -/
def butterworth (x0 x1 y : Int) : Int := x0 + x1 + asr y 1 + asr y 3 + asr y 5

/-- The Chebyshev recurrence on integers (rule R183). -/
def chebyshev (x0 x1 y : Int) : Int := x0 + x1 + asr y 1

/-- `IIR.B` (rule R182). In the envelope of rule R188 the output fits 16 bits; that the low 16 bits are kept
of one that does not is a DESIGN CHOICE (log entry 11), since R188 specifies no wrap. -/
def iirBOp (s : State) : State :=
  { s with
    iirY0 := s.iirY1
    iirY1 := toS16 (butterworth s.iirX0.toInt s.iirX1.toInt s.iirY1.toInt) }

/-- `IIR.C` (rule R183). An output that does not fit 16 bits keeps its low 16: a DESIGN CHOICE (log entry
11), as for `IIR.B`. -/
def iirCOp (s : State) : State :=
  { s with
    iirY0 := s.iirY1
    iirY1 := toS16 (chebyshev s.iirX0.toInt s.iirX1.toInt s.iirY1.toInt) }

/-- `SLICE` (rule R184). -/
def sliceOp (s : State) : State :=
  { s with sampledBits := shiftIn8 s.sampledBits (slicePositive s.iirY1) }

/-- `DLYPUSH s` (rule R185): the raw sample onto the delay line. -/
def dlyPushOp (x : Octet) (s : State) : Res State := fifoPush .delay x s

/-- The nudge of `CLKREC` (rule R186): one unit toward `PHASE_THRES`, downward at it. -/
def nudge (p : Int) : Int := if p < phaseThres then p + 1 else p - 1

/-- `CLKREC` (rule R186). -/
def clkRecOp (s : State) : State :=
  let p := if edge s.sampledBits then nudge s.currPhase.toInt else s.currPhase.toInt
  { s with currPhase := toS8 (p + phaseBit) }

/-- `BITDEC` (rule R187): whether a bit was decided, and the state. -/
def bitDecOp (s : State) : Bool × State :=
  if phaseMax ≤ s.currPhase.toInt then
    (true, { s with
      currPhase := toS8 (s.currPhase.toInt - phaseMax)
      foundBits := shiftIn8 s.foundBits (majority s.sampledBits) })
  else (false, s)

/-- `NRZIDEC` (rule R189): 1 iff the last two decided bits are equal. -/
def nrziDecOp (s : State) : Bool := !edge s.foundBits

/-- The filter the build runs (rules R10, R180). -/
def filterOp (s : State) : State :=
  match s.cfg.filter with
  | .butterworth => iirBOp s
  | .chebyshev => iirCOp s

/-- `ADCTICK s` (rule R180): the stages in the source's order; the parser runs only on a tick that
decided a bit. -/
def adcTickOp (x : Octet) (s : State) : Res State :=
  andThen (discrimOp x s) fun a =>
  andThen (dlyPushOp x (sliceOp (filterOp a))) fun b =>
    let d := bitDecOp (clkRecOp b)
    if d.1 then hdlcRxOp (nrziDecOp d.2) d.2 else .next d.2

/-- `ADCTICK s` (rule R180). -/
def execAdctick (x : Octet) (s : State) : Res State := ifInitialised s (adcTickOp x s)

/-- `DISCRIM s` (rule R181). -/
def execDiscrim (x : Octet) (s : State) : Res State := ifInitialised s (discrimOp x s)

/-- `IIR.B` (rule R182). -/
def execIirB (s : State) : Res State := ifInitialised s (.next (iirBOp s))

/-- `IIR.C` (rule R183). -/
def execIirC (s : State) : Res State := ifInitialised s (.next (iirCOp s))

/-- `SLICE` (rule R184). -/
def execSlice (s : State) : Res State := ifInitialised s (.next (sliceOp s))

/-- `DLYPUSH s` (rule R185). -/
def execDlypush (x : Octet) (s : State) : Res State := ifInitialised s (dlyPushOp x s)

/-- `CLKREC` (rule R186). -/
def execClkrec (s : State) : Res State := ifInitialised s (.next (clkRecOp s))

/-- `BITDEC` (rule R187): returns `fired`. -/
def execBitdec (s : State) : Res State :=
  ifInitialised s (.next ((bitDecOp s).2.reply (.bit (bitDecOp s).1)))

/-- `NRZIDEC` (rule R189): writes nothing, returns the decoded bit. -/
def execNrzidec (s : State) : Res State := ifInitialised s (.next (s.reply (.bit (nrziDecOp s))))

end Sys2Proof.Machine
end

