-- ==== Sys2Proof/Machine/FifoOps.lean ====
section
/-! DEFINITION. The eight FIFO operations of 40_fifo.md. The locked variants have the semantics of the
plain ones, because every operation is atomic (rule R145). -/

namespace Sys2Proof.Machine

/-- Push the element onto the FIFO (rule R141). -/
def pushOp (g : Fifo) (v : Octet) (s : State) : Res State := ifInitialised s (fifoPush g v s)

/-- Pop an element and return it (rule R142). -/
def popOp (g : Fifo) (s : State) : Res State :=
  ifInitialised s (andThen (fifoPop g s) fun p => .next (p.2.reply (.octet p.1)))

/-- Return `fifo_is_empty(F)` (rule R143). -/
def emptyOp (g : Fifo) (s : State) : Res State :=
  ifInitialised s (.next (s.reply (.bit (fifoIsEmpty g s))))

/-- Return `fifo_is_full(F)` (rule R144). -/
def fullOp (g : Fifo) (s : State) : Res State :=
  ifInitialised s (.next (s.reply (.bit (fifoIsFull g s))))

/-- `FPUSH f, v` (rule R141). -/
def execFpush (f : BitVec 2) (v : Octet) (s : State) : Res State := onFifo f fun g => pushOp g v s

/-- `FPOP f` (rule R142). -/
def execFpop (f : BitVec 2) (s : State) : Res State := onFifo f fun g => popOp g s

/-- `FEMPTY f` (rule R143). -/
def execFempty (f : BitVec 2) (s : State) : Res State := onFifo f fun g => emptyOp g s

/-- `FFULL f` (rule R144). -/
def execFfull (f : BitVec 2) (s : State) : Res State := onFifo f fun g => fullOp g s

/-- `FPUSH.L f, v` (rule R145). -/
def execFpushL (f : BitVec 2) (v : Octet) (s : State) : Res State := onFifo f fun g => pushOp g v s

/-- `FPOP.L f` (rule R145). -/
def execFpopL (f : BitVec 2) (s : State) : Res State := onFifo f fun g => popOp g s

/-- `FEMPTY.L f` (rule R145). -/
def execFemptyL (f : BitVec 2) (s : State) : Res State := onFifo f fun g => emptyOp g s

/-- `FFULL.L f` (rule R145). -/
def execFfullL (f : BitVec 2) (s : State) : Res State := onFifo f fun g => fullOp g s

end Sys2Proof.Machine
end

