-- ==== Sys2Proof/Machine/HostPort.lean ====
section
/-! DEFINITION. The host port, 45_host.md rules R270 to R277, and `INIT`, rule R340. -/

namespace Sys2Proof.Machine

/-- `INIT` (rule R340): the stop event if a transmission was in progress, then every register and store
at its reset value. The backing stores of `rx_fifo` and `tx_fifo` are cleared with them (rule R70 lists
`INIT` among their writers; log entry 4). -/
def execInit (s : State) : Res State :=
  let e := if s.initialised && s.sending then s.emit .dacIrqStop else s
  .next { e with
    delayFifo := Ring.ofZeros delayLen
    rxFifo := Ring.ofZeros 0
    txFifo := Ring.ofZeros 0
    iirX0 := 0#16
    iirX1 := 0#16
    iirY0 := 0#16
    iirY1 := 0#16
    sampledBits := 0#8
    foundBits := 0#8
    currPhase := 0#8
    demodBits := 0#16
    hdlcRxstart := false
    hdlcCurrchar := 0#8
    hdlcBitIdx := 0#8
    currOut := 0#8
    txBit := 0#8
    sampleCount := 0#16
    phaseAcc := 0#16
    phaseInc := 0#16
    bitStuff := false
    stuffCnt := 0#8
    preambleLen := 0#16
    trailerLen := 0#16
    sending := false
    initialised := true }

/-- The priming of a transmission that was not running (rule R270). -/
def primeSending (s : State) : State :=
  { s.emit .dacIrqStart with
    phaseInc := markReg s.cfg
    phaseAcc := 0#16
    stuffCnt := 0#8
    preambleLen := toU16 (preambleFlags s.cfg)
    sending := true }

/-- `TXSTART` (rule R270): prime only if not sending, reload `trailer_len` on every call. -/
def txStartOp (s : State) : State :=
  { (if s.sending then s else primeSending s) with trailerLen := toU16 (trailerFlags s.cfg) }

/-- `TXSTART` (rule R270). -/
def execTxstart (s : State) : Res State := ifInitialised s (.next (txStartOp s))

/-- `TXPUSH b` (rule R271): refused when `tx_fifo` is full. -/
def execTxpush (b : Octet) (s : State) : Res State :=
  ifInitialised s (if fifoIsFull .tx s then .refused .txFifoFull else fifoPush .tx b s)

/-- `RXPOP` (rule R272): refused when `rx_fifo` is empty; returns the octet it removes. -/
def execRxpop (s : State) : Res State :=
  ifInitialised s
    (if fifoIsEmpty .rx s then .refused .rxFifoEmpty
     else andThen (fifoPop .rx s) fun p => .next (p.2.reply (.octet p.1)))

/-- `RXEMPTY` (rule R273). -/
def execRxempty (s : State) : Res State :=
  ifInitialised s (.next (s.reply (.bit (fifoIsEmpty .rx s))))

/-- `TXFULL` (rule R274). -/
def execTxfull (s : State) : Res State :=
  ifInitialised s (.next (s.reply (.bit (fifoIsFull .tx s))))

/-- `SENDING` (rule R275). -/
def execSending (s : State) : Res State := ifInitialised s (.next (s.reply (.bit s.sending)))

/-- `RELAX` (rule R276): no effect. -/
def execRelax (s : State) : Res State := ifInitialised s (.next s)

end Sys2Proof.Machine
end

