-- ==== Sys2Proof/Machine/Dds.lean ====
section
/-! DEFINITION. The sine table and the phase accumulator, 41_dds.md. -/

namespace Sys2Proof.Machine

/-- `SINSAMPLE` as a function of the index (rule R162): fold into the quarter, read the table, and
subtract from 255 in the second half of the cycle. -/
def sinSampleOp (idx : Nat) (s : State) : Res Octet :=
  andThen (memRead .rom (foldIdx idx) s) fun d => .next (if 256 ≤ idx then 255#8 - d else d)

/-- `DDSSTEP` (rule R164): advance the accumulator, then look up and emit the sample. -/
def ddsStepOp (s : State) : Res (Octet × State) :=
  let acc := (s.phaseAcc.toNat + s.phaseInc.toNat) % sinLen
  andThen (sinSampleOp acc s) fun v =>
    .next (v, { s with phaseAcc := toU16 acc }.emit (.dacWrite v))

/-- `SINSAMPLE idx` (rule R162): writes nothing, returns the sample. -/
def execSinsample (idx : BitVec 9) (s : State) : Res State :=
  ifInitialised s (andThen (sinSampleOp idx.toNat s) fun v => .next (s.reply (.octet v)))

/-- `DDSSTEP` (rule R164). -/
def execDdsstep (s : State) : Res State :=
  ifInitialised s (andThen (ddsStepOp s) fun p => .next (p.2.reply (.octet p.1)))

end Sys2Proof.Machine
end

