-- ==== Sys2Proof/Machine/Modulator.lean ====
section
/-! DEFINITION. The modulator, 44_modulator.md: octet fetch, bit stuffing and tone, and the DAC tick. -/

namespace Sys2Proof.Machine

/-- What `TXFETCH` returns (rule R231). -/
inductive Fetched where
  | goOn
  | stop
  deriving DecidableEq, Repr

/-- Either stop path of rule R231: `dac_irq_stop`, and `sending` falls. -/
def stopSending (s : State) : State := { s.emit .dacIrqStop with sending := false }

/-- Stuffing is on by default; the run of ones restarts only if it was off (rule R231). -/
def enableStuffing (s : State) : State :=
  { s with
    stuffCnt := if s.bitStuff then s.stuffCnt else 0#8
    bitStuff := true }

/-- The octet of a fetch before escapes are looked at (rule R231): preamble flag, queued octet, or
trailer flag, in that order. -/
def fetchOctet (s : State) : Res State :=
  if s.preambleLen ≠ 0#16 then
    .next { s with preambleLen := s.preambleLen - 1#16, currOut := hdlcFlag }
  else if fifoIsEmpty .tx s = false then
    andThen (fifoPop .tx s) fun p => .next { p.2 with currOut := p.1 }
  else .next { s with trailerLen := s.trailerLen - 1#16, currOut := hdlcFlag }

/-- The fetched octet is ready to be sent, least significant bit first (rule R231). -/
def startOctet (s : State) : Fetched × State := (.goOn, { s with txBit := 0x01#8 })

/-- The escape and the out-of-band octets (rule R231): an introducer is replaced by the octet behind it,
or ends the transmission if there is none; an unescaped flag or abort octet is sent unstuffed. -/
def resolveOctet (s : State) : Res (Fetched × State) :=
  if s.currOut = ax25Esc then
    if fifoIsEmpty .tx s then .next (.stop, stopSending s)
    else andThen (fifoPop .tx s) fun p => .next (startOctet { p.2 with currOut := p.1 })
  else if isOutOfBand s.currOut then .next (startOctet { s with bitStuff := false })
  else .next (startOctet s)

/-- `TXFETCH` (rule R231). -/
def txFetchOp (s : State) : Res (Fetched × State) :=
  if fifoIsEmpty .tx s && s.trailerLen == 0#16 then .next (.stop, stopSending s)
  else andThen (fetchOctet (enableStuffing s)) resolveOctet

/-- `TXBIT` (rule R232): a stuffed 0, a 1 that keeps the tone, or a 0 that switches it. -/
def txBitOp (s : State) : State :=
  let t :=
    if s.bitStuff && decide (bitStuffLen ≤ s.stuffCnt.toNat) then
      { s with stuffCnt := 0#8, phaseInc := switchTone s.cfg s.phaseInc }
    else if s.currOut &&& s.txBit ≠ 0#8 then
      { s with stuffCnt := s.stuffCnt + 1#8, txBit := s.txBit <<< 1 }
    else
      { s with
        stuffCnt := 0#8
        phaseInc := switchTone s.cfg s.phaseInc
        txBit := s.txBit <<< 1 }
  { t with sampleCount := toU16 (dacSamplesPerBit s.cfg) }

/-- The per-sample part of a DAC tick (rule R230). -/
def dacSample (s : State) : Res State :=
  andThen (ddsStepOp s) fun p => .next { p.2 with sampleCount := p.2.sampleCount - 1#16 }

/-- `DACTICK` (rule R230): the per-bit part when `sample_count = 0`, then one sample, unless the fetch
stopped the transmission. -/
def dacTickOp (s : State) : Res State :=
  if s.sending = false then .refused .dacIrqDisabled
  else if s.sampleCount = 0#16 then
    if s.txBit = 0#8 then
      andThen (txFetchOp s) fun p =>
        match p.1 with
        | .stop => .next p.2
        | .goOn => dacSample (txBitOp p.2)
    else dacSample (txBitOp s)
  else dacSample s

/-- `DACTICK` (rule R230). -/
def execDactick (s : State) : Res State := ifInitialised s (dacTickOp s)

/-- What `TXFETCH` returns, as a value on the boundary. -/
def fetchReply : Fetched → Reply
  | .goOn => .fetchContinue
  | .stop => .fetchStop

/-- `TXFETCH` (rule R231): returns `continue` or `stop`. -/
def execTxfetch (s : State) : Res State :=
  ifInitialised s (andThen (txFetchOp s) fun p => .next (p.2.reply (fetchReply p.1)))

/-- `TXBIT` (rule R232). -/
def execTxbit (s : State) : Res State := ifInitialised s (.next (txBitOp s))

end Sys2Proof.Machine
end

