-- ==== Sys2Proof/Machine/Dispatch.lean ====
section
/-! DEFINITION. One arm per operation of rule R104. -/

namespace Sys2Proof.Machine

def exec (i : Instr) (s : State) : Host.Outcome State Fault Refusal :=
  match i with
  | .init => Sys2Proof.Machine.execInit s
  | .adctick x => Sys2Proof.Machine.execAdctick x s
  | .dactick => Sys2Proof.Machine.execDactick s
  | .txpush b => Sys2Proof.Machine.execTxpush b s
  | .txstart => Sys2Proof.Machine.execTxstart s
  | .rxpop => Sys2Proof.Machine.execRxpop s
  | .rxempty => Sys2Proof.Machine.execRxempty s
  | .txfull => Sys2Proof.Machine.execTxfull s
  | .sending => Sys2Proof.Machine.execSending s
  | .relax => Sys2Proof.Machine.execRelax s
  | .discrim x => Sys2Proof.Machine.execDiscrim x s
  | .iirB => Sys2Proof.Machine.execIirB s
  | .iirC => Sys2Proof.Machine.execIirC s
  | .slice => Sys2Proof.Machine.execSlice s
  | .dlypush x => Sys2Proof.Machine.execDlypush x s
  | .clkrec => Sys2Proof.Machine.execClkrec s
  | .bitdec => Sys2Proof.Machine.execBitdec s
  | .nrzidec => Sys2Proof.Machine.execNrzidec s
  | .hdlcrx b => Sys2Proof.Machine.execHdlcrx b s
  | .txfetch => Sys2Proof.Machine.execTxfetch s
  | .txbit => Sys2Proof.Machine.execTxbit s
  | .ddsstep => Sys2Proof.Machine.execDdsstep s
  | .sinsample idx => Sys2Proof.Machine.execSinsample idx s
  | .fpush f v => Sys2Proof.Machine.execFpush f v s
  | .fpop f => Sys2Proof.Machine.execFpop f s
  | .fempty f => Sys2Proof.Machine.execFempty f s
  | .ffull f => Sys2Proof.Machine.execFfull f s
  | .fpushL f v => Sys2Proof.Machine.execFpushL f v s
  | .fpopL f => Sys2Proof.Machine.execFpopL f s
  | .femptyL f => Sys2Proof.Machine.execFemptyL f s
  | .ffullL f => Sys2Proof.Machine.execFfullL f s

end Sys2Proof.Machine
end

