-- ==== Sys2Proof/Machine/Port.lean ====
section
/-! DEFINITION. The command port (rules R100, R105, R106): what presenting one command word does, and
how a run of presented words goes on after a refusal (rule R300). -/

namespace Sys2Proof.Machine

/-- The refusal a rejected command word gets (rule R301, codes 1 to 3). -/
def refusalOf : Reject → Refusal
  | .reservedOp => .reservedOp
  | .internalOp => .internalOp
  | .badOperand => .badOperand

/-- The decoding algorithm of rule R106: refuse in the order of rule R301, else perform the operation. -/
def present (w : CmdWord) (s : State) : Res State :=
  match decodePort w with
  | .error r => .refused (refusalOf r)
  | .ok i => exec i s

/-- The state after an outcome: a refused operation has no step and changes nothing, so the agents go on
from the state it was presented in (rules R17, R300). -/
def stateAfter (s : State) (o : Res State) : State :=
  match o with
  | .next t => t
  | .fault _ => s
  | .refused _ => s

/-- The state after a list of words presented one after another, refused ones included: the programs of
95_test_vectors.md section 9 run so. -/
def presentAll (ws : List CmdWord) (s : State) : State :=
  match ws with
  | [] => s
  | w :: rest => presentAll rest (stateAfter s (present w s))

/-- The state after a list of operations, refused ones included. -/
def execAll (is : List Instr) (s : State) : State :=
  match is with
  | [] => s
  | i :: rest => execAll rest (stateAfter s (exec i s))

end Sys2Proof.Machine
end

