-- ==== Sys2Proof/Machine/Step.lean ====
section
/-! DEFINITION. One step of the block. The block has no program counter and fetches nothing (rule R55):
its agents present command words, in some total order (rule R81), and a step performs the next of them.
With nothing presented the block does nothing (rules R326, R342). -/

namespace Sys2Proof.Machine

/-- One step: take the next presented command word and perform it (rules R80, R81, R106). An
inadmissible configuration has no model (rule R303). -/
def step (s : State) : Host.Outcome State Fault Refusal :=
  if admissible s.cfg then
    match s.pending with
    | [] => .next s
    | w :: rest => present w { s with pending := rest }
  else .refused .buildRejected

/-- The state with one more command word presented, before any other: the next step performs it. -/
def State.withFetchWord (s : State) (nbits w : Nat) : State :=
  { s with pending := BitVec.ofNat 24 (w % 2 ^ nbits) :: s.pending }

end Sys2Proof.Machine
end

