-- ==== Sys2Proof/Machine/Facade.lean ====
section
/-! DEFINITION. The façade calls `WRITE`, `READ`, `FLUSH` and `MODEMINIT` (rules R108, R280 to R283) as
the host's side of the port: a call in progress says which operation it issues next and what it does
with the answer. They are software around the block (rule R8), so their variables are no part of
`State`; between any two operations of a call the other agents may act. -/

namespace Sys2Proof.Machine

/-- Where `WRITE` stands on its current octet (rule R280). -/
inductive WriteAt where
  | poll
  | relax
  | push
  | start
  deriving DecidableEq, Repr

/-- Where `READ` stands on its current octet (rule R282). -/
inductive ReadAt where
  | poll
  | relax
  | pop
  deriving DecidableEq, Repr

/-- What a façade call returns. -/
inductive Returned where
  /-- `WRITE` returns `n` (rule R280). -/
  | wrote (n : Nat)
  /-- `READ` returns the octets delivered; their number is its return value (rule R282). -/
  | delivered (got : List Octet)
  /-- `FLUSH` returns success (rule R281). -/
  | flushed
  /-- `MODEMINIT` returns (rule R283). -/
  | created
  deriving DecidableEq, Repr

/-- A façade call in progress. -/
inductive Call where
  /-- `WRITE`: `todo` the octets not yet started, `n` the length asked for. -/
  | write (at' : WriteAt) (todo : List Octet) (n : Nat)
  /-- `READ`: `left` octets still wanted, `got` those delivered. -/
  | read (at' : ReadAt) (left : Nat) (got : List Octet)
  /-- `FLUSH` about to read `SENDING`. -/
  | flushPoll
  /-- `FLUSH` about to issue `RELAX`. -/
  | flushRelax
  /-- `MODEMINIT` about to issue `INIT`. -/
  | modemInit
  /-- The call has returned. -/
  | done (r : Returned)
  deriving DecidableEq, Repr

/-- `WRITE buf, n` begins or goes on to its next octet; with none left it returns (rule R280). -/
def writeFrom (todo : List Octet) (n : Nat) : Call :=
  match todo with
  | [] => .done (.wrote n)
  | _ :: _ => .write .poll todo n

/-- `READ buf, n` begins or goes on to its next octet; with none wanted it returns (rule R282). -/
def readFrom (left : Nat) (got : List Octet) : Call :=
  match left with
  | 0 => .done (.delivered got)
  | _ + 1 => .read .poll left got

/-- The operation a call issues next (rules R280 to R283). -/
def Call.issues : Call → Option Instr
  | .write .poll _ _ => some .txfull
  | .write .relax _ _ => some .relax
  | .write .push todo _ => some (.txpush (todo.headD 0#8))
  | .write .start _ _ => some .txstart
  | .read .poll _ _ => some .rxempty
  | .read .relax _ _ => some .relax
  | .read .pop _ _ => some .rxpop
  | .flushPoll => some .sending
  | .flushRelax => some .relax
  | .modemInit => some .init
  | .done _ => none

/-- `READ` finds `rx_fifo` empty: return short when non-blocking, or when the timed wait has expired,
which the environment says (rule R282, decision D24); else wait. -/
def readEmpty (timeoutMs : Int) (expired : Bool) (left : Nat) (got : List Octet) : Call :=
  if timeoutMs = 0 then .done (.delivered got)
  else if 0 < timeoutMs ∧ expired = true then .done (.delivered got)
  else .read .relax left got

/-- What a call does with the answer to the operation it issued (rules R280 to R283). -/
def Call.answer (timeoutMs : Int) (expired : Bool) (r : Option Reply) : Call → Call
  | .write .poll todo n => if r = some (.bit true) then .write .relax todo n else .write .push todo n
  | .write .relax todo n => .write .poll todo n
  | .write .push todo n => .write .start todo n
  | .write .start todo n => writeFrom todo.tail n
  | .read .poll left got =>
    if r = some (.bit true) then readEmpty timeoutMs expired left got else .read .pop left got
  | .read .relax left got => .read .poll left got
  | .read .pop left got =>
    match r with
    | some (.octet v) => readFrom (left - 1) (got ++ [v])
    | _ => readFrom (left - 1) got
  | .flushPoll => if r = some (.bit true) then .flushRelax else .done .flushed
  | .flushRelax => .flushPoll
  | .modemInit => .done .created
  | .done r => .done r

/-- The value an operation returned: the replies it added. -/
def answerOf (s t : State) : Option Reply := (t.replies.drop s.replies.length).head?

/-- A call issues its next operation and takes the answer. `expired` is the environment's word on a
timed wait. -/
def callStep (expired : Bool) (c : Call) (s : State) : Res (Call × State) :=
  match c.issues with
  | none => .next (c, s)
  | some i =>
    andThen (exec i s) fun t => .next (c.answer s.cfg.rxTimeoutMs expired (answerOf s t), t)

/-- A call issues `k` operations, no other agent acting in between. -/
def callSteps (expired : Bool) (k : Nat) (c : Call) (s : State) : Res (Call × State) :=
  match k with
  | 0 => .next (c, s)
  | j + 1 => andThen (callStep expired c s) fun p => callSteps expired j p.1 p.2

end Sys2Proof.Machine
end

