-- ==== Sys2Proof/Machine/Stream.lean ====
section
/-! DEFINITION. The encodings the source defines, 30_encoding.md part 2: the escaped byte stream
(rules R112 to R115), the bit order of octets (R73), bit stuffing and the frame on the line (R116), and
the line bit a bit time carries (R110, R232). -/

namespace Sys2Proof.Machine

/-! ## The escaped byte stream -/

/-- The image of one payload octet on the read stream: the three reserved values take two octets (rule
R113). -/
def escapeOctet (p : Octet) : List Octet := if isReserved p then [ax25Esc, p] else [p]

/-- The image of a sequence of payload octets (rule R112). -/
def escapeAll (ps : List Octet) : List Octet := ps.flatMap escapeOctet

/-- An item of the stream grammar of rule R112; `dangling` is the malformed end of rule R115. -/
inductive Item where
  /-- An unescaped `0x7E`. -/
  | flag
  /-- An unescaped `0x7F`. -/
  | abort
  /-- A payload octet, escaped or not. -/
  | payload (p : Octet)
  /-- An introducer with nothing behind it. -/
  | dangling
  deriving DecidableEq, Repr

/-- The item an octet that introduces no pair stands for (rules R112, R114). -/
def plainItem (v : Octet) : Item :=
  if v = hdlcFlag then .flag else if v = hdlcReset then .abort else .payload v

/-- The items of a stream (rules R112, R113, R115): `0x1B` tells that an item is two octets long. The
flag says whether the octet before was an introducer. -/
def parseFrom (escaped : Bool) (l : List Octet) : List Item :=
  match l with
  | [] => if escaped then [.dangling] else []
  | v :: rest =>
    if escaped then .payload v :: parseFrom false rest
    else if v = ax25Esc then parseFrom true rest
    else plainItem v :: parseFrom false rest

/-- The items of a stream read from its start. -/
def parseStream (l : List Octet) : List Item := parseFrom false l

/-! ## Line bits -/

/-- The bits of an octet, least significant first (rule R73). -/
def octetBits (v : Octet) : List Bool := (List.range 8).map fun k => v.getLsbD k

/-- A flag on the line (rule R116): never stuffed. -/
def flagBits : List Bool := octetBits hdlcFlag

/-- Bit stuffing with `n` ones just sent (rule R116): a 0 goes in after five. The modulator inserts it
when the next payload bit is due (rule R232), so a run that ends the payload gets its 0 only if
`atEnd`. -/
def stuffFrom (atEnd : Bool) (n : Nat) (bs : List Bool) : List Bool :=
  match bs with
  | [] => if atEnd && n == bitStuffLen then [false] else []
  | b :: rest =>
    if n == bitStuffLen then false :: b :: stuffFrom atEnd (if b then 1 else 0) rest
    else b :: stuffFrom atEnd (if b then n + 1 else 0) rest

/-- The stuffed line image of payload octets (rule R116). -/
def stuffed (atEnd : Bool) (ps : List Octet) : List Bool := stuffFrom atEnd 0 (ps.flatMap octetBits)

/-- Whether the next bit time carries a stuffed 0 (rules R232, R234). -/
def stuffDue (s : State) : Bool := s.bitStuff && decide (bitStuffLen ≤ s.stuffCnt.toNat)

/-- The line bit the next bit time carries (rules R110, R232): the stuffed 0, or the bit of `curr_out`
under the mask. -/
def lineBit (s : State) : Bool := !stuffDue s && decide (s.currOut &&& s.txBit ≠ 0#8)

end Sys2Proof.Machine
end

