-- ==== Sys2Proof/Safety.lean ====
section
/-! DEFINITION. What counts as a state of a block that runs as the spec says: the invariant of rule
R61, with the bounds of rules R26 and R49 and what makes it inductive. -/

namespace Sys2Proof.Machine

/-- The bounds of rule R26 on a filter output. -/
def filterRange (f : Filter) (y : Int) : Prop :=
  match f with
  | .butterworth => -23646 ≤ y ∧ y ≤ 23827
  | .chebyshev => -16256 ≤ y ∧ y ≤ 16383

/-- The values of the mask `tx_bit` (rule R41): 0, or bit `k` alone. -/
def maskBit (k : Nat) : Octet := 1#8 <<< k

/-- Rule R61 for an initialised block. The last two conditions on `stuff_cnt` are what rule R49's
bounds rest on: an unstuffed octet is `0x7E` or `0x7F`, and at most five ones precede it. -/
structure Running (s : State) : Prop where
  /-- It is initialised. -/
  init : s.initialised = true
  /-- Every ring is within its layout (rule R146). -/
  rings : ∀ f, (s.ring f).ok (Fifo.cap s.cfg f) = true
  /-- `delay_fifo` holds 4 elements. -/
  delay : s.delayFifo.count = 4
  /-- `curr_phase` is in `[0, 63]`. -/
  phase : s.currPhase.toNat ≤ 63
  /-- `hdlc_bit_idx` is in `[0, 7]`. -/
  bitIdx : s.hdlcBitIdx.toNat ≤ 7
  /-- `phase_acc` is in `[0, 511]`. -/
  acc : s.phaseAcc.toNat ≤ 511
  /-- `sample_count` is in `[0, DAC_SAMPLES_PER_BIT - 1]`. -/
  samples : s.sampleCount.toNat + 1 ≤ dacSamplesPerBit s.cfg
  /-- `tx_bit` is zero or has exactly one bit set. -/
  mask : s.txBit = 0#8 ∨ ∃ k, k < 8 ∧ s.txBit = maskBit k
  /-- While sending, `phase_inc` is one of the two increments. -/
  tone : s.sending = true → s.phaseInc = markReg s.cfg ∨ s.phaseInc = spaceReg s.cfg
  /-- With stuffing on, at most five ones have been counted. -/
  stuffOn : s.bitStuff = true → s.stuffCnt.toNat ≤ 5
  /-- With stuffing off and an octet in progress, it is a flag or an abort octet, and each bit of it
  added at most one. -/
  stuffOff : s.bitStuff = false → ∀ k, k < 8 → s.txBit = maskBit k →
    (s.currOut = hdlcFlag ∨ s.currOut = hdlcReset) ∧ s.stuffCnt.toNat ≤ 5 + k
  /-- With stuffing off and no octet in progress, the count is 0. -/
  stuffIdle : s.bitStuff = false → s.txBit = 0#8 → s.stuffCnt = 0#8
  /-- The filter inputs are in `[-4064, 4096]`. -/
  filterIn : -4064 ≤ s.iirX0.toInt ∧ s.iirX0.toInt ≤ 4096 ∧ -4064 ≤ s.iirX1.toInt ∧ s.iirX1.toInt ≤ 4096
  /-- The filter outputs are within the bounds of rule R26. -/
  filterOut : filterRange s.cfg.filter s.iirY0.toInt ∧ filterRange s.cfg.filter s.iirY1.toInt
  /-- While not sending, the transmitter is at an octet boundary. -/
  idle : s.sending = false → s.sampleCount = 0#16 ∧ s.txBit = 0#8

/-- The invariant of rule R61: an admissible build, and a running block once `INIT` has been performed. -/
structure Inv (s : State) : Prop where
  /-- The configuration is admissible (rule R303). -/
  build : admissible s.cfg = true
  /-- After `INIT`, rule R61. -/
  running : s.initialised = true → Running s

end Sys2Proof.Machine
end

