-- ==== Sys2Proof/Certificates/Slice0/Obligations.lean ====
section
/-! DEFINITION. The statements for the provers. `{ s with r := t.r }` on the right of an equation `t = …`
says the frame: every other register, store and boundary field of `t` is that of `s`. -/

open Sys2Proof Sys2Proof.Machine

/-! ## Encoding -/

/-- Rules R100, R102, R104: a well-formed operation's command word decodes to it, every operand bit
kept. -/
def Obligations.EncodedOperationDecodesToItself : Prop :=
  ∀ i : Instr, i.wf = true → decode (encode i) = .ok i

/-- Rule R105, decision D32: the encoding is injective: a word that decodes is the encoding of what it
decodes to, and that is well formed. -/
def Obligations.DecodedWordIsItsOwnEncoding : Prop :=
  ∀ (w : CmdWord) (i : Instr), decode w = .ok i → i.wf = true ∧ encode i = w

/-- Rules R104 to R106: the port refuses a reserved code first, then an internal code, then a bad
operand, and accepts exactly the words of well-formed issuable operations. -/
def Obligations.CommandPortAcceptsExactlyIssuableWords : Prop :=
  ∀ w : CmdWord,
    let op := w.toNat / 65536
    (decodePort w = .error .reservedOp ↔
      ¬ (op ≤ 0x02 ∨ (0x10 ≤ op ∧ op ≤ 0x16) ∨ (0x20 ≤ op ∧ op ≤ 0x28) ∨ (0x30 ≤ op ∧ op ≤ 0x33) ∨
        (0x40 ≤ op ∧ op ≤ 0x47))) ∧
    (decodePort w = .error .internalOp ↔
      (0x20 ≤ op ∧ op ≤ 0x27) ∨ (0x30 ≤ op ∧ op ≤ 0x32) ∨ (0x40 ≤ op ∧ op ≤ 0x47)) ∧
    (∀ i, decodePort w = .ok i ↔ i.wf = true ∧ i.issuable = true ∧ encode i = w) ∧
    (decodePort w = .error .badOperand ↔
      (op ≤ 0x02 ∨ (0x10 ≤ op ∧ op ≤ 0x16) ∨ op = 0x28 ∨ op = 0x33) ∧
        ∀ i : Instr, i.wf = true → encode i ≠ w)

/-- Words written out from rules R102 and R104, and from the encoding table of 95_test_vectors.md 7.3. -/
def Obligations.WordsOfTheOperationTableDecode : Prop :=
  decode 0x000000#24 = .ok .init ∧ decode 0x01009C#24 = .ok (.adctick (BitVec.ofInt 8 (-100))) ∧
  decode 0x020000#24 = .ok .dactick ∧ decode 0x100055#24 = .ok (.txpush 0x55#8) ∧
  decode 0x210000#24 = .ok .iirB ∧ decode 0x280001#24 = .ok (.hdlcrx true) ∧
  decode 0x330180#24 = .ok (.sinsample 384#9) ∧ decode 0x400155#24 = .ok (.fpush 1#2 0x55#8) ∧
  decode 0x450200#24 = .ok (.fpopL 2#2) ∧
  decodePort 0x030000#24 = .error .reservedOp ∧ decodePort 0x400355#24 = .error .internalOp ∧
  decodePort 0x010100#24 = .error .badOperand ∧ decodePort 0x280002#24 = .error .badOperand

/-! ## One step -/

/-- Rules R80, R105, R106: a step performs the next presented operation, the word taken off the port;
an internal operation is refused there. -/
def Obligations.StepPerformsThePresentedOperation : Prop :=
  ∀ (s : State) (i : Instr) (rest : List CmdWord),
    admissible s.cfg = true → s.pending = encode i :: rest → i.wf = true →
      (i.issuable = true → step s = exec i { s with pending := rest }) ∧
      (i.issuable = false → step s = .refused .internalOp)

/-- Rule R105: a word that names no operation is refused. Two clauses are the model's choice: with
nothing presented a step changes nothing (log entry 8, from R326 and R342), and a step of an
inadmissible build is refused as `buildRejected` (log entry 10: R303 says only that it has no model). -/
def Obligations.StepWithoutAnOperation : Prop :=
  ∀ s : State,
    (admissible s.cfg = false → step s = .refused .buildRejected) ∧
    (admissible s.cfg = true → s.pending = [] → step s = .next s) ∧
    (∀ w rest, admissible s.cfg = true → s.pending = w :: rest → lookupOp (opField w) = none →
      step s = .refused .reservedOp) ∧
    (∀ w rest, admissible s.cfg = true → s.pending = w :: rest → decodePort w = .error .badOperand →
      step s = .refused .badOperand)

/-- Rules R10, R57: a step never changes the configuration. What it does to the boundary lists is the
model's choice (log entry 3): it takes the first presented word off the port, if there is one (none is
taken by the step of log entry 8), and only adds to what has been emitted and returned. -/
def Obligations.StepKeepsTheBuildAndOnlyAddsOutput : Prop :=
  ∀ s t : State, step s = .next t →
    t.cfg = s.cfg ∧ t.pending = s.pending.tail ∧
    (∃ e, t.events = s.events ++ e) ∧ (∃ r, t.replies = s.replies ++ r)

/-- Rule R61 right after reset. The reset state is the model's choice in its configuration (log entry 1)
and in standing for the state after `INIT`, with `initialised = 1` (log entry 2); `Inv` adds to R61 the
conditions of log entry 18. -/
def Obligations.ResetSatisfiesTheInvariant : Prop := Inv State.reset

/-- Rule R61: every step keeps the invariant. `Inv` adds to R61's list the conditions of log entry 18 on
`stuff_cnt` and the ring layouts of log entry 13, the model's own. -/
def Obligations.StepKeepsTheInvariant : Prop :=
  ∀ s t : State, Inv s → step s = .next t → Inv t

/-- Rules R75, R300: no step of a block within the invariant forms an index outside a storage space. -/
def Obligations.StepFromTheInvariantNeverFaults : Prop :=
  ∀ (s : State) (f : Fault), Inv s → step s ≠ .fault f

/-- Rule R301, codes 5 to 7: after `INIT` an issuable operation is refused only for its own
precondition. -/
def Obligations.IssuableOperationsRefuseOnlyOnTheirPrecondition : Prop :=
  ∀ (s : State) (i : Instr) (r : Refusal),
    admissible s.cfg = true → Running s → i.wf = true → i.issuable = true →
      (exec i s = .refused r ↔
        (∃ b, i = .txpush b ∧ (s.queue .tx).length = s.cfg.txBuflen ∧ r = .txFifoFull) ∨
        (i = .rxpop ∧ s.queue .rx = [] ∧ r = .rxFifoEmpty) ∨
        (i = .dactick ∧ s.sending = false ∧ r = .dacIrqDisabled))

/-- Rule R341: before the first `INIT` every other operation is refused, and `INIT` does not depend on
what any register or store holds. That `FEMPTY`, `FFULL` and their locked variants are refused too,
against the words of R143 and R144, is the model's choice (log entry 7). -/
def Obligations.BeforeInitOnlyInitHasAStep : Prop :=
  (∀ (s : State) (i : Instr), s.initialised = false → i.wf = true → i ≠ .init →
    exec i s = .refused .notInitialised) ∧
  (∀ s u : State, s.initialised = false → u.initialised = false →
    u.cfg = s.cfg → u.pending = s.pending → u.events = s.events → u.replies = s.replies →
    exec .init u = exec .init s)

/-- Rules R64, R340: `INIT` has a step in every state and leaves every register and store at its reset
value; it emits `dac_irq_stop` exactly if it interrupts a transmission. -/
def Obligations.InitLeavesTheResetValues : Prop :=
  encode .init = 0x000000#24 ∧
  ∀ s : State, ∃ t, exec .init s = .next t ∧
    t.queue .delay = [0#8, 0#8, 0#8, 0#8] ∧ t.queue .rx = [] ∧ t.queue .tx = [] ∧
    (∀ f, (t.ring f).head = 0 ∧ (t.ring f).tail = 0) ∧
    t.iirX0 = 0#16 ∧ t.iirX1 = 0#16 ∧ t.iirY0 = 0#16 ∧ t.iirY1 = 0#16 ∧
    t.sampledBits = 0#8 ∧ t.foundBits = 0#8 ∧ t.currPhase = 0#8 ∧ t.demodBits = 0#16 ∧
    t.hdlcRxstart = false ∧ t.hdlcCurrchar = 0#8 ∧ t.hdlcBitIdx = 0#8 ∧
    t.currOut = 0#8 ∧ t.txBit = 0#8 ∧ t.sampleCount = 0#16 ∧ t.phaseAcc = 0#16 ∧ t.phaseInc = 0#16 ∧
    t.bitStuff = false ∧ t.stuffCnt = 0#8 ∧ t.preambleLen = 0#16 ∧ t.trailerLen = 0#16 ∧
    t.sending = false ∧ t.initialised = true ∧
    t.cfg = s.cfg ∧ t.pending = s.pending ∧ t.replies = s.replies ∧
    t.events = s.events ++ (if s.initialised = true ∧ s.sending = true then [.dacIrqStop] else [])

/-! ## The host port -/

/-- Rule R270: `TXSTART` primes the transmitter and starts the DAC interrupt only if it is not sending,
reloads `trailer_len` on every call, and a second one in a row changes nothing. -/
def Obligations.TxstartPrimesOnlyAnIdleTransmitter : Prop :=
  encode .txstart = 0x110000#24 ∧
  ∀ s : State, s.initialised = true →
    (s.sending = false → exec .txstart s = .next { s with
      phaseInc := toU16 (markInc s.cfg)
      phaseAcc := 0#16
      stuffCnt := 0#8
      preambleLen := toU16 (preambleFlags s.cfg)
      sending := true
      trailerLen := toU16 (trailerFlags s.cfg)
      events := s.events ++ [.dacIrqStart] }) ∧
    (s.sending = true → exec .txstart s = .next { s with trailerLen := toU16 (trailerFlags s.cfg) }) ∧
    (∀ t, exec .txstart s = .next t → exec .txstart t = .next t)

/-- Rule R271: `TXPUSH` appends one octet to `tx_fifo`, storing it at the write index, or is refused
when `tx_fifo` is full. -/
def Obligations.TxpushQueuesOneOctet : Prop :=
  ∀ (s : State) (b : Octet), s.initialised = true → s.txFifo.ok s.cfg.txBuflen = true →
    ((s.queue .tx).length < s.cfg.txBuflen → ∃ t, exec (.txpush b) s = .next t ∧
      t.queue .tx = s.queue .tx ++ [b] ∧ t.txFifo.ok s.cfg.txBuflen = true ∧
      t = { s with txFifo := t.txFifo } ∧ t.txFifo.buf.read s.txFifo.tail = b ∧
      ∀ a, a ≠ s.txFifo.tail → t.txFifo.buf.read a = s.txFifo.buf.read a) ∧
    ((s.queue .tx).length = s.cfg.txBuflen → exec (.txpush b) s = .refused .txFifoFull)

/-- Rules R77, R142, R272: `RXPOP` returns the oldest octet of `rx_fifo` and removes it, or is refused
when `rx_fifo` is empty; it stores nothing, and does not by itself reopen a dropped frame. -/
def Obligations.RxpopReturnsTheOldestOctet : Prop :=
  encode .rxpop = 0x120000#24 ∧
  ∀ s : State, s.initialised = true → s.rxFifo.ok s.cfg.rxBuflen = true →
    (∀ v l, s.queue .rx = v :: l → ∃ t, exec .rxpop s = .next t ∧
      t.queue .rx = l ∧ t.rxFifo.ok s.cfg.rxBuflen = true ∧ t.rxFifo.buf = s.rxFifo.buf ∧
      t = { s with rxFifo := t.rxFifo, replies := s.replies ++ [.octet v] }) ∧
    (s.queue .rx = [] → exec .rxpop s = .refused .rxFifoEmpty)

/-- Rules R273 to R276: the status reads return the condition and change nothing; `RELAX` does nothing. -/
def Obligations.StatusReadsOnlyReturnTheirBit : Prop :=
  ∀ s : State, s.initialised = true →
    exec .rxempty s = .next { s with replies := s.replies ++ [.bit (decide (s.queue .rx = []))] } ∧
    exec .txfull s = .next
      { s with replies := s.replies ++ [.bit (decide ((s.queue .tx).length = s.cfg.txBuflen))] } ∧
    exec .sending s = .next { s with replies := s.replies ++ [.bit s.sending] } ∧
    exec .relax s = .next s

/-- Rule R147 law 4, rules R273, R274: a host that saw `rx_fifo` not empty may pop and one that saw
`tx_fifo` not full may push, whatever a tick of another agent did in between. -/
def Obligations.HostAnswersStayValid : Prop :=
  ∀ (s t : State) (i : Instr), admissible s.cfg = true → Running s →
    ((∃ x, i = .adctick x) ∨ i = .dactick ∨ (∃ b, i = .hdlcrx b)) → exec i s = .next t →
      (s.queue .rx ≠ [] → ∃ u, exec .rxpop t = .next u) ∧
      ((s.queue .tx).length ≠ s.cfg.txBuflen → ∀ b, ∃ u, exec (.txpush b) t = .next u)

/-! ## The FIFOs -/

/-- Rules R141, R145, R146: `FPUSH` and `FPUSH.L` append to the queue the ring stands for, storing at
the write index, or are refused when it is full. -/
def Obligations.FpushAppendsToTheQueue : Prop :=
  ∀ (s : State) (f : BitVec 2) (g : Fifo) (v : Octet), fifoOf f = some g → s.initialised = true →
    (s.ring g).ok (Fifo.cap s.cfg g) = true →
    ((s.queue g).length < Fifo.cap s.cfg g → ∃ t, exec (.fpush f v) s = .next t ∧
      exec (.fpushL f v) s = .next t ∧ t.queue g = s.queue g ++ [v] ∧
      (t.ring g).ok (Fifo.cap s.cfg g) = true ∧ t = s.setRing g (t.ring g) ∧
      ∀ a, a ≠ (s.ring g).tail → (t.ring g).buf.read a = (s.ring g).buf.read a) ∧
    ((s.queue g).length = Fifo.cap s.cfg g →
      exec (.fpush f v) s = .refused .fifoFull ∧ exec (.fpushL f v) s = .refused .fifoFull)

/-- Rules R142, R145, R146: `FPOP` and `FPOP.L` return and remove the oldest element, or are refused
when the FIFO is empty; they store nothing. -/
def Obligations.FpopRemovesTheOldest : Prop :=
  ∀ (s : State) (f : BitVec 2) (g : Fifo), fifoOf f = some g → s.initialised = true →
    (s.ring g).ok (Fifo.cap s.cfg g) = true →
    (∀ v l, s.queue g = v :: l → ∃ t, exec (.fpop f) s = .next t ∧ exec (.fpopL f) s = .next t ∧
      t.queue g = l ∧ (t.ring g).ok (Fifo.cap s.cfg g) = true ∧ (t.ring g).buf = (s.ring g).buf ∧
      t.replies = s.replies ++ [.octet v] ∧
      t = { s.setRing g (t.ring g) with replies := t.replies }) ∧
    (s.queue g = [] → exec (.fpop f) s = .refused .fifoEmpty ∧ exec (.fpopL f) s = .refused .fifoEmpty)

/-- Rules R143 to R145: `FEMPTY`, `FFULL` and their locked variants return whether the queue is empty
or holds its capacity, and change nothing. -/
def Obligations.FifoStatusReadsTheQueue : Prop :=
  ∀ (s : State) (f : BitVec 2) (g : Fifo), fifoOf f = some g → s.initialised = true →
    let empty : State := { s with replies := s.replies ++ [.bit (decide (s.queue g = []))] }
    let full : State :=
      { s with replies := s.replies ++ [.bit (decide ((s.queue g).length = Fifo.cap s.cfg g))] }
    exec (.fempty f) s = .next empty ∧ exec (.femptyL f) s = .next empty ∧
    exec (.ffull f) s = .next full ∧ exec (.ffullL f) s = .next full

/-- Rule R102: FIFO id 3 is reserved. That the eight FIFO operations, standing alone, are refused as
`badOperand` on it in every state, ahead of the initialisation check, is the model's choice (log entries
7 and 9); their command words are refused as internal (rule R301). -/
def Obligations.ReservedFifoIdIsRefused : Prop :=
  ∀ (s : State) (v : Octet),
    exec (.fpush 3#2 v) s = .refused .badOperand ∧ exec (.fpushL 3#2 v) s = .refused .badOperand ∧
    exec (.fpop 3#2) s = .refused .badOperand ∧ exec (.fpopL 3#2) s = .refused .badOperand ∧
    exec (.fempty 3#2) s = .refused .badOperand ∧ exec (.femptyL 3#2) s = .refused .badOperand ∧
    exec (.ffull 3#2) s = .refused .badOperand ∧ exec (.ffullL 3#2) s = .refused .badOperand

/-- Rule R147 laws 1 and 2: what is pushed while there is room comes out in the order it went in, behind
what was there, none lost or repeated, and leaves the FIFO empty. -/
def Obligations.FifoDeliversInOrder : Prop :=
  ∀ (s : State) (f : BitVec 2) (g : Fifo) (l : List Octet), fifoOf f = some g → s.initialised = true →
    (s.ring g).ok (Fifo.cap s.cfg g) = true → (s.queue g).length + l.length ≤ Fifo.cap s.cfg g →
    let t := execAll (l.map fun v => .fpush f v) s
    let u := execAll (List.replicate ((s.queue g).length + l.length) (.fpop f)) t
    t.queue g = s.queue g ++ l ∧ u.queue g = [] ∧
    u.replies = s.replies ++ (s.queue g ++ l).map .octet

/-! ## The sine table and the phase accumulator -/

/-- Rules R160, R162: `SINSAMPLE` reads the quarter table forward, backward, and then both subtracted
from 255, and changes nothing; the corner values are those of any admissible table. -/
def Obligations.SinsampleReconstructsTheCycle : Prop :=
  ∀ s : State, s.initialised = true → tableOk s.cfg.sinTable = true →
    (∀ (idx : BitVec 9) (d : Octet),
      (idx.toNat < 128 → s.cfg.sinTable[idx.toNat]? = some d →
        exec (.sinsample idx) s = .next { s with replies := s.replies ++ [.octet d] }) ∧
      (128 ≤ idx.toNat → idx.toNat < 256 → s.cfg.sinTable[255 - idx.toNat]? = some d →
        exec (.sinsample idx) s = .next { s with replies := s.replies ++ [.octet d] }) ∧
      (256 ≤ idx.toNat → idx.toNat < 384 → s.cfg.sinTable[idx.toNat - 256]? = some d →
        exec (.sinsample idx) s =
          .next { s with replies := s.replies ++ [.octet (BitVec.ofNat 8 (255 - d.toNat))] }) ∧
      (384 ≤ idx.toNat → s.cfg.sinTable[511 - idx.toNat]? = some d →
        exec (.sinsample idx) s =
          .next { s with replies := s.replies ++ [.octet (BitVec.ofNat 8 (255 - d.toNat))] })) ∧
    exec (.sinsample 0#9) s = .next { s with replies := s.replies ++ [.octet 128#8] } ∧
    exec (.sinsample 128#9) s = .next { s with replies := s.replies ++ [.octet 255#8] } ∧
    exec (.sinsample 256#9) s = .next { s with replies := s.replies ++ [.octet 127#8] } ∧
    exec (.sinsample 384#9) s = .next { s with replies := s.replies ++ [.octet 0#8] } ∧
    exec (.sinsample 511#9) s = .next { s with replies := s.replies ++ [.octet 127#8] }

/-- Rule R162, properties: half a cycle apart the samples sum to 255, the first half is symmetric, and
the two halves lie above and below the centre. -/
def Obligations.SineHalvesMirrorEachOther : Prop :=
  ∀ (s : State) (idx : BitVec 9), s.initialised = true → tableOk s.cfg.sinTable = true →
    ∃ v w : Octet,
      exec (.sinsample idx) s = .next { s with replies := s.replies ++ [.octet v] } ∧
      exec (.sinsample (idx + 256#9)) s = .next { s with replies := s.replies ++ [.octet w] } ∧
      v.toNat + w.toNat = 255 ∧
      (idx.toNat ≤ 255 → 128 ≤ v.toNat ∧ exec (.sinsample (255#9 - idx)) s = exec (.sinsample idx) s) ∧
      (256 ≤ idx.toNat → v.toNat ≤ 127)

/-- Rule R164: `DDSSTEP` advances the accumulator modulo 512, then emits and returns the sample at the
new phase. -/
def Obligations.DdsstepAdvancesThenLooksUp : Prop :=
  ∀ s : State, s.initialised = true → tableOk s.cfg.sinTable = true →
    let acc := (s.phaseAcc.toNat + s.phaseInc.toNat) % 512
    ∃ v, exec (.sinsample (BitVec.ofNat 9 acc)) s = .next { s with replies := s.replies ++ [.octet v] } ∧
      exec .ddsstep s = .next { s with
        phaseAcc := BitVec.ofNat 16 acc
        events := s.events ++ [.dacWrite v]
        replies := s.replies ++ [.octet v] }

/-- Rules R12, R163 to R165: in an admissible build the two increments are distinct and at most 512 and
939, and `SWITCH_TONE` exchanges them. -/
def Obligations.SwitchToneExchangesTheIncrements : Prop :=
  ∀ c : Config, admissible c = true →
    markInc c ≤ 512 ∧ spaceInc c ≤ 939 ∧
    (markReg c).toNat = markInc c ∧ (spaceReg c).toNat = spaceInc c ∧ markReg c ≠ spaceReg c ∧
    switchTone c (markReg c) = spaceReg c ∧ switchTone c (spaceReg c) = markReg c

/-! ## The demodulator -/

/-- Rule R181: `DISCRIM` takes the oldest sample of the delay line, and a quarter of its exact product
with the operand, rounded down, becomes the newest filter input. That it is refused with the delay line
empty, as it never is in a running block, is the model's choice (log entry 7). -/
def Obligations.DiscrimEntersTheDelayedProduct : Prop :=
  ∀ (s : State) (x : Octet), s.initialised = true → s.delayFifo.ok 4 = true →
    (∀ d l, s.queue .delay = d :: l → ∃ t, exec (.discrim x) s = .next t ∧
      t.iirX1.toInt = (d.toInt * x.toInt) / 4 ∧ -4064 ≤ t.iirX1.toInt ∧ t.iirX1.toInt ≤ 4096 ∧
      t.iirX0 = s.iirX1 ∧ t.queue .delay = l ∧ t.delayFifo.ok 4 = true ∧
      t.delayFifo.buf = s.delayFifo.buf ∧
      t = { s with delayFifo := t.delayFifo, iirX0 := t.iirX0, iirX1 := t.iirX1 }) ∧
    (s.queue .delay = [] → exec (.discrim x) s = .refused .fifoEmpty)

/-- Rules R182, R183, R188: with the filter registers within their bounds, as they are also inside a tick,
each filter step computes its recurrence exactly, with no wrap, and in a build with its `FILTER` stays in
its envelope; the output an `ADCTICK` leaves is that of the step its build runs. That each step also runs,
standing alone, in a build with the other `FILTER` is the model's choice (log entry 7). -/
def Obligations.FilterStepsAreExactAndBounded : Prop :=
  ∀ s : State, s.initialised = true →
    -4064 ≤ s.iirX0.toInt → s.iirX0.toInt ≤ 4096 → -4064 ≤ s.iirX1.toInt → s.iirX1.toInt ≤ 4096 →
    filterRange s.cfg.filter s.iirY1.toInt →
    let y := s.iirY1.toInt
    (∃ t, exec .iirB s = .next t ∧
      t.iirY1.toInt = s.iirX0.toInt + s.iirX1.toInt + y / 2 + y / 8 + y / 32 ∧ t.iirY0 = s.iirY1 ∧
      (s.cfg.filter = .butterworth → -23646 ≤ t.iirY1.toInt ∧ t.iirY1.toInt ≤ 23827) ∧
      t = { s with iirY0 := t.iirY0, iirY1 := t.iirY1 }) ∧
    (∃ t, exec .iirC s = .next t ∧
      t.iirY1.toInt = s.iirX0.toInt + s.iirX1.toInt + y / 2 ∧ t.iirY0 = s.iirY1 ∧
      (s.cfg.filter = .chebyshev → -16256 ≤ t.iirY1.toInt ∧ t.iirY1.toInt ≤ 16383) ∧
      t = { s with iirY0 := t.iirY0, iirY1 := t.iirY1 }) ∧
    (Running s → ∀ x t, exec (.adctick x) s = .next t → t.iirX0 = s.iirX1 ∧ t.iirY0 = s.iirY1 ∧
      (s.cfg.filter = .butterworth →
        t.iirY1.toInt = t.iirX0.toInt + t.iirX1.toInt + y / 2 + y / 8 + y / 32) ∧
      (s.cfg.filter = .chebyshev → t.iirY1.toInt = t.iirX0.toInt + t.iirX1.toInt + y / 2))

/-- Rules R182, R183, corner cases: the fixed points of the filters with zero input. -/
def Obligations.ZeroInputFixedPointsOfTheFilters : Prop :=
  ∀ y : Int, (butterworth 0 0 y = y ↔ y = 0 ∨ y = -4 ∨ y = -5) ∧
    (chebyshev 0 0 y = y ↔ y = 0 ∨ y = -1)

/-- Rule R184: `SLICE` shifts in 1 exactly if the newest filter output is above 0. -/
def Obligations.SliceShiftsInTheSign : Prop :=
  encode .slice = 0x230000#24 ∧ Instr.issuable .slice = false ∧
  ∀ s : State, s.initialised = true → ∃ t, exec .slice s = .next t ∧
    t.sampledBits.getLsbD 0 = decide (0 < s.iirY1.toInt) ∧
    (∀ k, k < 7 → t.sampledBits.getLsbD (k + 1) = s.sampledBits.getLsbD k) ∧
    t = { s with sampledBits := t.sampledBits }

/-- Rule R185: `DLYPUSH` stores the raw sample at the end of the delay line. That it is refused with the
delay line full, as it is outside a tick, is the model's choice (log entry 7). -/
def Obligations.DlypushStoresTheRawSample : Prop :=
  ∀ (s : State) (x : Octet), s.initialised = true → s.delayFifo.ok 4 = true →
    ((s.queue .delay).length < 4 → ∃ t, exec (.dlypush x) s = .next t ∧
      t.queue .delay = s.queue .delay ++ [x] ∧ t.delayFifo.ok 4 = true ∧
      t = { s with delayFifo := t.delayFifo } ∧
      ∀ a, a ≠ s.delayFifo.tail → t.delayFifo.buf.read a = s.delayFifo.buf.read a) ∧
    ((s.queue .delay).length = 4 → exec (.dlypush x) s = .refused .fifoFull)

/-- Rule R186: `CLKREC` adds 8 to the phase, and on an edge one more below 32 and one less from 32 on. -/
def Obligations.ClkrecNudgesTowardTheThreshold : Prop :=
  encode .clkrec = 0x250000#24 ∧ Instr.issuable .clkrec = false ∧
  ∀ s : State, s.initialised = true → s.currPhase.toNat ≤ 63 →
    ∃ t, exec .clkrec s = .next t ∧ t = { s with currPhase := t.currPhase } ∧
      8 ≤ t.currPhase.toNat ∧ t.currPhase.toNat ≤ 71 ∧
      (s.sampledBits.getLsbD 0 = s.sampledBits.getLsbD 1 →
        t.currPhase.toNat = s.currPhase.toNat + 8) ∧
      (s.sampledBits.getLsbD 0 ≠ s.sampledBits.getLsbD 1 → s.currPhase.toNat < 32 →
        t.currPhase.toNat = s.currPhase.toNat + 9) ∧
      (s.sampledBits.getLsbD 0 ≠ s.sampledBits.getLsbD 1 → 32 ≤ s.currPhase.toNat →
        t.currPhase.toNat = s.currPhase.toNat + 7)

/-- Rule R187: from phase 64 on `BITDEC` takes 64 off and shifts in the majority of the last three
slices; below it writes nothing; it returns whether a bit was decided. -/
def Obligations.BitdecShiftsInTheMajority : Prop :=
  encode .bitdec = 0x260000#24 ∧ Instr.issuable .bitdec = false ∧
  ∀ s : State, s.initialised = true →
    (s.currPhase.toInt < 64 → exec .bitdec s = .next { s with replies := s.replies ++ [.bit false] }) ∧
    (64 ≤ s.currPhase.toInt → ∃ t, exec .bitdec s = .next t ∧
      t.currPhase.toInt = s.currPhase.toInt - 64 ∧
      (t.foundBits.getLsbD 0 = true ↔
        2 ≤ (s.sampledBits.getLsbD 0).toNat + (s.sampledBits.getLsbD 1).toNat +
          (s.sampledBits.getLsbD 2).toNat) ∧
      (∀ k, k < 7 → t.foundBits.getLsbD (k + 1) = s.foundBits.getLsbD k) ∧
      t = { s with
        currPhase := t.currPhase
        foundBits := t.foundBits
        replies := s.replies ++ [.bit true] })

/-- Rule R189: `NRZIDEC` writes nothing and returns 1 exactly if the last two decided bits are equal. -/
def Obligations.NrzidecComparesTheLastTwoBits : Prop :=
  encode .nrzidec = 0x270000#24 ∧ Instr.issuable .nrzidec = false ∧
  ∀ s : State, s.initialised = true →
    exec .nrzidec s = .next { s with
      replies := s.replies ++ [.bit (decide (s.foundBits.getLsbD 0 = s.foundBits.getLsbD 1))] }

/-- Rules R180, R190: in a running block `ADCTICK` has a step for every sample, and it is its stages in
order, the parser stepped only when a bit was decided. -/
def Obligations.AdctickIsItsStagesInOrder : Prop :=
  ∀ (s : State) (x : Octet), Running s → ∃ a b c d e t,
    exec (.discrim x) s = .next a ∧
    (s.cfg.filter = .butterworth → exec .iirB a = .next b) ∧
    (s.cfg.filter = .chebyshev → exec .iirC a = .next b) ∧
    exec .slice b = .next c ∧ exec (.dlypush x) c = .next d ∧ exec .clkrec d = .next e ∧
    exec (.adctick x) s = .next t ∧
    (e.currPhase.toInt < 64 → t = e) ∧
    (64 ≤ e.currPhase.toInt → ∃ f bit,
      exec .bitdec e = .next { f with replies := e.replies ++ [.bit true] } ∧ f.replies = e.replies ∧
      exec .nrzidec f = .next { f with replies := f.replies ++ [.bit bit] } ∧
      exec (.hdlcrx bit) f = .next t)

/-- Rules R21, R147 law 5, R190: a tick drops the oldest sample of the delay line and adds the newest,
storing only at the write index, so after four ticks it holds exactly their samples, oldest first. -/
def Obligations.DelayLineHoldsTheLastFourSamples : Prop :=
  ∀ (s : State) (x : Octet), Running s →
    (∀ t, exec (.adctick x) s = .next t →
      t.queue .delay = (s.queue .delay).tail ++ [x] ∧
      ∀ a, a ≠ s.delayFifo.tail → t.delayFifo.buf.read a = s.delayFifo.buf.read a) ∧
    (∀ x1 x2 x3 : Octet,
      (execAll [.adctick x1, .adctick x2, .adctick x3, .adctick x] s).queue .delay = [x1, x2, x3, x])

/-- Rule R187, corner cases: a tick advances the phase by 7, 8 or 9 of the 64 units of a line bit. -/
def Obligations.AdctickAdvancesThePhaseBySevenToNine : Prop :=
  ∀ (s t : State) (x : Octet), Running s → exec (.adctick x) s = .next t →
    ∃ n, 7 ≤ n ∧ n ≤ 9 ∧ t.currPhase.toNat = (s.currPhase.toNat + n) % 64 ∧
      (t.foundBits = s.foundBits ∨ 64 ≤ s.currPhase.toNat + n)

/-! ## The receive parser -/

/-- Rules R210 to R213, R215: `HDLCRX` shifts the bit in and takes the first case that matches: a flag
is stored and opens a frame, or closes it if there is no room; an abort ends the frame; a stuffed bit,
and any bit outside a frame, changes nothing more. -/
def Obligations.HdlcrxClassifiesTheLineBits : Prop :=
  ∀ (s : State) (bit : Bool), s.initialised = true → s.rxFifo.ok s.cfg.rxBuflen = true →
    let d := (2 * s.demodBits.toNat + bit.toNat) % 65536
    let ones := 2 ^ s.cfg.abortOnes - 1
    (d % 256 = 0x7E → (s.queue .rx).length < s.cfg.rxBuflen → ∃ t, exec (.hdlcrx bit) s = .next t ∧
      t.queue .rx = s.queue .rx ++ [0x7E#8] ∧ t = { s with
        demodBits := BitVec.ofNat 16 d
        rxFifo := t.rxFifo
        hdlcRxstart := true
        hdlcCurrchar := 0#8
        hdlcBitIdx := 0#8 }) ∧
    (d % 256 = 0x7E → (s.queue .rx).length = s.cfg.rxBuflen → exec (.hdlcrx bit) s = .next { s with
        demodBits := BitVec.ofNat 16 d
        hdlcRxstart := false
        hdlcCurrchar := 0#8
        hdlcBitIdx := 0#8 }) ∧
    (d % 256 ≠ 0x7E → d % 2 ^ s.cfg.abortOnes = ones → exec (.hdlcrx bit) s = .next { s with
        demodBits := BitVec.ofNat 16 d
        hdlcRxstart := false }) ∧
    (d % 256 ≠ 0x7E → d % 2 ^ s.cfg.abortOnes ≠ ones → (d % 64 = 0x3E ∨ s.hdlcRxstart = false) →
      exec (.hdlcrx bit) s = .next { s with demodBits := BitVec.ofNat 16 d })

/-- Rules R73, R214, R215: in a frame a data bit enters the accumulator at bit 7; the eighth completes
an octet, stored with an escape before it if it is reserved; what does not fit drops the frame, and an
octet whose escape did not fit is not attempted. -/
def Obligations.HdlcrxAssemblesAndEscapesOctets : Prop :=
  ∀ (s : State) (bit : Bool) (c : Octet), s.initialised = true → s.rxFifo.ok s.cfg.rxBuflen = true →
    s.hdlcRxstart = true → s.hdlcBitIdx.toNat ≤ 7 →
    let d := (2 * s.demodBits.toNat + bit.toNat) % 65536
    d % 256 ≠ 0x7E → d % 2 ^ s.cfg.abortOnes ≠ 2 ^ s.cfg.abortOnes - 1 → d % 64 ≠ 0x3E →
    c.getLsbD 7 = bit → (∀ k, k < 7 → c.getLsbD k = s.hdlcCurrchar.getLsbD (k + 1)) →
    let free := s.cfg.rxBuflen - (s.queue .rx).length
    let reserved := c = 0x7E#8 ∨ c = 0x7F#8 ∨ c = 0x1B#8
    (s.hdlcBitIdx.toNat < 7 → exec (.hdlcrx bit) s = .next { s with
      demodBits := BitVec.ofNat 16 d
      hdlcCurrchar := c
      hdlcBitIdx := s.hdlcBitIdx + 1#8 }) ∧
    (s.hdlcBitIdx.toNat = 7 → ∃ t, exec (.hdlcrx bit) s = .next t ∧
      t = { s with
        demodBits := BitVec.ofNat 16 d
        hdlcCurrchar := 0#8
        hdlcBitIdx := 0#8
        rxFifo := t.rxFifo
        hdlcRxstart := t.hdlcRxstart } ∧
      (¬ reserved → 1 ≤ free → t.queue .rx = s.queue .rx ++ [c] ∧ t.hdlcRxstart = true) ∧
      (reserved → 2 ≤ free → t.queue .rx = s.queue .rx ++ [0x1B#8, c] ∧ t.hdlcRxstart = true) ∧
      (reserved → free = 1 → t.queue .rx = s.queue .rx ++ [0x1B#8] ∧ t.hdlcRxstart = false) ∧
      (free = 0 → t.queue .rx = s.queue .rx ∧ t.hdlcRxstart = false))

/-- Rules R216, R217: what one `ADCTICK` or `HDLCRX` adds to the read stream: nothing, a flag, an
ordinary octet, an escape pair, or, with `rx_fifo` now full and the frame dropped, an introducer alone.
It is stored from the write index on and nothing else in the store changes. -/
def Obligations.ReceiverKeepsTheReadStreamContract : Prop :=
  ∀ (s t : State) (i : Instr), Running s → ((∃ x, i = .adctick x) ∨ (∃ b, i = .hdlcrx b)) →
    exec i s = .next t → ∃ l : List Octet,
      t.queue .rx = s.queue .rx ++ l ∧
      (l = [] ∨ l = [0x7E#8] ∨ (∃ c, l = [c] ∧ isReserved c = false) ∨
        (∃ c, l = [0x1B#8, c] ∧ isReserved c = true) ∨
        (l = [0x1B#8] ∧ (t.queue .rx).length = t.cfg.rxBuflen ∧ t.hdlcRxstart = false)) ∧
      ∀ a, (∀ k, k < l.length → a ≠ (s.rxFifo.tail + k) % s.cfg.rxBuflen) →
        t.rxFifo.buf.read a = s.rxFifo.buf.read a

/-- Rule R219: a flag, the stuffed image of payload octets, and a flag, with room in `rx_fifo`, put the
flag, the escaped octets and the flag on the read stream, whatever the parser held before; with either
reading of a run of ones that ends the payload. -/
def Obligations.FramesAreReceivedTransparently : Prop :=
  ∀ (s : State) (ps : List Octet) (atEnd : Bool), admissible s.cfg = true → Running s →
    (s.queue .rx).length + (escapeAll ps).length + 10 ≤ s.cfg.rxBuflen →
    let opened := execAll (flagBits.map .hdlcrx) s
    let closed := execAll ((stuffed atEnd ps ++ flagBits).map .hdlcrx) opened
    (∃ before, opened.queue .rx = before ++ [0x7E#8]) ∧
    closed.queue .rx = opened.queue .rx ++ escapeAll ps ++ [0x7E#8] ∧ closed.hdlcRxstart = true

/-- Rules R112, R113: the escaped image of payload octets parses back to exactly them. -/
def Obligations.EscapedPayloadParsesBack : Prop :=
  ∀ ps : List Octet, parseStream (escapeAll ps) = ps.map .payload ∧
    parseStream (hdlcFlag :: escapeAll ps ++ [hdlcFlag]) = .flag :: ps.map .payload ++ [.flag]

/-! ## The modulator -/

/-- Rules R230, R236: in a running block `DACTICK` has a step exactly while sending; it emits one event:
the sample at the new phase while it goes on, `dac_irq_stop` and no sample on the stopping tick, which
leaves the transmitter at an octet boundary. -/
def Obligations.DactickEmitsOneEventWhileSending : Prop :=
  ∀ s : State, admissible s.cfg = true → Running s →
    (s.sending = false → exec .dactick s = .refused .dacIrqDisabled) ∧
    (s.sending = true → ∃ t, exec .dactick s = .next t ∧
      ((t.sending = true ∧ t.phaseAcc.toNat = (s.phaseAcc.toNat + t.phaseInc.toNat) % 512 ∧
          ∃ v, t.events = s.events ++ [.dacWrite v] ∧
            exec (.sinsample (BitVec.ofNat 9 t.phaseAcc.toNat)) s =
              .next { s with replies := s.replies ++ [.octet v] }) ∨
        (t.sending = false ∧ t.events = s.events ++ [.dacIrqStop] ∧ s.sampleCount = 0#16 ∧
          s.txBit = 0#8 ∧ t.sampleCount = 0#16 ∧ t.txBit = 0#8 ∧ t.phaseAcc = s.phaseAcc ∧
          t.phaseInc = s.phaseInc ∧ exec .dactick t = .refused .dacIrqDisabled)))

/-- Rule R230: `DACTICK` is its stages: inside a line bit one sample; at its start the mask chooses
whether an octet is fetched, then the bit, then the sample. Replies of the stages are dropped. -/
def Obligations.DactickIsItsStagesInOrder : Prop :=
  ∀ s : State, admissible s.cfg = true → Running s → s.sending = true →
    let sampled (u t : State) : Prop := ∃ v w, exec .ddsstep u = .next w ∧
      w.replies = u.replies ++ [.octet v] ∧
      t = { w with sampleCount := w.sampleCount - 1#16, replies := u.replies }
    ∃ t, exec .dactick s = .next t ∧
      (s.sampleCount ≠ 0#16 → sampled s t) ∧
      (s.sampleCount = 0#16 → s.txBit ≠ 0#8 → ∃ u, exec .txbit s = .next u ∧ sampled u t) ∧
      (s.sampleCount = 0#16 → s.txBit = 0#8 → ∃ w, exec .txfetch s = .next w ∧
        (w.replies = s.replies ++ [.fetchStop] → t = { w with replies := s.replies }) ∧
        (w.replies ≠ s.replies ++ [.fetchStop] → w.replies = s.replies ++ [.fetchContinue] ∧
          ∃ u, exec .txbit { w with replies := s.replies } = .next u ∧ sampled u t))

/-- Rule R231: `TXFETCH` stops at once if nothing is queued and no trailer is due. -/
def Obligations.TxfetchStopsWhenNothingIsLeft : Prop :=
  ∀ s : State, s.initialised = true → s.queue .tx = [] → s.trailerLen = 0#16 →
    exec .txfetch s = .next { s with
      sending := false
      events := s.events ++ [.dacIrqStop]
      replies := s.replies ++ [.fetchStop] }

/-- Rule R231: otherwise a preamble flag comes first, then a queued octet, then a trailer flag; flags go
out with stuffing off, and the run of ones restarts only if stuffing was off. -/
def Obligations.TxfetchSendsFlagsAroundTheData : Prop :=
  ∀ s : State, s.initialised = true → ¬ (s.queue .tx = [] ∧ s.trailerLen = 0#16) →
    let cnt := if s.bitStuff = true then s.stuffCnt else 0#8
    let flag : State := { s with
      stuffCnt := cnt
      bitStuff := false
      currOut := 0x7E#8
      txBit := 0x01#8
      replies := s.replies ++ [.fetchContinue] }
    (s.preambleLen ≠ 0#16 →
      exec .txfetch s = .next { flag with preambleLen := BitVec.ofNat 16 (s.preambleLen.toNat - 1) }) ∧
    (s.preambleLen = 0#16 → s.queue .tx = [] →
      exec .txfetch s = .next { flag with trailerLen := BitVec.ofNat 16 (s.trailerLen.toNat - 1) })

/-- Rules R114, R115, R231: a queued octet is sent as it is, with stuffing off if it is an unescaped
flag or abort octet; an introducer is dropped and the octet behind it is sent with stuffing on whatever
its value; with none behind it the transmission stops, trailer unsent. -/
def Obligations.TxfetchResolvesQueuedOctets : Prop :=
  ∀ (s : State) (c : Octet) (l : List Octet), s.initialised = true → s.txFifo.ok s.cfg.txBuflen = true →
    s.preambleLen = 0#16 → s.queue .tx = c :: l →
    let cnt := if s.bitStuff = true then s.stuffCnt else 0#8
    ∃ t, exec .txfetch s = .next t ∧ t.txFifo.ok s.cfg.txBuflen = true ∧
      t.txFifo.buf = s.txFifo.buf ∧
      (c ≠ 0x1B#8 → t.queue .tx = l ∧ t = { s with
        txFifo := t.txFifo
        stuffCnt := cnt
        bitStuff := decide (c ≠ 0x7E#8 ∧ c ≠ 0x7F#8)
        currOut := c
        txBit := 0x01#8
        replies := s.replies ++ [.fetchContinue] }) ∧
      (∀ v m, c = 0x1B#8 → l = v :: m → t.queue .tx = m ∧ t = { s with
        txFifo := t.txFifo
        stuffCnt := cnt
        bitStuff := true
        currOut := v
        txBit := 0x01#8
        replies := s.replies ++ [.fetchContinue] }) ∧
      (c = 0x1B#8 → l = [] → t.queue .tx = [] ∧ t = { s with
        txFifo := t.txFifo
        stuffCnt := cnt
        bitStuff := true
        currOut := 0x1B#8
        sending := false
        events := s.events ++ [.dacIrqStop]
        replies := s.replies ++ [.fetchStop] })

/-- Rules R110, R232, R234: `TXBIT` inserts a 0 that consumes no bit when stuffing is on and five ones
have gone out; else it sends the bit under the mask and moves the mask. A 1 keeps the tone and is
counted; a 0 switches it and clears the count. The bit lasts `DAC_SAMPLES_PER_BIT` samples. -/
def Obligations.TxbitSendsTheBitOrAStuffedZero : Prop :=
  ∀ s : State, s.initialised = true →
    let n := BitVec.ofNat 16 (dacSamplesPerBit s.cfg)
    let due := s.bitStuff = true ∧ 5 ≤ s.stuffCnt.toNat
    (due → exec .txbit s = .next { s with
      stuffCnt := 0#8
      phaseInc := switchTone s.cfg s.phaseInc
      sampleCount := n }) ∧
    (∀ k, k < 8 → s.txBit = maskBit k → ¬ due → s.currOut.getLsbD k = true →
      exec .txbit s = .next { s with
        stuffCnt := s.stuffCnt + 1#8
        txBit := if k = 7 then 0#8 else maskBit (k + 1)
        sampleCount := n }) ∧
    (∀ k, k < 8 → s.txBit = maskBit k → ¬ due → s.currOut.getLsbD k = false →
      exec .txbit s = .next { s with
        stuffCnt := 0#8
        phaseInc := switchTone s.cfg s.phaseInc
        txBit := if k = 7 then 0#8 else maskBit (k + 1)
        sampleCount := n }) ∧
    (s.txBit = 0#8 → ¬ due → exec .txbit s = .next { s with
        stuffCnt := 0#8
        phaseInc := switchTone s.cfg s.phaseInc
        sampleCount := n })

/-- Rule R234: with stuffing on, no bit time that starts after five ones sends a sixth: the line bit is
a 0 that consumes no bit of `curr_out`, and with stuffing on the count stays at most 5. -/
def Obligations.NoSixthOneWhileStuffing : Prop :=
  ∀ s t : State, Running s → s.bitStuff = true → exec .txbit s = .next t →
    t.stuffCnt.toNat ≤ 5 ∧
    (s.stuffCnt.toNat = 5 → lineBit s = false ∧ t.txBit = s.txBit ∧ t.currOut = s.currOut ∧
      t.phaseInc = switchTone s.cfg s.phaseInc ∧ t.stuffCnt = 0#8) ∧
    (t.stuffCnt = s.stuffCnt + 1#8 ↔ lineBit s = true)

/-- Rules R111, R230: a line bit lasts exactly `DAC_SAMPLES_PER_BIT` DAC ticks: the tone is settled by
`TXBIT` on the first, each tick emits one sample, and the phase advances by as many increments. At an
octet boundary the first tick also fetches the octet, unless the fetch stops the transmission. -/
def Obligations.LineBitLastsItsSamples : Prop :=
  ∀ s : State, admissible s.cfg = true → Running s → s.sending = true → s.sampleCount = 0#16 →
    let n := dacSamplesPerBit s.cfg
    let carries (b : State) : Prop := ∃ (u : State) (vs : List Octet),
      exec .txbit b = .next u ∧ vs.length = n ∧
      execAll (List.replicate n .dactick) s = { u with
        sampleCount := 0#16
        phaseAcc := BitVec.ofNat 16 ((s.phaseAcc.toNat + n * u.phaseInc.toNat) % 512)
        events := s.events ++ vs.map .dacWrite }
    (s.txBit ≠ 0#8 → carries s) ∧
    (∀ w, s.txBit = 0#8 → exec .txfetch s = .next w → w.replies = s.replies ++ [.fetchContinue] →
      carries { w with replies := s.replies })

/-! ## The agents -/

/-- Rule R63: an agent's operations change only what the agent owns. The ADC agent's leave the
transmitter alone and the DAC agent's the receiver; the host's change the FIFOs at its ends and, by
`TXSTART`, the transmitter's start values. -/
def Obligations.AgentsWriteOnlyWhatTheyOwn : Prop :=
  ∀ (s t : State) (i : Instr), exec i s = .next t →
    (i.presenter = .adc ∨ i.presenter = .adcOrHost → t = { s with
      delayFifo := t.delayFifo
      rxFifo := t.rxFifo
      iirX0 := t.iirX0
      iirX1 := t.iirX1
      iirY0 := t.iirY0
      iirY1 := t.iirY1
      sampledBits := t.sampledBits
      foundBits := t.foundBits
      currPhase := t.currPhase
      demodBits := t.demodBits
      hdlcRxstart := t.hdlcRxstart
      hdlcCurrchar := t.hdlcCurrchar
      hdlcBitIdx := t.hdlcBitIdx
      replies := t.replies }) ∧
    (i.presenter = .dac ∨ i.presenter = .dacOrHost → t = { s with
      txFifo := t.txFifo
      currOut := t.currOut
      txBit := t.txBit
      sampleCount := t.sampleCount
      phaseAcc := t.phaseAcc
      phaseInc := t.phaseInc
      bitStuff := t.bitStuff
      stuffCnt := t.stuffCnt
      preambleLen := t.preambleLen
      trailerLen := t.trailerLen
      sending := t.sending
      events := t.events
      replies := t.replies } ∧ (s.sending = false → t.sending = false)) ∧
    (i.presenter = .host → i ≠ .init → i.issuable = true → t = { s with
      rxFifo := t.rxFifo
      txFifo := t.txFifo
      phaseInc := t.phaseInc
      phaseAcc := t.phaseAcc
      stuffCnt := t.stuffCnt
      preambleLen := t.preambleLen
      trailerLen := t.trailerLen
      sending := t.sending
      events := t.events
      replies := t.replies } ∧
      (s.sending = true → t.phaseInc = s.phaseInc ∧ t.phaseAcc = s.phaseAcc ∧ t.stuffCnt = s.stuffCnt ∧
        t.preambleLen = s.preambleLen ∧ t.sending = true) ∧
      (i ≠ .txstart → t.trailerLen = s.trailerLen))

/-- Rules R63, R81 (d), R312: an ADC tick and a DAC tick give the same state in either order. -/
def Obligations.AdcAndDacTicksCommute : Prop :=
  ∀ (s a b : State) (x : Octet), admissible s.cfg = true → Running s →
    exec (.adctick x) s = .next a → exec .dactick s = .next b →
    ∃ t, exec .dactick a = .next t ∧ exec (.adctick x) b = .next t

/-- Rules R81, R311: two interleavings of the same ADC ticks, in their order, with the same number of
DAC ticks lead a running block to the same state. That a run goes on unchanged after a refused DAC tick
is the model's choice (log entry 6). -/
def Obligations.InterleavingOfTicksDoesNotMatter : Prop :=
  ∀ (s : State) (p q : List Instr), admissible s.cfg = true → Running s →
    (∀ i, i ∈ p ++ q → i = .dactick ∨ ∃ x, i = .adctick x) →
    p.filter (fun i => decide (i ≠ .dactick)) = q.filter (fun i => decide (i ≠ .dactick)) →
    p.count .dactick = q.count .dactick →
    execAll p s = execAll q s

/-! ## Façade and build time -/

/-- Rule R281: `FLUSH` returns success after one read of `sending` once the transmitter has stopped, and
changes nothing, however often it is called; while it sends, `FLUSH` relaxes and reads again. -/
def Obligations.FlushWaitsForTheTransmitter : Prop :=
  ∀ (s : State) (expired : Bool), s.initialised = true →
    let asked : State := { s with replies := s.replies ++ [.bit s.sending] }
    (s.sending = false → callStep expired .flushPoll s = .next (.done .flushed, asked)) ∧
    (s.sending = true → callSteps expired 2 .flushPoll s = .next (.flushPoll, asked))

/-- Rule R282: `READ` of `n` octets that are all there delivers the oldest `n`, in order; of more than
are there it delivers them all, keeps them while it waits for the rest, and returns them if it is
non-blocking or its timed wait has expired. Whatever it has delivered, on an empty FIFO the non-blocking
mode and an expired timed wait return it, and the infinite mode and an unexpired one wait. -/
def Obligations.ReadDeliversWhatIsQueued : Prop :=
  ∀ (s : State) (expired : Bool) (n : Nat), s.initialised = true → s.rxFifo.ok s.cfg.rxBuflen = true →
    let k := (s.queue .rx).length
    (n ≤ k → ∃ t,
      callSteps expired (2 * n) (readFrom n []) s = .next (.done (.delivered ((s.queue .rx).take n)), t) ∧
      t.queue .rx = (s.queue .rx).drop n ∧ t = { s with rxFifo := t.rxFifo, replies := t.replies }) ∧
    (k < n → ∃ t,
      callSteps expired (2 * k) (readFrom n []) s = .next (readFrom (n - k) (s.queue .rx), t) ∧
      t.queue .rx = [] ∧ t = { s with rxFifo := t.rxFifo, replies := t.replies } ∧
      (s.cfg.rxTimeoutMs = 0 ∨ (0 < s.cfg.rxTimeoutMs ∧ expired = true) →
        callSteps expired (2 * k + 1) (readFrom n []) s =
          .next (.done (.delivered (s.queue .rx)), { t with replies := t.replies ++ [.bit true] }))) ∧
    (s.queue .rx = [] → ∀ got : List Octet,
      let asked : State := { s with replies := s.replies ++ [.bit true] }
      (s.cfg.rxTimeoutMs = 0 →
        callStep expired (readFrom (n + 1) got) s = .next (.done (.delivered got), asked)) ∧
      (0 < s.cfg.rxTimeoutMs →
        callStep true (readFrom (n + 1) got) s = .next (.done (.delivered got), asked) ∧
        callSteps false 2 (readFrom (n + 1) got) s = .next (readFrom (n + 1) got, asked)) ∧
      (s.cfg.rxTimeoutMs < 0 →
        callSteps expired 2 (readFrom (n + 1) got) s = .next (readFrom (n + 1) got, asked)))

/-- Rule R280: `WRITE` of octets that fit queues them all in order, each followed by a `TXSTART`, and
returns; of more than fit it queues those that do and goes on with the rest, waiting; of none it issues
nothing. However many it has queued before, on a full `tx_fifo` it goes round its waiting loop. `n` is
the length asked for, `buf` what is still to be written. -/
def Obligations.WriteQueuesItsOctetsAndStarts : Prop :=
  ∀ (s : State) (expired : Bool) (buf : List Octet) (n : Nat), s.initialised = true →
    s.txFifo.ok s.cfg.txBuflen = true →
    let room := s.cfg.txBuflen - (s.queue .tx).length
    let queued (l : List Octet) (t : State) : Prop :=
      t.queue .tx = s.queue .tx ++ l ∧ t.txFifo.ok s.cfg.txBuflen = true ∧
      t.replies = s.replies ++ List.replicate l.length (.bit false) ∧
      (l = [] → t = s) ∧
      (l ≠ [] → t.sending = true ∧ t.trailerLen = toU16 (trailerFlags s.cfg) ∧
        ∃ u, exec .txstart s = .next u ∧ t = { u with txFifo := t.txFifo, replies := t.replies })
    (buf = [] → writeFrom buf n = .done (.wrote n)) ∧
    (buf.length ≤ room → ∃ t,
      callSteps expired (3 * buf.length) (writeFrom buf n) s = .next (.done (.wrote n), t) ∧
      queued buf t) ∧
    (room < buf.length → ∃ t,
      callSteps expired (3 * room) (writeFrom buf n) s = .next (writeFrom (buf.drop room) n, t) ∧
      queued (buf.take room) t ∧ (t.queue .tx).length = s.cfg.txBuflen ∧
      callSteps expired (3 * room + 2) (writeFrom buf n) s =
        .next (writeFrom (buf.drop room) n, { t with replies := t.replies ++ [.bit true] })) ∧
    (buf ≠ [] → (s.queue .tx).length = s.cfg.txBuflen →
      callSteps expired 2 (writeFrom buf n) s =
        .next (writeFrom buf n, { s with replies := s.replies ++ [.bit true] }))

/-- Rule R16: `DIV_ROUND` is the nearest integer, an exact half rounded up. -/
def Obligations.DivRoundIsNearestHalfUp : Prop :=
  ∀ a b : Nat, 0 < b →
    2 * b * divRound a b ≤ 2 * a + b ∧ 2 * a + b < 2 * b * (divRound a b + 1)

/-- Rule R283: `MODEMINIT` issues `INIT` and returns, in every state: the delay line then holds four zeros
and the transmitter is idle, and no DAC interrupt has been started. -/
def Obligations.ModeminitPerformsInit : Prop :=
  ∀ (s : State) (expired : Bool), ∃ t,
    callStep expired .modemInit s = .next (.done .created, t) ∧ exec .init s = .next t ∧
    t.queue .delay = [0#8, 0#8, 0#8, 0#8] ∧ t.queue .rx = [] ∧ t.queue .tx = [] ∧
    t.initialised = true ∧ t.sending = false ∧
    (t.events = s.events ∨ t.events = s.events ++ [.dacIrqStop])
end

