-- ==== Sys2Proof/Laws/Build.lean ====
section
/-! SUPPORT. What an admissible configuration satisfies (rules R10, R12, R13, R303). -/

namespace Sys2Proof.Machine

/-- Admissibility, as a conjunction. -/
theorem admissible_iff {c : Config} : admissible c = true ↔
    1 ≤ c.rxBuflen ∧ 1 ≤ c.txBuflen ∧ 0 < c.dacSamplerate ∧ c.dacSamplerate % 1200 = 0 ∧
    -1 ≤ c.rxTimeoutMs ∧ markInc c ≠ spaceInc c ∧ dacSamplesPerBit c ≤ 65535 ∧
    preambleFlags c ≤ 65535 ∧ trailerFlags c ≤ 65535 ∧ tableOk c.sinTable = true ∧
    (c.abortOnes = 7 ∨ c.abortOnes = 8) := by
  simp only [admissible, Bool.and_eq_true, decide_eq_true_eq, Bool.or_eq_true, beq_iff_eq, and_assoc]

/-- A line bit lasts at least one sample. -/
theorem dacSamplesPerBit_pos {c : Config} (h : admissible c = true) : 1 ≤ dacSamplesPerBit c := by
  obtain ⟨_, _, h1, h2, _⟩ := admissible_iff.mp h
  simp only [dacSamplesPerBit, bitRate]
  omega

end Sys2Proof.Machine
end

