-- ==== Sys2Proof/Laws/Decode.lean ====
section
/-! SUPPORT. The fields of a command word and of the operand layouts, taken apart and put together. -/

namespace Sys2Proof

/-- The high part of a concatenation. -/
theorem extract_append_high {n m k : Nat} (a : BitVec n) (b : BitVec m) (hk : k = n) :
    (a ++ b).extractLsb' m k = a.cast hk.symm := by
  subst hk
  ext i hi
  simp only [BitVec.getElem_extractLsb', BitVec.getLsbD_append, BitVec.getElem_cast]
  rw [if_neg (by omega), ← BitVec.getLsbD_eq_getElem]
  congr 1
  omega

/-- A part of the low part of a concatenation. -/
theorem extract_append_low {n m : Nat} (a : BitVec n) (b : BitVec m) (j k : Nat) (h : j + k ≤ m) :
    (a ++ b).extractLsb' j k = b.extractLsb' j k := by
  ext i hi
  simp only [BitVec.getElem_extractLsb', BitVec.getLsbD_append]
  rw [if_pos (by omega)]

theorem extract_all {m : Nat} (b : BitVec m) : b.extractLsb' 0 m = b := by
  ext i hi
  simp only [BitVec.getElem_extractLsb', Nat.zero_add]
  exact BitVec.getLsbD_eq_getElem hi

@[simp] theorem opField_append (o : BitVec 8) (a : BitVec 16) : opField (o ++ a) = o :=
  extract_append_high o a rfl

@[simp] theorem argField_append (o : BitVec 8) (a : BitVec 16) : argField (o ++ a) = a :=
  (extract_append_low o a 0 16 (by omega)).trans (extract_all a)

@[simp] theorem opField_encode (i : Instr) : opField (encode i) = i.op := opField_append _ _
@[simp] theorem argField_encode (i : Instr) : argField (encode i) = i.arg := argField_append _ _

/-- A word is its two parts. -/
theorem extract_append_extract {n m k : Nat} (h : k = n + m) (w : BitVec k) :
    (w.extractLsb' m n ++ w.extractLsb' 0 m).cast h.symm = w := by
  subst h
  ext i hi
  simp only [BitVec.getElem_cast, BitVec.getElem_append, BitVec.getElem_extractLsb']
  split
  · rw [Nat.zero_add, BitVec.getLsbD_eq_getElem]
  · rw [← BitVec.getLsbD_eq_getElem]
    congr 1
    omega

/-- A command word is its two fields. -/
theorem op_append_arg (w : CmdWord) : opField w ++ argField w = w :=
  extract_append_extract (n := 8) (m := 16) rfl w

@[simp] theorem argOctet_octetArg (v : Octet) : argOctet (octetArg v) = v :=
  (extract_append_low 0#8 v 0 8 (by omega)).trans (extract_all v)

@[simp] theorem argOctet_fifoArg (f : BitVec 2) (v : Octet) : argOctet (fifoArg f v) = v :=
  (extract_append_low 0#6 (f ++ v) 0 8 (by omega)).trans
    ((extract_append_low f v 0 8 (by omega)).trans (extract_all v))

@[simp] theorem argFifo_fifoArg (f : BitVec 2) (v : Octet) : argFifo (fifoArg f v) = f :=
  (extract_append_low 0#6 (f ++ v) 8 2 (by omega)).trans (extract_append_high f v rfl)

@[simp] theorem argIdx_idxArg (x : BitVec 9) : argIdx (idxArg x) = x :=
  (extract_append_low 0#7 x 0 9 (by omega)).trans (extract_all x)

@[simp] theorem argBit_bitArg (b : Bool) : argBit (bitArg b) = b := by
  cases b <;> rfl

@[simp] theorem octetArg_ok_s8 (v : Octet) : Layout.s8.operandOk (octetArg v) = true := by
  have h : (octetArg v).extractLsb' 8 8 = 0#8 := extract_append_high 0#8 v rfl
  simp only [Layout.operandOk, h, beq_self_eq_true]

@[simp] theorem octetArg_ok_u8 (v : Octet) : Layout.u8.operandOk (octetArg v) = true :=
  octetArg_ok_s8 v

@[simp] theorem idxArg_ok (x : BitVec 9) : Layout.idx9.operandOk (idxArg x) = true := by
  have h : (idxArg x).extractLsb' 9 7 = 0#7 := extract_append_high 0#7 x rfl
  simp only [Layout.operandOk, h, beq_self_eq_true]

@[simp] theorem bitArg_ok (b : Bool) : Layout.bit.operandOk (bitArg b) = true := by
  cases b <;> rfl

@[simp] theorem fifoArg_ok_fv (f : BitVec 2) (v : Octet) :
    Layout.fv.operandOk (fifoArg f v) = fifoIdOk f := by
  have h : (fifoArg f v).extractLsb' 10 6 = 0#6 := extract_append_high 0#6 (f ++ v) rfl
  simp only [Layout.operandOk, h, beq_self_eq_true, Bool.true_and, argFifo_fifoArg]

@[simp] theorem fifoArg_ok_f (f : BitVec 2) :
    Layout.f.operandOk (fifoArg f 0#8) = fifoIdOk f := by
  revert f
  decide

end Sys2Proof
end

