-- ==== Sys2Proof/Laws/Memory.lean ====
section
/-! SUPPORT. The laws of a store: reading after writing, and that a write keeps the canonical form. -/

namespace Sys2Proof.Machine

theorem Memory.wfFrom_mono {lo hi : Nat} (h : lo ≤ hi) {m : Memory} (hm : Memory.wfFrom hi m = true) :
    Memory.wfFrom lo m = true := by
  cases m with
  | nil => rfl
  | cons c rest =>
    simp only [Memory.wfFrom, Bool.and_eq_true, decide_eq_true_eq] at hm ⊢
    exact ⟨⟨h.trans hm.1.1, hm.1.2⟩, hm.2⟩

theorem Memory.read_of_lt {lo : Nat} {m : Memory} (hm : Memory.wfFrom lo m = true) {a : Nat} (h : a < lo) :
    Memory.read m a = Memory.unlisted := by
  induction m generalizing lo with
  | nil => rfl
  | cons c rest ih =>
    simp only [Memory.wfFrom, Bool.and_eq_true, decide_eq_true_eq] at hm
    have hne : a ≠ c.1 := by omega
    simpa [Memory.read, hne] using ih hm.2 (by omega)

theorem Memory.read_cell_same (a : Nat) (v : Octet) {rest : Memory}
    (h : Memory.read rest a = Memory.unlisted) : Memory.read (Memory.cell a v rest) a = v := by
  unfold Memory.cell
  split
  · simp_all
  · simp [Memory.read]

theorem Memory.read_cell_other {a b : Nat} (h : b ≠ a) (v : Octet) (rest : Memory) :
    Memory.read (Memory.cell a v rest) b = Memory.read rest b := by
  unfold Memory.cell
  split
  · rfl
  · simp [Memory.read, h]

/-- A read at the index written gives the value written. -/
theorem Memory.read_write_same {lo : Nat} {m : Memory} (hm : Memory.wfFrom lo m = true) (a : Nat) (v : Octet) :
    Memory.read (Memory.write m a v) a = v := by
  induction m generalizing lo with
  | nil => exact Memory.read_cell_same a v rfl
  | cons c rest ih =>
    obtain ⟨b, w⟩ := c
    simp only [Memory.wfFrom, Bool.and_eq_true, decide_eq_true_eq] at hm
    simp only [Memory.write]
    split
    · rename_i hab
      refine Memory.read_cell_same a v ?_
      have hrest : Memory.wfFrom b rest = true := Memory.wfFrom_mono (by omega) hm.2
      simpa [Memory.read, Nat.ne_of_lt hab] using Memory.read_of_lt hrest hab
    · split
      · rename_i hab
        subst hab
        exact Memory.read_cell_same a v (Memory.read_of_lt hm.2 (by omega))
      · rename_i hab
        simpa [Memory.read, hab] using ih hm.2

/-- A write leaves every other index alone. -/
theorem Memory.read_write_other {m : Memory} {a b : Nat} (h : b ≠ a) (v : Octet) :
    Memory.read (Memory.write m a v) b = Memory.read m b := by
  induction m with
  | nil => exact Memory.read_cell_other h v []
  | cons c rest ih =>
    obtain ⟨x, w⟩ := c
    simp only [Memory.write]
    split
    · exact Memory.read_cell_other h v _
    · split
      · rename_i hax
        subst hax
        rw [Memory.read_cell_other h]
        simp [Memory.read, h]
      · simp [Memory.read, ih]

theorem Memory.cell_wfFrom {lo a : Nat} (hlo : lo ≤ a) (v : Octet) {rest : Memory}
    (hm : Memory.wfFrom (a + 1) rest = true) : Memory.wfFrom lo (Memory.cell a v rest) = true := by
  unfold Memory.cell
  split
  · exact Memory.wfFrom_mono (by omega) hm
  · simp_all [Memory.wfFrom]

theorem Memory.write_wfFrom {lo a : Nat} (hlo : lo ≤ a) (v : Octet) {m : Memory}
    (hm : Memory.wfFrom lo m = true) : Memory.wfFrom lo (Memory.write m a v) = true := by
  induction m generalizing lo with
  | nil => exact Memory.cell_wfFrom hlo v rfl
  | cons c rest ih =>
    obtain ⟨b, w⟩ := c
    have hm' := hm
    simp only [Memory.wfFrom, Bool.and_eq_true, decide_eq_true_eq] at hm
    simp only [Memory.write]
    split
    · rename_i hab
      refine Memory.cell_wfFrom hlo v ?_
      simp only [Memory.wfFrom, Bool.and_eq_true, decide_eq_true_eq]
      exact ⟨⟨by omega, hm.1.2⟩, hm.2⟩
    · split
      · rename_i hab
        subst hab
        exact Memory.cell_wfFrom hlo v hm.2
      · simp only [Memory.wfFrom, Bool.and_eq_true, decide_eq_true_eq]
        exact ⟨hm.1, ih (by omega) hm.2⟩

/-- A write keeps the canonical form. -/
theorem Memory.write_wf {m : Memory} (hm : m.wf = true) (a : Nat) (v : Octet) : (m.write a v).wf = true :=
  Memory.write_wfFrom (Nat.zero_le a) v hm

theorem Memory.within_iff {n : Nat} {m : Memory} : m.within n = true ↔ ∀ c ∈ m, c.1 < n := by
  simp [Memory.within]

theorem Memory.mem_cell {a : Nat} {v : Octet} {rest : Memory} {c : Host.Cell}
    (h : c ∈ Memory.cell a v rest) : c = (a, v) ∨ c ∈ rest := by
  unfold Memory.cell at h
  split at h
  · exact .inr h
  · simpa using h

/-- Every cell after a write is the one written or one that was there. -/
theorem Memory.mem_write {m : Memory} {a : Nat} {v : Octet} {c : Host.Cell}
    (h : c ∈ Memory.write m a v) : c = (a, v) ∨ c ∈ m := by
  induction m with
  | nil => exact Memory.mem_cell h
  | cons x rest ih =>
    obtain ⟨b, w⟩ := x
    simp only [Memory.write] at h
    split at h
    · exact Memory.mem_cell h
    · split at h
      · exact (Memory.mem_cell h).imp_right (List.mem_cons_of_mem _)
      · rcases List.mem_cons.mp h with rfl | h
        · exact .inr List.mem_cons_self
        · exact (ih h).imp_right (List.mem_cons_of_mem _)

/-- A write inside the index range keeps every cell inside it. -/
theorem Memory.write_within {n a : Nat} (ha : a < n) (v : Octet) {m : Memory} (hm : m.within n = true) :
    (m.write a v).within n = true := by
  rw [Memory.within_iff] at hm ⊢
  intro c hc
  rcases Memory.mem_write hc with rfl | h
  · exact ha
  · exact hm c h

end Sys2Proof.Machine
end

