-- ==== Sys2Proof/Laws/State.lean ====
section
/-! SUPPORT. One lemma per field per named update of the state, so that no later proof unfolds one. -/

namespace Sys2Proof.Machine

/-! ## `setRing` -/

@[simp] theorem setRing_cfg (s : State) (f : Fifo) (r : Ring) : (s.setRing f r).cfg = s.cfg := by
  cases f <;> rfl
@[simp] theorem setRing_iirX0 (s : State) (f : Fifo) (r : Ring) : (s.setRing f r).iirX0 = s.iirX0 := by
  cases f <;> rfl
@[simp] theorem setRing_iirX1 (s : State) (f : Fifo) (r : Ring) : (s.setRing f r).iirX1 = s.iirX1 := by
  cases f <;> rfl
@[simp] theorem setRing_iirY0 (s : State) (f : Fifo) (r : Ring) : (s.setRing f r).iirY0 = s.iirY0 := by
  cases f <;> rfl
@[simp] theorem setRing_iirY1 (s : State) (f : Fifo) (r : Ring) : (s.setRing f r).iirY1 = s.iirY1 := by
  cases f <;> rfl
@[simp] theorem setRing_sampledBits (s : State) (f : Fifo) (r : Ring) : (s.setRing f r).sampledBits = s.sampledBits := by
  cases f <;> rfl
@[simp] theorem setRing_foundBits (s : State) (f : Fifo) (r : Ring) : (s.setRing f r).foundBits = s.foundBits := by
  cases f <;> rfl
@[simp] theorem setRing_currPhase (s : State) (f : Fifo) (r : Ring) : (s.setRing f r).currPhase = s.currPhase := by
  cases f <;> rfl
@[simp] theorem setRing_demodBits (s : State) (f : Fifo) (r : Ring) : (s.setRing f r).demodBits = s.demodBits := by
  cases f <;> rfl
@[simp] theorem setRing_hdlcRxstart (s : State) (f : Fifo) (r : Ring) : (s.setRing f r).hdlcRxstart = s.hdlcRxstart := by
  cases f <;> rfl
@[simp] theorem setRing_hdlcCurrchar (s : State) (f : Fifo) (r : Ring) : (s.setRing f r).hdlcCurrchar = s.hdlcCurrchar := by
  cases f <;> rfl
@[simp] theorem setRing_hdlcBitIdx (s : State) (f : Fifo) (r : Ring) : (s.setRing f r).hdlcBitIdx = s.hdlcBitIdx := by
  cases f <;> rfl
@[simp] theorem setRing_currOut (s : State) (f : Fifo) (r : Ring) : (s.setRing f r).currOut = s.currOut := by
  cases f <;> rfl
@[simp] theorem setRing_txBit (s : State) (f : Fifo) (r : Ring) : (s.setRing f r).txBit = s.txBit := by
  cases f <;> rfl
@[simp] theorem setRing_sampleCount (s : State) (f : Fifo) (r : Ring) : (s.setRing f r).sampleCount = s.sampleCount := by
  cases f <;> rfl
@[simp] theorem setRing_phaseAcc (s : State) (f : Fifo) (r : Ring) : (s.setRing f r).phaseAcc = s.phaseAcc := by
  cases f <;> rfl
@[simp] theorem setRing_phaseInc (s : State) (f : Fifo) (r : Ring) : (s.setRing f r).phaseInc = s.phaseInc := by
  cases f <;> rfl
@[simp] theorem setRing_bitStuff (s : State) (f : Fifo) (r : Ring) : (s.setRing f r).bitStuff = s.bitStuff := by
  cases f <;> rfl
@[simp] theorem setRing_stuffCnt (s : State) (f : Fifo) (r : Ring) : (s.setRing f r).stuffCnt = s.stuffCnt := by
  cases f <;> rfl
@[simp] theorem setRing_preambleLen (s : State) (f : Fifo) (r : Ring) : (s.setRing f r).preambleLen = s.preambleLen := by
  cases f <;> rfl
@[simp] theorem setRing_trailerLen (s : State) (f : Fifo) (r : Ring) : (s.setRing f r).trailerLen = s.trailerLen := by
  cases f <;> rfl
@[simp] theorem setRing_sending (s : State) (f : Fifo) (r : Ring) : (s.setRing f r).sending = s.sending := by
  cases f <;> rfl
@[simp] theorem setRing_initialised (s : State) (f : Fifo) (r : Ring) : (s.setRing f r).initialised = s.initialised := by
  cases f <;> rfl
@[simp] theorem setRing_pending (s : State) (f : Fifo) (r : Ring) : (s.setRing f r).pending = s.pending := by
  cases f <;> rfl
@[simp] theorem setRing_events (s : State) (f : Fifo) (r : Ring) : (s.setRing f r).events = s.events := by
  cases f <;> rfl
@[simp] theorem setRing_replies (s : State) (f : Fifo) (r : Ring) : (s.setRing f r).replies = s.replies := by
  cases f <;> rfl
@[simp] theorem setRing_delay_delayFifo (s : State) (r : Ring) : (s.setRing .delay r).delayFifo = r := rfl
@[simp] theorem setRing_delay_rxFifo (s : State) (r : Ring) : (s.setRing .delay r).rxFifo = s.rxFifo := rfl
@[simp] theorem setRing_delay_txFifo (s : State) (r : Ring) : (s.setRing .delay r).txFifo = s.txFifo := rfl
@[simp] theorem setRing_rx_delayFifo (s : State) (r : Ring) : (s.setRing .rx r).delayFifo = s.delayFifo := rfl
@[simp] theorem setRing_rx_rxFifo (s : State) (r : Ring) : (s.setRing .rx r).rxFifo = r := rfl
@[simp] theorem setRing_rx_txFifo (s : State) (r : Ring) : (s.setRing .rx r).txFifo = s.txFifo := rfl
@[simp] theorem setRing_tx_delayFifo (s : State) (r : Ring) : (s.setRing .tx r).delayFifo = s.delayFifo := rfl
@[simp] theorem setRing_tx_rxFifo (s : State) (r : Ring) : (s.setRing .tx r).rxFifo = s.rxFifo := rfl
@[simp] theorem setRing_tx_txFifo (s : State) (r : Ring) : (s.setRing .tx r).txFifo = r := rfl

@[simp] theorem ring_setRing_same (s : State) (f : Fifo) (r : Ring) : (s.setRing f r).ring f = r := by
  cases f <;> rfl

theorem ring_setRing_ne (s : State) {f g : Fifo} (h : g ≠ f) (r : Ring) :
    (s.setRing f r).ring g = s.ring g := by
  cases f <;> cases g <;> first | rfl | exact absurd rfl h

@[simp] theorem setRing_setRing (s : State) (f : Fifo) (r q : Ring) :
    (s.setRing f r).setRing f q = s.setRing f q := by
  cases f <;> rfl

@[simp] theorem setRing_ring (s : State) (f : Fifo) : s.setRing f (s.ring f) = s := by
  cases f <;> rfl

@[simp] theorem ring_delay (s : State) : s.ring .delay = s.delayFifo := rfl
@[simp] theorem ring_rx (s : State) : s.ring .rx = s.rxFifo := rfl
@[simp] theorem ring_tx (s : State) : s.ring .tx = s.txFifo := rfl

/-! ## `emit` -/

@[simp] theorem emit_cfg (s : State) (e : Event) : (s.emit e).cfg = s.cfg := rfl
@[simp] theorem emit_iirX0 (s : State) (e : Event) : (s.emit e).iirX0 = s.iirX0 := rfl
@[simp] theorem emit_iirX1 (s : State) (e : Event) : (s.emit e).iirX1 = s.iirX1 := rfl
@[simp] theorem emit_iirY0 (s : State) (e : Event) : (s.emit e).iirY0 = s.iirY0 := rfl
@[simp] theorem emit_iirY1 (s : State) (e : Event) : (s.emit e).iirY1 = s.iirY1 := rfl
@[simp] theorem emit_sampledBits (s : State) (e : Event) : (s.emit e).sampledBits = s.sampledBits := rfl
@[simp] theorem emit_foundBits (s : State) (e : Event) : (s.emit e).foundBits = s.foundBits := rfl
@[simp] theorem emit_currPhase (s : State) (e : Event) : (s.emit e).currPhase = s.currPhase := rfl
@[simp] theorem emit_demodBits (s : State) (e : Event) : (s.emit e).demodBits = s.demodBits := rfl
@[simp] theorem emit_hdlcRxstart (s : State) (e : Event) : (s.emit e).hdlcRxstart = s.hdlcRxstart := rfl
@[simp] theorem emit_hdlcCurrchar (s : State) (e : Event) : (s.emit e).hdlcCurrchar = s.hdlcCurrchar := rfl
@[simp] theorem emit_hdlcBitIdx (s : State) (e : Event) : (s.emit e).hdlcBitIdx = s.hdlcBitIdx := rfl
@[simp] theorem emit_currOut (s : State) (e : Event) : (s.emit e).currOut = s.currOut := rfl
@[simp] theorem emit_txBit (s : State) (e : Event) : (s.emit e).txBit = s.txBit := rfl
@[simp] theorem emit_sampleCount (s : State) (e : Event) : (s.emit e).sampleCount = s.sampleCount := rfl
@[simp] theorem emit_phaseAcc (s : State) (e : Event) : (s.emit e).phaseAcc = s.phaseAcc := rfl
@[simp] theorem emit_phaseInc (s : State) (e : Event) : (s.emit e).phaseInc = s.phaseInc := rfl
@[simp] theorem emit_bitStuff (s : State) (e : Event) : (s.emit e).bitStuff = s.bitStuff := rfl
@[simp] theorem emit_stuffCnt (s : State) (e : Event) : (s.emit e).stuffCnt = s.stuffCnt := rfl
@[simp] theorem emit_preambleLen (s : State) (e : Event) : (s.emit e).preambleLen = s.preambleLen := rfl
@[simp] theorem emit_trailerLen (s : State) (e : Event) : (s.emit e).trailerLen = s.trailerLen := rfl
@[simp] theorem emit_sending (s : State) (e : Event) : (s.emit e).sending = s.sending := rfl
@[simp] theorem emit_initialised (s : State) (e : Event) : (s.emit e).initialised = s.initialised := rfl
@[simp] theorem emit_pending (s : State) (e : Event) : (s.emit e).pending = s.pending := rfl
@[simp] theorem emit_events (s : State) (e : Event) : (s.emit e).events = s.events ++ [e] := rfl
@[simp] theorem emit_replies (s : State) (e : Event) : (s.emit e).replies = s.replies := rfl
@[simp] theorem emit_delayFifo (s : State) (e : Event) : (s.emit e).delayFifo = s.delayFifo := rfl
@[simp] theorem emit_rxFifo (s : State) (e : Event) : (s.emit e).rxFifo = s.rxFifo := rfl
@[simp] theorem emit_txFifo (s : State) (e : Event) : (s.emit e).txFifo = s.txFifo := rfl
@[simp] theorem emit_ring (s : State) (e : Event) (f : Fifo) : (s.emit e).ring f = s.ring f := by
  cases f <;> rfl

/-! ## `reply` -/

@[simp] theorem reply_cfg (s : State) (v : Reply) : (s.reply v).cfg = s.cfg := rfl
@[simp] theorem reply_iirX0 (s : State) (v : Reply) : (s.reply v).iirX0 = s.iirX0 := rfl
@[simp] theorem reply_iirX1 (s : State) (v : Reply) : (s.reply v).iirX1 = s.iirX1 := rfl
@[simp] theorem reply_iirY0 (s : State) (v : Reply) : (s.reply v).iirY0 = s.iirY0 := rfl
@[simp] theorem reply_iirY1 (s : State) (v : Reply) : (s.reply v).iirY1 = s.iirY1 := rfl
@[simp] theorem reply_sampledBits (s : State) (v : Reply) : (s.reply v).sampledBits = s.sampledBits := rfl
@[simp] theorem reply_foundBits (s : State) (v : Reply) : (s.reply v).foundBits = s.foundBits := rfl
@[simp] theorem reply_currPhase (s : State) (v : Reply) : (s.reply v).currPhase = s.currPhase := rfl
@[simp] theorem reply_demodBits (s : State) (v : Reply) : (s.reply v).demodBits = s.demodBits := rfl
@[simp] theorem reply_hdlcRxstart (s : State) (v : Reply) : (s.reply v).hdlcRxstart = s.hdlcRxstart := rfl
@[simp] theorem reply_hdlcCurrchar (s : State) (v : Reply) : (s.reply v).hdlcCurrchar = s.hdlcCurrchar := rfl
@[simp] theorem reply_hdlcBitIdx (s : State) (v : Reply) : (s.reply v).hdlcBitIdx = s.hdlcBitIdx := rfl
@[simp] theorem reply_currOut (s : State) (v : Reply) : (s.reply v).currOut = s.currOut := rfl
@[simp] theorem reply_txBit (s : State) (v : Reply) : (s.reply v).txBit = s.txBit := rfl
@[simp] theorem reply_sampleCount (s : State) (v : Reply) : (s.reply v).sampleCount = s.sampleCount := rfl
@[simp] theorem reply_phaseAcc (s : State) (v : Reply) : (s.reply v).phaseAcc = s.phaseAcc := rfl
@[simp] theorem reply_phaseInc (s : State) (v : Reply) : (s.reply v).phaseInc = s.phaseInc := rfl
@[simp] theorem reply_bitStuff (s : State) (v : Reply) : (s.reply v).bitStuff = s.bitStuff := rfl
@[simp] theorem reply_stuffCnt (s : State) (v : Reply) : (s.reply v).stuffCnt = s.stuffCnt := rfl
@[simp] theorem reply_preambleLen (s : State) (v : Reply) : (s.reply v).preambleLen = s.preambleLen := rfl
@[simp] theorem reply_trailerLen (s : State) (v : Reply) : (s.reply v).trailerLen = s.trailerLen := rfl
@[simp] theorem reply_sending (s : State) (v : Reply) : (s.reply v).sending = s.sending := rfl
@[simp] theorem reply_initialised (s : State) (v : Reply) : (s.reply v).initialised = s.initialised := rfl
@[simp] theorem reply_pending (s : State) (v : Reply) : (s.reply v).pending = s.pending := rfl
@[simp] theorem reply_events (s : State) (v : Reply) : (s.reply v).events = s.events := rfl
@[simp] theorem reply_replies (s : State) (v : Reply) : (s.reply v).replies = s.replies ++ [v] := rfl
@[simp] theorem reply_delayFifo (s : State) (v : Reply) : (s.reply v).delayFifo = s.delayFifo := rfl
@[simp] theorem reply_rxFifo (s : State) (v : Reply) : (s.reply v).rxFifo = s.rxFifo := rfl
@[simp] theorem reply_txFifo (s : State) (v : Reply) : (s.reply v).txFifo = s.txFifo := rfl
@[simp] theorem reply_ring (s : State) (v : Reply) (f : Fifo) : (s.reply v).ring f = s.ring f := by
  cases f <;> rfl

/-! ## `clearAccumulator` -/

@[simp] theorem clearAccumulator_cfg (s : State) : (clearAccumulator s).cfg = s.cfg := rfl
@[simp] theorem clearAccumulator_iirX0 (s : State) : (clearAccumulator s).iirX0 = s.iirX0 := rfl
@[simp] theorem clearAccumulator_iirX1 (s : State) : (clearAccumulator s).iirX1 = s.iirX1 := rfl
@[simp] theorem clearAccumulator_iirY0 (s : State) : (clearAccumulator s).iirY0 = s.iirY0 := rfl
@[simp] theorem clearAccumulator_iirY1 (s : State) : (clearAccumulator s).iirY1 = s.iirY1 := rfl
@[simp] theorem clearAccumulator_sampledBits (s : State) : (clearAccumulator s).sampledBits = s.sampledBits := rfl
@[simp] theorem clearAccumulator_foundBits (s : State) : (clearAccumulator s).foundBits = s.foundBits := rfl
@[simp] theorem clearAccumulator_currPhase (s : State) : (clearAccumulator s).currPhase = s.currPhase := rfl
@[simp] theorem clearAccumulator_demodBits (s : State) : (clearAccumulator s).demodBits = s.demodBits := rfl
@[simp] theorem clearAccumulator_hdlcRxstart (s : State) : (clearAccumulator s).hdlcRxstart = s.hdlcRxstart := rfl
@[simp] theorem clearAccumulator_hdlcCurrchar (s : State) : (clearAccumulator s).hdlcCurrchar = 0#8 := rfl
@[simp] theorem clearAccumulator_hdlcBitIdx (s : State) : (clearAccumulator s).hdlcBitIdx = 0#8 := rfl
@[simp] theorem clearAccumulator_currOut (s : State) : (clearAccumulator s).currOut = s.currOut := rfl
@[simp] theorem clearAccumulator_txBit (s : State) : (clearAccumulator s).txBit = s.txBit := rfl
@[simp] theorem clearAccumulator_sampleCount (s : State) : (clearAccumulator s).sampleCount = s.sampleCount := rfl
@[simp] theorem clearAccumulator_phaseAcc (s : State) : (clearAccumulator s).phaseAcc = s.phaseAcc := rfl
@[simp] theorem clearAccumulator_phaseInc (s : State) : (clearAccumulator s).phaseInc = s.phaseInc := rfl
@[simp] theorem clearAccumulator_bitStuff (s : State) : (clearAccumulator s).bitStuff = s.bitStuff := rfl
@[simp] theorem clearAccumulator_stuffCnt (s : State) : (clearAccumulator s).stuffCnt = s.stuffCnt := rfl
@[simp] theorem clearAccumulator_preambleLen (s : State) : (clearAccumulator s).preambleLen = s.preambleLen := rfl
@[simp] theorem clearAccumulator_trailerLen (s : State) : (clearAccumulator s).trailerLen = s.trailerLen := rfl
@[simp] theorem clearAccumulator_sending (s : State) : (clearAccumulator s).sending = s.sending := rfl
@[simp] theorem clearAccumulator_initialised (s : State) : (clearAccumulator s).initialised = s.initialised := rfl
@[simp] theorem clearAccumulator_pending (s : State) : (clearAccumulator s).pending = s.pending := rfl
@[simp] theorem clearAccumulator_events (s : State) : (clearAccumulator s).events = s.events := rfl
@[simp] theorem clearAccumulator_replies (s : State) : (clearAccumulator s).replies = s.replies := rfl
@[simp] theorem clearAccumulator_delayFifo (s : State) : (clearAccumulator s).delayFifo = s.delayFifo := rfl
@[simp] theorem clearAccumulator_rxFifo (s : State) : (clearAccumulator s).rxFifo = s.rxFifo := rfl
@[simp] theorem clearAccumulator_txFifo (s : State) : (clearAccumulator s).txFifo = s.txFifo := rfl

/-! ## `queue` -/

@[simp] theorem queue_emit (s : State) (e : Event) (f : Fifo) : (s.emit e).queue f = s.queue f := by
  cases f <;> rfl
@[simp] theorem queue_reply (s : State) (v : Reply) (f : Fifo) : (s.reply v).queue f = s.queue f := by
  cases f <;> rfl
@[simp] theorem queue_clearAccumulator (s : State) (f : Fifo) : (clearAccumulator s).queue f = s.queue f := by
  cases f <;> rfl

end Sys2Proof.Machine
end

