-- ==== Sys2Proof/Laws/Ops.lean ====
section
/-! SUPPORT. What the shared operations can do: sequencing, the initialisation check, the accesses to
the storage spaces. Provers cite these instead of unfolding. -/

namespace Sys2Proof.Machine

variable {α β : Type}

@[simp] theorem andThen_next (a : α) (k : α → Res β) : andThen (.next a) k = k a := rfl
@[simp] theorem andThen_fault (f : Fault) (k : α → Res β) : andThen (.fault f : Res α) k = .fault f := rfl
@[simp] theorem andThen_refused (r : Refusal) (k : α → Res β) :
    andThen (.refused r : Res α) k = .refused r := rfl

theorem andThen_eq_next {o : Res α} {k : α → Res β} {b : β} :
    andThen o k = .next b ↔ ∃ a, o = .next a ∧ k a = .next b := by
  cases o <;> simp [andThen]

theorem andThen_eq_fault {o : Res α} {k : α → Res β} {f : Fault} :
    andThen o k = .fault f ↔ o = .fault f ∨ ∃ a, o = .next a ∧ k a = .fault f := by
  cases o <;> simp [andThen]

theorem andThen_eq_refused {o : Res α} {k : α → Res β} {r : Refusal} :
    andThen o k = .refused r ↔ o = .refused r ∨ ∃ a, o = .next a ∧ k a = .refused r := by
  cases o <;> simp [andThen]

theorem ifInitialised_of_init {s : State} (h : s.initialised = true) (o : Res State) :
    ifInitialised s o = o := by
  simp [ifInitialised, h]

theorem ifInitialised_eq_next {s t : State} {o : Res State} :
    ifInitialised s o = .next t ↔ s.initialised = true ∧ o = .next t := by
  cases h : s.initialised <;> simp [ifInitialised, h]

theorem onFifo_of_some {f : BitVec 2} {g : Fifo} (h : fifoOf f = some g) (k : Fifo → Res State) :
    onFifo f k = k g := by
  simp [onFifo, h]

theorem fifoOf_isSome_iff {f : BitVec 2} : (fifoOf f).isSome = true ↔ f ≠ 3#2 := by
  revert f; decide

/-- Within a FIFO's space, a write replaces one element and nothing else. -/
theorem memWrite_next {f : Fifo} {i : Nat} {v : Octet} {s : State} (h : i < Fifo.cap s.cfg f) :
    memWrite f i v s = .next (s.setRing f { s.ring f with buf := (s.ring f).buf.write i v }) := by
  have h' : i < Space.size s.cfg f.space := by cases f <;> exact h
  simp only [memWrite, if_pos h']

/-- Within a FIFO's space, a read gives the element and writes nothing. -/
theorem memRead_next {f : Fifo} {i : Nat} {s : State} (h : i < Fifo.cap s.cfg f) :
    memRead f.space i s = .next ((s.ring f).buf.read i) := by
  have h' : i < Space.size s.cfg f.space := by cases f <;> exact h
  simp only [memRead, if_pos h']
  cases f <;> rfl

/-- A read of the sine table within its 128 entries gives the entry (rules R70, R75). -/
theorem memRead_rom {i : Nat} {s : State} {v : Octet} (hi : i < 128) (hv : s.cfg.sinTable[i]? = some v) :
    memRead .rom i s = .next v := by
  simp [memRead, Space.size, hi, hv]

end Sys2Proof.Machine
end

