-- ==== Sys2Proof/Laws/Fifo.lean ====
section
/-! SUPPORT. The FIFO operations in the ring form realise the abstract queue (rules R140 to R147). -/

namespace Sys2Proof.Machine

/-- The bounds of rule R146, as a conjunction. -/
theorem Ring.ok_iff {n : Nat} {r : Ring} :
    r.ok n = true ↔ r.head < n ∧ r.tail < n ∧ r.count ≤ n ∧ r.tail = (r.head + r.count) % n ∧
      r.buf.wf = true ∧ r.buf.within n = true := by
  simp [Ring.ok, and_assoc]

@[simp] theorem Ring.length_queue (n : Nat) (r : Ring) : (r.queue n).length = r.count := by
  simp [Ring.queue]

/-- The ring after a push. -/
def Ring.pushed (n : Nat) (r : Ring) (v : Octet) : Ring :=
  { buf := r.buf.write r.tail v, head := r.head, tail := (r.tail + 1) % n, count := r.count + 1 }

/-- The ring after a pop. -/
def Ring.popped (n : Nat) (r : Ring) : Ring :=
  { buf := r.buf, head := (r.head + 1) % n, tail := r.tail, count := r.count - 1 }

theorem Ring.pushed_ok {n : Nat} {r : Ring} (h : r.ok n = true) (hc : r.count < n) (v : Octet) :
    (r.pushed n v).ok n = true := by
  rw [Ring.ok_iff] at h ⊢
  obtain ⟨h1, h2, _, h4, h5, h6⟩ := h
  refine ⟨h1, Nat.mod_lt _ (by omega), hc, ?_, Memory.write_wf h5 _ _, Memory.write_within h2 v h6⟩
  show (r.tail + 1) % n = (r.head + (r.count + 1)) % n
  rw [h4, Nat.mod_add_mod, Nat.add_assoc]

theorem Ring.popped_ok {n : Nat} {r : Ring} (h : r.ok n = true) (hc : 0 < r.count) :
    (r.popped n).ok n = true := by
  rw [Ring.ok_iff] at h ⊢
  obtain ⟨h1, h2, h3, h4, h5, h6⟩ := h
  refine ⟨Nat.mod_lt _ (by omega), h2, by simp only [Ring.popped]; omega, ?_, h5, h6⟩
  show r.tail = ((r.head + 1) % n + (r.count - 1)) % n
  rw [h4, Nat.mod_add_mod]
  congr 1
  omega

/-- A push appends at the end of the queue (rule R141). -/
theorem Ring.queue_pushed {n : Nat} {r : Ring} (h : r.ok n = true) (hc : r.count < n) (v : Octet) :
    (r.pushed n v).queue n = r.queue n ++ [v] := by
  obtain ⟨h1, h2, _, h4, h5, _⟩ := Ring.ok_iff.mp h
  simp only [Ring.queue, Ring.pushed, List.range_succ, List.map_append, List.map_cons, List.map_nil]
  congr 1
  · apply List.map_congr_left
    intro k hk
    have hk := List.mem_range.mp hk
    apply Memory.read_write_other
    rw [h4]
    intro he
    have := Nat.ModEq.add_left_cancel' r.head (show r.head + k ≡ r.head + r.count [MOD n] from he)
    rw [Nat.ModEq, Nat.mod_eq_of_lt (by omega), Nat.mod_eq_of_lt hc] at this
    omega
  · rw [← h4, Memory.read_write_same h5]

/-- A pop removes the oldest element, the one at the read index (rule R142). -/
theorem Ring.queue_popped {n : Nat} {r : Ring} (h : r.ok n = true) (hc : 0 < r.count) :
    r.queue n = r.buf.read r.head :: (r.popped n).queue n := by
  obtain ⟨h1, _⟩ := Ring.ok_iff.mp h
  obtain ⟨c, hcc⟩ : ∃ c, r.count = c + 1 := ⟨r.count - 1, by omega⟩
  simp only [Ring.queue, Ring.popped, hcc, List.range_succ_eq_map, List.map_cons, List.map_map,
    Nat.add_zero, Nat.mod_eq_of_lt h1, Nat.add_sub_cancel]
  congr 1
  apply List.map_congr_left
  intro k _
  simp only [Function.comp, Nat.mod_add_mod]
  congr 2
  omega

/-- A push onto a FIFO with room (rule R141). -/
theorem fifoPush_next {f : Fifo} {s : State} (h : (s.ring f).ok (Fifo.cap s.cfg f) = true)
    (hc : (s.ring f).count < Fifo.cap s.cfg f) (v : Octet) :
    fifoPush f v s = .next (s.setRing f ((s.ring f).pushed (Fifo.cap s.cfg f) v)) := by
  obtain ⟨_, h2, _⟩ := Ring.ok_iff.mp h
  simp [fifoPush, hc, memWrite_next h2, Ring.pushed]

/-- A push onto a full FIFO is refused (rule R141). -/
theorem fifoPush_full {f : Fifo} {s : State} (hc : Fifo.cap s.cfg f ≤ (s.ring f).count) (v : Octet) :
    fifoPush f v s = .refused .fifoFull := by
  simp [fifoPush, Nat.not_lt.mpr hc]

/-- A pop of a FIFO that holds something (rule R142). -/
theorem fifoPop_next {f : Fifo} {s : State} (h : (s.ring f).ok (Fifo.cap s.cfg f) = true)
    (hc : 0 < (s.ring f).count) :
    fifoPop f s = .next ((s.ring f).buf.read (s.ring f).head,
      s.setRing f ((s.ring f).popped (Fifo.cap s.cfg f))) := by
  obtain ⟨h1, _⟩ := Ring.ok_iff.mp h
  simp [fifoPop, hc, memRead_next h1, Ring.popped]

/-- A pop of an empty FIFO is refused (rule R142). -/
theorem fifoPop_empty {f : Fifo} {s : State} (hc : (s.ring f).count = 0) :
    fifoPop f s = .refused .fifoEmpty := by
  simp [fifoPop, hc]

end Sys2Proof.Machine
end

