-- ==== Sys2Proof/Laws/Hdlc.lean ====
section
/-! SUPPORT. What the receive parser can do (rules R210 to R217), said once. -/

namespace Sys2Proof.Machine

theorem fifoIsFull_iff {f : Fifo} {s : State} : fifoIsFull f s = true ↔ (s.ring f).count = Fifo.cap s.cfg f := by
  simp [fifoIsFull]

theorem fifoIsEmpty_iff {f : Fifo} {s : State} : fifoIsEmpty f s = true ↔ (s.ring f).count = 0 := by
  simp [fifoIsEmpty]

/-- `RXPUT` on a full `rx_fifo` drops the frame (rule R215). -/
theorem rxPut_full {s : State} (h : s.rxFifo.count = s.cfg.rxBuflen) (b : Octet) :
    rxPut b s = .next (false, { s with hdlcRxstart := false }) := by
  have : fifoIsFull .rx s = true := fifoIsFull_iff.mpr h
  simp [rxPut, this]

/-- `RXPUT` with room stores the octet (rule R215). -/
theorem rxPut_room {s : State} (hr : s.rxFifo.ok s.cfg.rxBuflen = true)
    (h : s.rxFifo.count < s.cfg.rxBuflen) (b : Octet) :
    rxPut b s = .next (true, { s with rxFifo := s.rxFifo.pushed s.cfg.rxBuflen b }) := by
  have hf : fifoIsFull .rx s = false := by
    have hne : s.rxFifo.count ≠ s.cfg.rxBuflen := by omega
    simpa [fifoIsFull, Fifo.cap] using hne
  have hp := fifoPush_next (f := .rx) (s := s) hr h b
  rw [rxPut, hf, hp]
  rfl

/-- The ring of a queue of pushes. -/
def Ring.pushedAll (n : Nat) (r : Ring) : List Octet → Ring
  | [] => r
  | v :: l => (r.pushed n v).pushedAll n l

theorem Ring.pushedAll_spec {n : Nat} (l : List Octet) : ∀ {r : Ring}, r.ok n = true →
    r.count + l.length ≤ n → (r.pushedAll n l).ok n = true ∧
      (r.pushedAll n l).queue n = r.queue n ++ l ∧
      (r.pushedAll n l).count = r.count + l.length ∧
      (r.pushedAll n l).tail = (r.tail + l.length) % n ∧
      ∀ a, (∀ k, k < l.length → a ≠ (r.tail + k) % n) →
        (r.pushedAll n l).buf.read a = r.buf.read a := by
  induction l with
  | nil =>
    intro r h hc
    obtain ⟨_, h2, _⟩ := Ring.ok_iff.mp h
    simp [Ring.pushedAll, h, Nat.mod_eq_of_lt h2]
  | cons v l ih =>
    intro r h hc
    simp only [List.length_cons] at hc ⊢
    have hroom : r.count < n := by omega
    have hcount : (r.pushed n v).count = r.count + 1 := rfl
    have htail : (r.pushed n v).tail = (r.tail + 1) % n := rfl
    obtain ⟨h1, h2, h3, h4, h5⟩ := ih (Ring.pushed_ok h hroom v) (by omega)
    obtain ⟨_, ht, _⟩ := Ring.ok_iff.mp h
    refine ⟨h1, ?_, ?_, ?_, ?_⟩
    · rw [Ring.pushedAll, h2, Ring.queue_pushed h hroom]; simp
    · rw [Ring.pushedAll, h3, hcount]; omega
    · rw [Ring.pushedAll, h4, htail, Nat.mod_add_mod]
      congr 1; omega
    · intro a ha
      rw [Ring.pushedAll, h5 a]
      · refine Memory.read_write_other ?_ v
        have := ha 0 (by omega)
        rwa [Nat.add_zero, Nat.mod_eq_of_lt ht] at this
      · intro k hk
        have := ha (k + 1) (by omega)
        rwa [htail, Nat.mod_add_mod, show r.tail + 1 + k = r.tail + (k + 1) by omega]

/-- What a call of the parser stores (rules R216, R217): the shapes of the read stream's growth. -/
inductive StoredShape (full open' : Bool) : List Octet → Prop where
  /-- Nothing. -/
  | none : StoredShape full open' []
  /-- A flag. -/
  | flag : StoredShape full open' [0x7E#8]
  /-- An ordinary octet. -/
  | plain (c : Octet) (h : isReserved c = false) : StoredShape full open' [c]
  /-- An escape pair. -/
  | pair (c : Octet) (h : isReserved c = true) : StoredShape full open' [0x1B#8, c]
  /-- An introducer alone, the FIFO then full and the frame dropped. -/
  | dangling (hf : full = true) (ho : open' = false) : StoredShape full open' [0x1B#8]

/-- What a completed octet does to `rx_fifo` and the frame (rule R214). -/
theorem storeOctet_next {s : State} (hr : s.rxFifo.ok s.cfg.rxBuflen = true) (ho : s.hdlcRxstart = true)
    (c : Octet) : ∃ l b, storeOctet c s =
        .next { s with rxFifo := s.rxFifo.pushedAll s.cfg.rxBuflen l, hdlcRxstart := b } ∧
      s.rxFifo.count + l.length ≤ s.cfg.rxBuflen ∧
      (isReserved c = false → s.rxFifo.count < s.cfg.rxBuflen → l = [c] ∧ b = true) ∧
      (isReserved c = true → s.rxFifo.count + 1 < s.cfg.rxBuflen → l = [0x1B#8, c] ∧ b = true) ∧
      (isReserved c = true → s.rxFifo.count + 1 = s.cfg.rxBuflen → l = [0x1B#8] ∧ b = false) ∧
      (s.rxFifo.count = s.cfg.rxBuflen → l = [] ∧ b = false) := by
  obtain ⟨_, _, hle, _⟩ := Ring.ok_iff.mp hr
  by_cases hfull : s.rxFifo.count = s.cfg.rxBuflen
  · refine ⟨[], false, ?_, ?_⟩
    · cases hc : isReserved c <;> simp [storeOctet, hc, rxPut_full hfull, Ring.pushedAll]
    · refine ⟨by simp [hfull], ?_⟩
      refine ⟨?_, ?_, ?_, ?_⟩ <;> intros <;> first | omega | simp
  · have hroom : s.rxFifo.count < s.cfg.rxBuflen := by omega
    cases hc : isReserved c
    · refine ⟨[c], true, ?_, ?_⟩
      · simp [storeOctet, hc, rxPut_room hr hroom, Ring.pushedAll, ho]
      · refine ⟨by simpa using hroom, ?_⟩
        refine ⟨?_, ?_, ?_, ?_⟩ <;> intros <;> first | omega | simp_all
    · have hp := rxPut_room hr hroom ax25Esc
      have hok := Ring.pushed_ok hr hroom ax25Esc
      by_cases hone : s.rxFifo.count + 1 = s.cfg.rxBuflen
      · refine ⟨[0x1B#8], false, ?_, ?_⟩
        · have h2 := rxPut_full (s := { s with rxFifo := s.rxFifo.pushed s.cfg.rxBuflen ax25Esc }) hone c
          simp only [storeOctet, hc, if_true, hp, andThen_next, h2]
          rfl
        · refine ⟨by simp; omega, ?_⟩
          refine ⟨?_, ?_, ?_, ?_⟩ <;> intros <;> first | omega | simp_all
      · refine ⟨[0x1B#8, c], true, ?_, ?_⟩
        · have h2 := rxPut_room (s := { s with rxFifo := s.rxFifo.pushed s.cfg.rxBuflen ax25Esc }) hok
            (show s.rxFifo.count + 1 < s.cfg.rxBuflen by omega) c
          simp only [storeOctet, hc, if_true, hp, andThen_next, h2, ← ho]
          rfl
        · refine ⟨by simp; omega, ?_⟩
          refine ⟨?_, ?_, ?_, ?_⟩ <;> intros <;> first | omega | simp_all

theorem shape_of_storeOctet {s : State} (hr : s.rxFifo.ok s.cfg.rxBuflen = true)
    (ho : s.hdlcRxstart = true) (c : Octet) : ∃ l b, storeOctet c s =
        .next { s with rxFifo := s.rxFifo.pushedAll s.cfg.rxBuflen l, hdlcRxstart := b } ∧
      s.rxFifo.count + l.length ≤ s.cfg.rxBuflen ∧
      StoredShape (decide (s.rxFifo.count + l.length = s.cfg.rxBuflen)) b l := by
  obtain ⟨l, b, h, hl, h1, h2, h3, h4⟩ := storeOctet_next hr ho c
  obtain ⟨_, _, hle, _⟩ := Ring.ok_iff.mp hr
  refine ⟨l, b, h, hl, ?_⟩
  by_cases hfull : s.rxFifo.count = s.cfg.rxBuflen
  · rw [(h4 hfull).1]; exact .none
  · cases hc : isReserved c
    · rw [(h1 hc (by omega)).1]; exact .plain c hc
    · by_cases hone : s.rxFifo.count + 1 = s.cfg.rxBuflen
      · obtain ⟨e1, e2⟩ := h3 hc hone
        rw [e1, e2]; exact .dangling (by simpa using hone) rfl
      · rw [(h2 hc (by omega)).1]; exact .pair c hc

/-- What one call of the parser leaves: the history shifted, octets stored, and its own registers. -/
def afterHdlc (s : State) (bit : Bool) (l : List Octet) (open' : Bool) (cc bi : Octet) : State :=
  { s with
    demodBits := shiftIn16 s.demodBits bit
    rxFifo := s.rxFifo.pushedAll s.cfg.rxBuflen l
    hdlcRxstart := open'
    hdlcCurrchar := cc
    hdlcBitIdx := bi }

/-- A flag with no room (rules R211, R215). -/
theorem flagCase_full {s : State} (h : s.rxFifo.count = s.cfg.rxBuflen) :
    flagCase s = .next (clearAccumulator { s with hdlcRxstart := false }) := by
  simp only [flagCase, rxPut_full h, andThen_next]

/-- A flag with room (rules R211, R215). -/
theorem flagCase_room {s : State} (hr : s.rxFifo.ok s.cfg.rxBuflen = true)
    (h : s.rxFifo.count < s.cfg.rxBuflen) :
    flagCase s = .next (clearAccumulator
      { s with rxFifo := s.rxFifo.pushed s.cfg.rxBuflen hdlcFlag, hdlcRxstart := true }) := by
  simp only [flagCase, rxPut_room hr h, andThen_next]

/-- Every call of the parser, with the store in its layout: what it stores, what else it changes, and
that the bit counter stays below 8 (rules R210 to R217). -/
theorem hdlcRxOp_next {s : State} (hr : s.rxFifo.ok s.cfg.rxBuflen = true) (hi : s.hdlcBitIdx.toNat ≤ 7)
    (bit : Bool) : ∃ l o cc bi, hdlcRxOp bit s = .next (afterHdlc s bit l o cc bi) ∧
      bi.toNat ≤ 7 ∧ s.rxFifo.count + l.length ≤ s.cfg.rxBuflen ∧
      StoredShape (decide (s.rxFifo.count + l.length = s.cfg.rxBuflen)) o l := by
  obtain ⟨_, _, hle, _⟩ := Ring.ok_iff.mp hr
  simp only [hdlcRxOp]
  split
  · by_cases hfull : s.rxFifo.count = s.cfg.rxBuflen
    · refine ⟨[], false, 0#8, 0#8, ?_, by simp, by simp [hfull], .none⟩
      exact flagCase_full (s := { s with demodBits := shiftIn16 s.demodBits bit }) hfull
    · have hroom : s.rxFifo.count < s.cfg.rxBuflen := by omega
      refine ⟨[0x7E#8], true, 0#8, 0#8, ?_, by simp, hroom, .flag⟩
      exact flagCase_room (s := { s with demodBits := shiftIn16 s.demodBits bit }) hr hroom
  · split
    · exact ⟨[], false, s.hdlcCurrchar, s.hdlcBitIdx, rfl, hi, by simpa using hle, .none⟩
    · split
      · exact ⟨[], s.hdlcRxstart, s.hdlcCurrchar, s.hdlcBitIdx, rfl, hi, by simpa using hle, .none⟩
      · split
        · rename_i ho
          have ho : s.hdlcRxstart = true := ho
          simp only [dataCase]
          split
          · obtain ⟨l, b, h, hl, hs⟩ := shape_of_storeOctet
              (s := { s with
                demodBits := shiftIn16 s.demodBits bit
                hdlcCurrchar := shiftInTop s.hdlcCurrchar bit
                hdlcBitIdx := s.hdlcBitIdx + 1#8 }) hr ho (shiftInTop s.hdlcCurrchar bit)
            refine ⟨l, b, 0#8, 0#8, ?_, by simp, hl, hs⟩
            rw [h]
            rfl
          · rename_i hne
            refine ⟨[], true, shiftInTop s.hdlcCurrchar bit, s.hdlcBitIdx + 1#8, ?_, ?_, by simpa using hle, .none⟩
            · rw [← ho]; rfl
            · have h8 : (s.hdlcBitIdx + 1#8).toNat ≠ 8 := fun h => hne (BitVec.eq_of_toNat_eq h)
              rw [BitVec.toNat_add] at h8 ⊢
              simp at h8 ⊢
              omega
        · exact ⟨[], s.hdlcRxstart, s.hdlcCurrchar, s.hdlcBitIdx, rfl, hi, by simpa using hle, .none⟩

end Sys2Proof.Machine
end

