-- ==== Sys2Proof/Laws/Demod.lean ====
section
/-! SUPPORT. What the stages of an ADC tick can do (rules R180 to R190), said once: the arithmetic is
exact and bounded, and the tick is its stages with the parser last. -/

namespace Sys2Proof.Machine

/-! ## Arithmetic -/

/-- An `s16` register holds every value in its range exactly (rule R14). -/
theorem toS16_toInt {v : Int} (h : -32768 ≤ v) (h' : v ≤ 32767) : (toS16 v).toInt = v := by
  rw [toS16, BitVec.toInt_ofInt]
  exact Int.bmod_eq_of_le (by omega) (by omega)

/-- An `s8` register holds every value in its range exactly (rule R14). -/
theorem toS8_toInt {v : Int} (h : -128 ≤ v) (h' : v ≤ 127) : (toS8 v).toInt = v := by
  rw [toS8, BitVec.toInt_ofInt]
  exact Int.bmod_eq_of_le (by omega) (by omega)

/-- A value below 128 reads the same signed and unsigned. -/
theorem octet_toInt_of_lt {v : Octet} (h : v.toNat < 128) : v.toInt = v.toNat := by
  rw [BitVec.toInt_eq_toNat_of_lt (by omega)]

theorem octet_toNat_of_toInt {v : Octet} (h : 0 ≤ v.toInt) : v.toInt = v.toNat := by
  have hl := v.isLt
  rw [BitVec.toInt_eq_toNat_cond] at h ⊢
  split at h
  · rename_i h1
    rw [if_pos h1]
  · omega

/-- The range of a sample (rule R118). -/
theorem octet_toInt_range (v : Octet) : -128 ≤ v.toInt ∧ v.toInt ≤ 127 := by
  have h1 := BitVec.le_toInt (x := v)
  have h2 := BitVec.toInt_lt (x := v)
  simp at h1 h2
  omega

/-- A quarter of a product of two samples (rule R181). -/
theorem product_range (d x : Octet) :
    -4064 ≤ asr (sampleValue d * sampleValue x) 2 ∧ asr (sampleValue d * sampleValue x) 2 ≤ 4096 := by
  obtain ⟨h1, h2⟩ := octet_toInt_range d
  obtain ⟨h3, h4⟩ := octet_toInt_range x
  have hlo : -16256 ≤ d.toInt * x.toInt := by nlinarith
  have hhi : d.toInt * x.toInt ≤ 16384 := by nlinarith
  simp only [asr, sampleValue]
  omega

/-- The Butterworth step stays in its envelope (rule R26). -/
theorem butterworth_range {a b y : Int} (ha : -4064 ≤ a ∧ a ≤ 4096) (hb : -4064 ≤ b ∧ b ≤ 4096)
    (hy : -23646 ≤ y ∧ y ≤ 23827) : -23646 ≤ butterworth a b y ∧ butterworth a b y ≤ 23827 := by
  simp only [butterworth, asr]
  omega

/-- The Chebyshev step stays in its envelope (rule R26). -/
theorem chebyshev_range {a b y : Int} (ha : -4064 ≤ a ∧ a ≤ 4096) (hb : -4064 ≤ b ∧ b ≤ 4096)
    (hy : -16256 ≤ y ∧ y ≤ 16383) : -16256 ≤ chebyshev a b y ∧ chebyshev a b y ≤ 16383 := by
  simp only [chebyshev, asr]
  omega

/-! ## The stages -/

/-- `DISCRIM` with something in the delay line (rule R181). -/
theorem discrimOp_next {s : State} (h : s.delayFifo.ok 4 = true) (hc : 0 < s.delayFifo.count) (x : Octet) :
    discrimOp x s = .next { s with
      delayFifo := s.delayFifo.popped 4
      iirX0 := s.iirX1
      iirX1 := toS16 (asr (sampleValue (s.delayFifo.buf.read s.delayFifo.head) * sampleValue x) 2) } := by
  have := fifoPop_next (f := .delay) (s := s) h hc
  simp only [discrimOp, this, andThen_next]
  rfl

/-- `DLYPUSH` with room in the delay line (rule R185). -/
theorem dlyPushOp_next {s : State} (h : s.delayFifo.ok 4 = true) (hc : s.delayFifo.count < 4) (x : Octet) :
    dlyPushOp x s = .next { s with delayFifo := s.delayFifo.pushed 4 x } := by
  have := fifoPush_next (f := .delay) (s := s) h hc x
  simp only [dlyPushOp, this]
  rfl

/-- The state of a tick after its clock recovery: everything before the bit decision. -/
def beforeDecision (x : Octet) (s : State) : State :=
  let a := filterOp { s with
    delayFifo := (s.delayFifo.popped 4).pushed 4 x
    iirX0 := s.iirX1
    iirX1 := toS16 (asr (sampleValue (s.delayFifo.buf.read s.delayFifo.head) * sampleValue x) 2) }
  clkRecOp (sliceOp a)

/-- What a filter step writes. -/
theorem filterOp_eq (s : State) :
    filterOp s = { s with iirY0 := s.iirY1, iirY1 := (filterOp s).iirY1 } := by
  cases h : s.cfg.filter <;> simp [filterOp, h, iirBOp, iirCOp]

/-- With the delay line full, a tick is its stages with the parser last (rules R180, R190). -/
theorem adcTickOp_eq {s : State} (h : s.delayFifo.ok 4 = true) (hc : s.delayFifo.count = 4) (x : Octet) :
    adcTickOp x s =
      if (bitDecOp (beforeDecision x s)).1
      then hdlcRxOp (nrziDecOp (bitDecOp (beforeDecision x s)).2) (bitDecOp (beforeDecision x s)).2
      else .next (bitDecOp (beforeDecision x s)).2 := by
  have hpop : (s.delayFifo.popped 4).ok 4 = true := Ring.popped_ok h (by omega)
  have hroom : (s.delayFifo.popped 4).count < 4 := by simp [Ring.popped, hc]
  simp only [adcTickOp, discrimOp_next h (by omega : 0 < s.delayFifo.count) x, andThen_next]
  rw [dlyPushOp_next]
  · have : clkRecOp { sliceOp (filterOp { s with
        delayFifo := s.delayFifo.popped 4
        iirX0 := s.iirX1
        iirX1 := toS16 (asr (sampleValue (s.delayFifo.buf.read s.delayFifo.head) * sampleValue x) 2) }) with
        delayFifo := (s.delayFifo.popped 4).pushed 4 x } = beforeDecision x s := by
      cases hf : s.cfg.filter <;> simp [beforeDecision, filterOp, hf, iirBOp, iirCOp, sliceOp, clkRecOp]
    rw [andThen_next, ← this]
    cases hf : s.cfg.filter <;> simp [filterOp, hf, iirBOp, iirCOp, sliceOp]
  · cases hf : s.cfg.filter <;> simpa [filterOp, hf, iirBOp, iirCOp, sliceOp] using hpop
  · cases hf : s.cfg.filter <;> simpa [filterOp, hf, iirBOp, iirCOp, sliceOp] using hroom

/-- What the stages before the decision write. -/
theorem beforeDecision_frame (x : Octet) (s : State) : beforeDecision x s = { s with
    delayFifo := (s.delayFifo.popped 4).pushed 4 x
    iirX0 := s.iirX1
    iirX1 := (beforeDecision x s).iirX1
    iirY0 := s.iirY1
    iirY1 := (beforeDecision x s).iirY1
    sampledBits := (beforeDecision x s).sampledBits
    currPhase := (beforeDecision x s).currPhase } := by
  cases hf : s.cfg.filter <;> simp [beforeDecision, filterOp, hf, iirBOp, iirCOp, sliceOp, clkRecOp]

/-- What a bit decision writes. -/
theorem bitDecOp_frame (s : State) : (bitDecOp s).2 = { s with
    currPhase := (bitDecOp s).2.currPhase
    foundBits := (bitDecOp s).2.foundBits } := by
  unfold bitDecOp
  split <;> rfl

/-- The phase after clock recovery, from a phase in range (rule R186). -/
theorem clkRecOp_phase {s : State} (h : s.currPhase.toNat ≤ 63) : ∃ n, 7 ≤ n ∧ n ≤ 9 ∧
    (clkRecOp s).currPhase.toNat = s.currPhase.toNat + n ∧ (clkRecOp s).currPhase.toInt = s.currPhase.toNat + n ∧
    (edge s.sampledBits = false → n = 8) ∧
    (edge s.sampledBits = true → s.currPhase.toNat < 32 → n = 9) ∧
    (edge s.sampledBits = true → 32 ≤ s.currPhase.toNat → n = 7) ∧
    8 ≤ s.currPhase.toNat + n ∧ s.currPhase.toNat + n ≤ 71 := by
  have hi := octet_toInt_of_lt (v := s.currPhase) (by omega)
  have key : ∀ k : Nat, k ≤ 72 → (toS8 k).toInt = k ∧ (toS8 k).toNat = k := by
    intro k hk
    have h1 := toS8_toInt (v := k) (by omega) (by omega)
    have h2 := octet_toNat_of_toInt (v := toS8 k) (by omega)
    omega
  cases he : edge s.sampledBits
  · obtain ⟨k1, k2⟩ := key (s.currPhase.toNat + 8) (by omega)
    refine ⟨8, by omega, by omega, ?_, ?_, by simp, by simp, by simp, by omega, by omega⟩
    · rw [← k2]; simp [clkRecOp, he, hi]
    · push_cast at k1 ⊢; rw [← k1]; simp [clkRecOp, he, hi]
  · by_cases hp : s.currPhase.toNat < 32
    · obtain ⟨k1, k2⟩ := key (s.currPhase.toNat + 9) (by omega)
      have e : nudge s.currPhase.toInt + phaseBit = ((s.currPhase.toNat + 9 : Nat) : Int) := by
        rw [nudge, hi, if_pos (by simpa using hp)]; push_cast; simp; omega
      refine ⟨9, by omega, by omega, ?_, ?_, by simp, by simp, by omega, by omega, by omega⟩
      · rw [← k2, ← e]; simp [clkRecOp, he]
      · push_cast at k1 e ⊢; rw [← k1, ← e]; simp [clkRecOp, he]
    · obtain ⟨k1, k2⟩ := key (s.currPhase.toNat + 7) (by omega)
      have e : nudge s.currPhase.toInt + phaseBit = ((s.currPhase.toNat + 7 : Nat) : Int) := by
        rw [nudge, hi, if_neg (by simpa using hp)]; push_cast; simp; omega
      refine ⟨7, by omega, by omega, ?_, ?_, by simp, by omega, by simp, by omega, by omega⟩
      · rw [← k2, ← e]; simp [clkRecOp, he]
      · push_cast at k1 e ⊢; rw [← k1, ← e]; simp [clkRecOp, he]

end Sys2Proof.Machine
end

