-- ==== Sys2Proof/Laws/Facade.lean ====
section
/-! SUPPORT. What one operation of a façade call does (rules R280 to R283), said once. -/

namespace Sys2Proof.Machine

@[simp] theorem callSteps_zero (e : Bool) (c : Call) (s : State) : callSteps e 0 c s = .next (c, s) := rfl

theorem callSteps_succ (e : Bool) (k : Nat) (c : Call) (s : State) :
    callSteps e (k + 1) c s = andThen (callStep e c s) fun p => callSteps e k p.1 p.2 := rfl

@[simp] theorem readFrom_succ (n : Nat) (got : List Octet) : readFrom (n + 1) got = .read .poll n.succ got := rfl

/-- The answer is the value the operation returned. -/
theorem answerOf_append {s t : State} {r : Reply} (h : t.replies = s.replies ++ [r]) :
    answerOf s t = some r := by
  simp [answerOf, h]

@[simp] theorem answerOf_self (s : State) : answerOf s s = none := by simp [answerOf]

/-- A call's step, once its operation's result is known. -/
theorem callStep_next {c : Call} {i : Instr} {s t : State} (hc : c.issues = some i)
    (h : exec i s = .next t) (e : Bool) :
    callStep e c s = .next (c.answer s.cfg.rxTimeoutMs e (answerOf s t), t) := by
  simp only [callStep, hc, h, andThen_next]

/-- `READ` asks whether `rx_fifo` is empty (rule R282). -/
theorem callStep_readPoll {s : State} (hi : s.initialised = true) (e : Bool) (n : Nat)
    (got : List Octet) : callStep e (.read .poll n got) s =
      .next (if fifoIsEmpty .rx s = true then readEmpty s.cfg.rxTimeoutMs e n got else .read .pop n got,
        s.reply (.bit (fifoIsEmpty .rx s))) := by
  have h : exec .rxempty s = .next (s.reply (.bit (fifoIsEmpty .rx s))) := ifInitialised_of_init hi _
  rw [callStep_next rfl h, answerOf_append (r := .bit (fifoIsEmpty .rx s)) rfl]
  simp only [Call.answer, Option.some.injEq, Reply.bit.injEq]

/-- `READ` waits (rule R282). -/
theorem callStep_readRelax {s : State} (hi : s.initialised = true) (e : Bool) (n : Nat)
    (got : List Octet) : callStep e (.read .relax n got) s = .next (.read .poll n got, s) := by
  have h : exec .relax s = .next s := ifInitialised_of_init hi _
  rw [callStep_next rfl h, answerOf_self, Call.answer]

/-- `WRITE` asks whether `tx_fifo` is full (rule R280). -/
theorem callStep_writePoll {s : State} (hi : s.initialised = true) (e : Bool) (todo : List Octet)
    (n : Nat) : callStep e (.write .poll todo n) s =
      .next (.write (if fifoIsFull .tx s = true then .relax else .push) todo n,
        s.reply (.bit (fifoIsFull .tx s))) := by
  have h : exec .txfull s = .next (s.reply (.bit (fifoIsFull .tx s))) := ifInitialised_of_init hi _
  rw [callStep_next rfl h, answerOf_append (r := .bit (fifoIsFull .tx s)) rfl]
  cases fifoIsFull .tx s <;> rfl

/-- `WRITE` waits (rule R280). -/
theorem callStep_writeRelax {s : State} (hi : s.initialised = true) (e : Bool) (todo : List Octet)
    (n : Nat) : callStep e (.write .relax todo n) s = .next (.write .poll todo n, s) := by
  have h : exec .relax s = .next s := ifInitialised_of_init hi _
  rw [callStep_next rfl h, Call.answer]

/-- `WRITE` pushes its next octet (rules R271, R280). -/
theorem callStep_writePush {s : State} (hi : s.initialised = true)
    (hr : s.txFifo.ok s.cfg.txBuflen = true) (hc : s.txFifo.count < s.cfg.txBuflen) (e : Bool)
    (b : Octet) (todo : List Octet) (n : Nat) : callStep e (.write .push (b :: todo) n) s =
      .next (.write .start (b :: todo) n, { s with txFifo := s.txFifo.pushed s.cfg.txBuflen b }) := by
  have hf : fifoIsFull .tx s = false := by
    simp only [fifoIsFull, State.ring, Fifo.cap, beq_eq_false_iff_ne]
    omega
  have h : exec (.txpush b) s = .next { s with txFifo := s.txFifo.pushed s.cfg.txBuflen b } := by
    refine (ifInitialised_of_init hi _).trans ?_
    rw [hf]
    exact fifoPush_next (f := .tx) (s := s) hr hc b
  rw [callStep_next rfl h, Call.answer]

/-- `WRITE` starts the transmitter and goes on to its next octet (rules R270, R280). -/
theorem callStep_writeStart {s : State} (hi : s.initialised = true) (e : Bool) (todo : List Octet)
    (n : Nat) : callStep e (.write .start todo n) s = .next (writeFrom todo.tail n, txStartOp s) := by
  have h : exec .txstart s = .next (txStartOp s) := ifInitialised_of_init hi _
  rw [callStep_next rfl h, Call.answer]

/-- `TXSTART` neither reads nor writes `tx_fifo` or what has been returned (rule R270). -/
theorem txStartOp_setTx (s : State) (r : Ring) (p : List Reply) :
    txStartOp { s with txFifo := r, replies := p } = { txStartOp s with txFifo := r, replies := p } := by
  unfold txStartOp
  by_cases h : s.sending = true <;> simp [h, primeSending, State.emit]

/-- A second `TXSTART` in a row changes nothing (rule R270). -/
theorem txStartOp_twice (s : State) : txStartOp (txStartOp s) = txStartOp s := by
  unfold txStartOp
  by_cases h : s.sending = true <;> simp [h, primeSending, State.emit]

/-- `MODEMINIT` issues `INIT` and returns (rule R283). -/
theorem callStep_modemInit (s : State) (e : Bool) :
    callStep e .modemInit s = andThen (execInit s) fun t => .next (.done .created, t) := rfl

end Sys2Proof.Machine
end

