-- ==== Sys2Proof/Laws/Modulator.lean ====
section
/-! SUPPORT. What the sine table, the phase accumulator and the transmit path can do (rules R162, R164,
R230 to R234), said once. -/

namespace Sys2Proof.Machine

/-! ## The sine table and the accumulator -/

/-- The sample of an admissible table at an index, as a value. -/
def sinValue (c : Config) (idx : Nat) : Octet :=
  let d := (c.sinTable[foldIdx idx]?).getD 0#8
  if 256 ≤ idx then 255#8 - d else d

theorem foldIdx_lt (i : Nat) : foldIdx i < 128 := by
  simp only [foldIdx]
  split <;> omega

/-- What an admissible table satisfies (rules R13, R160). -/
theorem tableOk_iff {t : List Octet} : tableOk t = true ↔
    t.length = 128 ∧ (∀ v ∈ t, 128 ≤ v.toNat) ∧ t[0]? = some 128#8 ∧ t[127]? = some 255#8 := by
  simp only [tableOk, Bool.and_eq_true, Option.isNone_iff_eq_none, List.getElem?_eq_none_iff,
    List.all_eq_true, decide_eq_true_eq, beq_iff_eq, and_assoc, sinQuarter]
  constructor
  · rintro ⟨h1, h2, h3, h4⟩
    obtain ⟨h5, _⟩ := List.getElem?_eq_some_iff.mp h4
    exact ⟨by omega, h2, h3, h4⟩
  · rintro ⟨h1, h2, h3, h4⟩
    exact ⟨by omega, h2, h3, h4⟩

/-- `SINSAMPLE` always answers, and the answer depends on the configuration only. -/
theorem sinSampleOp_next {s : State} (h : tableOk s.cfg.sinTable = true) (idx : Nat) :
    sinSampleOp idx s = .next (sinValue s.cfg idx) := by
  obtain ⟨hl, _⟩ := tableOk_iff.mp h
  have hf := foldIdx_lt idx
  have hg : s.cfg.sinTable[foldIdx idx]? = some s.cfg.sinTable[foldIdx idx] :=
    List.getElem?_eq_getElem (by omega)
  rw [sinSampleOp, memRead_rom hf hg, andThen_next]
  simp [sinValue, hg]

/-- The phase after one more sample (rule R164). -/
def nextPhase (s : State) : Nat := (s.phaseAcc.toNat + s.phaseInc.toNat) % 512

/-- `DDSSTEP` always answers (rule R164). -/
theorem ddsStepOp_next {s : State} (h : tableOk s.cfg.sinTable = true) :
    ddsStepOp s = .next (sinValue s.cfg (nextPhase s),
      { s with phaseAcc := toU16 (nextPhase s)
               events := s.events ++ [.dacWrite (sinValue s.cfg (nextPhase s))] }) := by
  simp only [ddsStepOp, sinSampleOp_next h, andThen_next, nextPhase, sinLen]
  rfl

/-- The state after the per-sample part of a DAC tick (rule R230). -/
def afterSample (s : State) : State :=
  { s with
    phaseAcc := toU16 (nextPhase s)
    events := s.events ++ [.dacWrite (sinValue s.cfg (nextPhase s))]
    sampleCount := s.sampleCount - 1#16 }

theorem dacSample_next {s : State} (h : tableOk s.cfg.sinTable = true) :
    dacSample s = .next (afterSample s) := by
  simp only [dacSample, ddsStepOp_next h, andThen_next]
  rfl

theorem toU16_toNat {n : Nat} (h : n ≤ 65535) : (toU16 n).toNat = n := by
  simp only [toU16, BitVec.toNat_ofNat]
  omega

theorem nextPhase_lt (s : State) : nextPhase s < 512 := Nat.mod_lt _ (by omega)

/-! ## The fetch -/

theorem fifoIsEmpty_tx {s : State} : fifoIsEmpty .tx s = decide (s.txFifo.count = 0) := rfl

/-- The count of ones a fetch starts its octet with (rule R231). -/
def fetchCount (s : State) : Octet := if s.bitStuff then s.stuffCnt else 0#8

/-- Nothing is left to send (rule R231). -/
theorem txFetchOp_idle {s : State} (h : s.txFifo.count = 0) (ht : s.trailerLen = 0#16) :
    txFetchOp s = .next (.stop, stopSending s) := by
  simp [txFetchOp, fifoIsEmpty_tx, h, ht]

/-- A preamble flag (rule R231). -/
theorem txFetchOp_preamble {s : State} (h : ¬ (s.txFifo.count = 0 ∧ s.trailerLen = 0#16))
    (hp : s.preambleLen ≠ 0#16) : txFetchOp s = .next (.goOn, { s with
      stuffCnt := fetchCount s
      bitStuff := false
      preambleLen := s.preambleLen - 1#16
      currOut := hdlcFlag
      txBit := 0x01#8 }) := by
  have hc : (fifoIsEmpty .tx s && s.trailerLen == 0#16) = false := by
    simpa [fifoIsEmpty_tx] using h
  have hp' : (enableStuffing s).preambleLen ≠ 0#16 := by simpa [enableStuffing] using hp
  simp only [txFetchOp, hc, fetchOctet, if_pos hp']
  simp [enableStuffing, resolveOctet, isOutOfBand, startOctet, fetchCount]

/-- A trailer flag (rule R231). -/
theorem txFetchOp_trailer {s : State} (h : s.txFifo.count = 0) (ht : s.trailerLen ≠ 0#16)
    (hp : s.preambleLen = 0#16) : txFetchOp s = .next (.goOn, { s with
      stuffCnt := fetchCount s
      bitStuff := false
      trailerLen := s.trailerLen - 1#16
      currOut := hdlcFlag
      txBit := 0x01#8 }) := by
  have hc : (fifoIsEmpty .tx s && s.trailerLen == 0#16) = false := by
    simp [fifoIsEmpty_tx, h, ht]
  have he : fifoIsEmpty .tx (enableStuffing s) = true := by simp [fifoIsEmpty_tx, enableStuffing, h]
  have hp' : ¬ ((enableStuffing s).preambleLen ≠ 0#16) := by simpa [enableStuffing] using hp
  simp only [txFetchOp, hc, fetchOctet, if_neg hp', he]
  simp [enableStuffing, resolveOctet, isOutOfBand, startOctet, fetchCount]

/-- The state with a queued octet taken out, before escapes are looked at (rule R231). -/
def withQueued (s : State) : State := { s with
  stuffCnt := fetchCount s
  bitStuff := true
  txFifo := s.txFifo.popped s.cfg.txBuflen
  currOut := s.txFifo.buf.read s.txFifo.head }

/-- A queued octet (rule R231). -/
theorem txFetchOp_data {s : State} (hr : s.txFifo.ok s.cfg.txBuflen = true) (h : 0 < s.txFifo.count)
    (hp : s.preambleLen = 0#16) : txFetchOp s = resolveOctet (withQueued s) := by
  have hc : (fifoIsEmpty .tx s && s.trailerLen == 0#16) = false := by
    have : s.txFifo.count ≠ 0 := by omega
    simp [fifoIsEmpty_tx, this]
  have he : fifoIsEmpty .tx (enableStuffing s) = false := by
    have : s.txFifo.count ≠ 0 := by omega
    simp [fifoIsEmpty_tx, enableStuffing, this]
  have hp' : ¬ ((enableStuffing s).preambleLen ≠ 0#16) := by simpa [enableStuffing] using hp
  have hpop := fifoPop_next (f := .tx) (s := enableStuffing s) hr h
  simp only [txFetchOp, hc, fetchOctet, if_neg hp', he, if_true, hpop, andThen_next]
  rfl

/-- A queued octet that is no introducer (rule R231). -/
theorem resolveOctet_plain {s : State} (h : s.currOut ≠ ax25Esc) : resolveOctet s =
    .next (.goOn, { s with
      bitStuff := if isOutOfBand s.currOut then false else s.bitStuff
      txBit := 0x01#8 }) := by
  cases ho : isOutOfBand s.currOut <;> simp only [resolveOctet, if_neg h, ho] <;> rfl

/-- An introducer with nothing behind it (rule R231). -/
theorem resolveOctet_dangling {s : State} (h : s.currOut = ax25Esc) (he : s.txFifo.count = 0) :
    resolveOctet s = .next (.stop, stopSending s) := by
  simp only [resolveOctet, if_pos h, fifoIsEmpty_tx, he, decide_true, if_true]

/-- An introducer with an octet behind it (rule R231). -/
theorem resolveOctet_escaped {s : State} (h : s.currOut = ax25Esc)
    (hr : s.txFifo.ok s.cfg.txBuflen = true) (he : 0 < s.txFifo.count) :
    resolveOctet s = .next (.goOn, { s with
      txFifo := s.txFifo.popped s.cfg.txBuflen
      currOut := s.txFifo.buf.read s.txFifo.head
      txBit := 0x01#8 }) := by
  have hf : fifoIsEmpty .tx s = false := by
    have : s.txFifo.count ≠ 0 := by omega
    simp [fifoIsEmpty_tx, this]
  have hpop := fifoPop_next (f := .tx) (s := s) hr he
  simp only [resolveOctet, if_pos h, hf, hpop, andThen_next]
  rfl

/-- A pop changes the FIFO's ring only (rule R142). -/
theorem fifoPop_tx_frame {s : State} {p : Octet × State} (h : fifoPop .tx s = .next p) :
    p.2 = { s with txFifo := p.2.txFifo } := by
  unfold fifoPop at h
  split at h
  · cases hm : memRead (Fifo.tx).space (s.ring .tx).head s <;> rw [hm] at h <;> cases h
    rfl
  · cases h

/-- What the first part of a fetch can change (rule R231). -/
theorem fetchOctet_frame {s t : State} (h : fetchOctet s = .next t) : t = { s with
    txFifo := t.txFifo
    currOut := t.currOut
    preambleLen := t.preambleLen
    trailerLen := t.trailerLen } := by
  unfold fetchOctet at h
  split at h
  · cases h; rfl
  · split at h
    · cases hp : fifoPop .tx s with
      | next p => rw [hp] at h; cases h; rw [fifoPop_tx_frame hp]
      | fault _ => rw [hp] at h; cases h
      | refused _ => rw [hp] at h; cases h
    · cases h; rfl

/-- What the second part of a fetch can change when it goes on (rule R231). -/
theorem resolveOctet_goOn {s t : State} (h : resolveOctet s = .next (.goOn, t)) : t = { s with
    txFifo := t.txFifo
    currOut := t.currOut
    txBit := 0x01#8
    bitStuff := t.bitStuff } := by
  unfold resolveOctet startOctet at h
  split at h
  · split at h
    · cases h
    · cases hp : fifoPop .tx s with
      | next p => rw [hp] at h; cases h; rw [fifoPop_tx_frame hp]
      | fault _ => rw [hp] at h; cases h
      | refused _ => rw [hp] at h; cases h
  · split at h <;> cases h <;> rfl

/-- What a fetch that goes on can change: the octet, its mask, stuffing, and what it took it from (rule
R231). -/
theorem txFetchOp_goOn {s t : State} (h : txFetchOp s = .next (.goOn, t)) : t = { s with
    txFifo := t.txFifo
    currOut := t.currOut
    txBit := 0x01#8
    bitStuff := t.bitStuff
    stuffCnt := fetchCount s
    preambleLen := t.preambleLen
    trailerLen := t.trailerLen } := by
  unfold txFetchOp at h
  split at h
  · cases h
  · cases ho : fetchOctet (enableStuffing s) with
    | next u =>
      rw [ho] at h
      have hu := fetchOctet_frame ho
      rw [resolveOctet_goOn h, hu]
      rfl
    | fault _ => rw [ho] at h; cases h
    | refused _ => rw [ho] at h; cases h

/-- A fetch that answers `continue` went on, to the state it leaves but for the reply (rule R231). -/
theorem execTxfetch_continue {s w : State} (hi : s.initialised = true) (h : execTxfetch s = .next w)
    (hr : w.replies = s.replies ++ [.fetchContinue]) :
    ∃ t, txFetchOp s = .next (.goOn, t) ∧ t = { w with replies := s.replies } := by
  rw [execTxfetch, ifInitialised_of_init hi] at h
  cases hf : txFetchOp s with
  | next p =>
    obtain ⟨r, t⟩ := p
    rw [hf] at h
    cases h
    cases r with
    | goOn =>
      have ht : t.replies = s.replies := by rw [txFetchOp_goOn hf]
      exact ⟨t, rfl, by rw [← ht]; rfl⟩
    | stop =>
      have := congrArg List.getLast? hr
      simp [State.reply, fetchReply] at this
  | fault _ => rw [hf] at h; cases h
  | refused _ => rw [hf] at h; cases h

end Sys2Proof.Machine
end

