-- ==== Sys2Proof/Laws/PerInstr.lean ====
section
/-! SUPPORT. Families of statements made per instruction (LAWS.json). -/

namespace Sys2Proof.Laws

/-- Family `RowOfOp`: the code of an operation has a row in the table of rule R104, that row's layout
accepts the operation's operand exactly if the operation is well formed, and the row rebuilds the
operation from it. -/
def RowOfOp.Statement (i : Instr) : Prop :=
  ∃ r, lookupOp i.op = some r ∧ r.layout.operandOk i.arg = i.wf ∧ r.build i.arg = i

theorem RowOfOp.init : RowOfOp.Statement .init := ⟨_, rfl, rfl, rfl⟩
theorem RowOfOp.adctick (s : Octet) : RowOfOp.Statement (.adctick s) := ⟨_, rfl, by simp [Instr.arg, Instr.wf], by simp [Instr.arg]⟩
theorem RowOfOp.dactick : RowOfOp.Statement .dactick := ⟨_, rfl, rfl, rfl⟩
theorem RowOfOp.txpush (b : Octet) : RowOfOp.Statement (.txpush b) := ⟨_, rfl, by simp [Instr.arg, Instr.wf], by simp [Instr.arg]⟩
theorem RowOfOp.txstart : RowOfOp.Statement .txstart := ⟨_, rfl, rfl, rfl⟩
theorem RowOfOp.rxpop : RowOfOp.Statement .rxpop := ⟨_, rfl, rfl, rfl⟩
theorem RowOfOp.rxempty : RowOfOp.Statement .rxempty := ⟨_, rfl, rfl, rfl⟩
theorem RowOfOp.txfull : RowOfOp.Statement .txfull := ⟨_, rfl, rfl, rfl⟩
theorem RowOfOp.sending : RowOfOp.Statement .sending := ⟨_, rfl, rfl, rfl⟩
theorem RowOfOp.relax : RowOfOp.Statement .relax := ⟨_, rfl, rfl, rfl⟩
theorem RowOfOp.discrim (s : Octet) : RowOfOp.Statement (.discrim s) := ⟨_, rfl, by simp [Instr.arg, Instr.wf], by simp [Instr.arg]⟩
theorem RowOfOp.iirB : RowOfOp.Statement .iirB := ⟨_, rfl, rfl, rfl⟩
theorem RowOfOp.iirC : RowOfOp.Statement .iirC := ⟨_, rfl, rfl, rfl⟩
theorem RowOfOp.slice : RowOfOp.Statement .slice := ⟨_, rfl, rfl, rfl⟩
theorem RowOfOp.dlypush (s : Octet) : RowOfOp.Statement (.dlypush s) := ⟨_, rfl, by simp [Instr.arg, Instr.wf], by simp [Instr.arg]⟩
theorem RowOfOp.clkrec : RowOfOp.Statement .clkrec := ⟨_, rfl, rfl, rfl⟩
theorem RowOfOp.bitdec : RowOfOp.Statement .bitdec := ⟨_, rfl, rfl, rfl⟩
theorem RowOfOp.nrzidec : RowOfOp.Statement .nrzidec := ⟨_, rfl, rfl, rfl⟩
theorem RowOfOp.hdlcrx (b : Bool) : RowOfOp.Statement (.hdlcrx b) := ⟨_, rfl, by simp [Instr.arg, Instr.wf], by simp [Instr.arg]⟩
theorem RowOfOp.txfetch : RowOfOp.Statement .txfetch := ⟨_, rfl, rfl, rfl⟩
theorem RowOfOp.txbit : RowOfOp.Statement .txbit := ⟨_, rfl, rfl, rfl⟩
theorem RowOfOp.ddsstep : RowOfOp.Statement .ddsstep := ⟨_, rfl, rfl, rfl⟩
theorem RowOfOp.sinsample (x : BitVec 9) : RowOfOp.Statement (.sinsample x) := ⟨_, rfl, by simp [Instr.arg, Instr.wf], by simp [Instr.arg]⟩
theorem RowOfOp.fpush (f : BitVec 2) (v : Octet) : RowOfOp.Statement (.fpush f v) := ⟨_, rfl, by simp [Instr.arg, Instr.wf], by simp [Instr.arg]⟩
theorem RowOfOp.fpop (f : BitVec 2) : RowOfOp.Statement (.fpop f) := ⟨_, rfl, by simp [Instr.arg, Instr.wf], by simp [Instr.arg]⟩
theorem RowOfOp.fempty (f : BitVec 2) : RowOfOp.Statement (.fempty f) := ⟨_, rfl, by simp [Instr.arg, Instr.wf], by simp [Instr.arg]⟩
theorem RowOfOp.ffull (f : BitVec 2) : RowOfOp.Statement (.ffull f) := ⟨_, rfl, by simp [Instr.arg, Instr.wf], by simp [Instr.arg]⟩
theorem RowOfOp.fpushL (f : BitVec 2) (v : Octet) : RowOfOp.Statement (.fpushL f v) := ⟨_, rfl, by simp [Instr.arg, Instr.wf], by simp [Instr.arg]⟩
theorem RowOfOp.fpopL (f : BitVec 2) : RowOfOp.Statement (.fpopL f) := ⟨_, rfl, by simp [Instr.arg, Instr.wf], by simp [Instr.arg]⟩
theorem RowOfOp.femptyL (f : BitVec 2) : RowOfOp.Statement (.femptyL f) := ⟨_, rfl, by simp [Instr.arg, Instr.wf], by simp [Instr.arg]⟩
theorem RowOfOp.ffullL (f : BitVec 2) : RowOfOp.Statement (.ffullL f) := ⟨_, rfl, by simp [Instr.arg, Instr.wf], by simp [Instr.arg]⟩

end Sys2Proof.Laws
end

