-- ==== Sys2Proof/Laws/Safety.lean ====
section
/-! SUPPORT. A check of `Running` on a concrete state, for witnesses. -/

namespace Sys2Proof.Machine

/-- The bounds of rule R26, as a test. -/
def filterRangeCheck (f : Filter) (y : Int) : Bool :=
  match f with
  | .butterworth => decide (-23646 ≤ y) && decide (y ≤ 23827)
  | .chebyshev => decide (-16256 ≤ y) && decide (y ≤ 16383)

theorem filterRangeCheck_iff {f : Filter} {y : Int} : filterRangeCheck f y = true ↔ filterRange f y := by
  cases f <;> simp [filterRangeCheck, filterRange]

/-- The conditions of `Running`, as a test. -/
def runningCheck (s : State) : Bool :=
  s.initialised && s.delayFifo.ok 4 && s.rxFifo.ok s.cfg.rxBuflen && s.txFifo.ok s.cfg.txBuflen &&
  decide (s.delayFifo.count = 4) && decide (s.currPhase.toNat ≤ 63) && decide (s.hdlcBitIdx.toNat ≤ 7) &&
  decide (s.phaseAcc.toNat ≤ 511) && decide (s.sampleCount.toNat + 1 ≤ dacSamplesPerBit s.cfg) &&
  (s.txBit == 0#8 || (List.range 8).any fun k => s.txBit == maskBit k) &&
  decide (s.sending = true → s.phaseInc = markReg s.cfg ∨ s.phaseInc = spaceReg s.cfg) &&
  decide (s.bitStuff = true → s.stuffCnt.toNat ≤ 5) &&
  (s.bitStuff || (List.range 8).all fun k => decide (s.txBit = maskBit k →
    (s.currOut = hdlcFlag ∨ s.currOut = hdlcReset) ∧ s.stuffCnt.toNat ≤ 5 + k)) &&
  decide (s.bitStuff = false → s.txBit = 0#8 → s.stuffCnt = 0#8) &&
  decide (-4064 ≤ s.iirX0.toInt ∧ s.iirX0.toInt ≤ 4096 ∧ -4064 ≤ s.iirX1.toInt ∧ s.iirX1.toInt ≤ 4096) &&
  filterRangeCheck s.cfg.filter s.iirY0.toInt && filterRangeCheck s.cfg.filter s.iirY1.toInt &&
  decide (s.sending = false → s.sampleCount = 0#16 ∧ s.txBit = 0#8)

theorem running_of_check {s : State} (h : runningCheck s = true) : Running s := by
  simp only [runningCheck, Bool.and_eq_true, decide_eq_true_eq, filterRangeCheck_iff, Bool.or_eq_true,
    beq_iff_eq, List.any_eq_true, List.all_eq_true, List.mem_range] at h
  obtain ⟨⟨⟨⟨⟨⟨⟨⟨⟨⟨⟨⟨⟨⟨⟨⟨⟨h1, h2⟩, h3⟩, h4⟩, h5⟩, h6⟩, h7⟩, h8⟩, h9⟩, h10⟩, h11⟩, h12⟩, h13⟩, h14⟩, h15⟩, h16⟩, h17⟩, h18⟩ := h
  refine ⟨h1, ?_, h5, h6, h7, h8, h9, h10, h11, h12, ?_, h14, h15, ⟨h16, h17⟩, h18⟩
  · intro f
    cases f
    · exact h2
    · exact h3
    · exact h4
  · intro hb
    exact h13.resolve_left (by simp [hb])

end Sys2Proof.Machine
end

