-- ==== Sys2Proof/Machine/Assembler.lean ====
section
/-! DEFINITION. The assembler syntax of rule R107: one line of text to the operations it stands for. It is
notation for command words, used by 95_test_vectors.md, and no part of the block. -/

namespace Sys2Proof.Machine

/-- The brackets of the bit list of `HDLCRX`. -/
def openBracket : Char := Char.ofNat 0x7B
/-- Its closing bracket. -/
def closeBracket : Char := Char.ofNat 0x7D

/-- A word just read, if it has any character. -/
def flushWord (acc : List Char) : List (List Char) := if acc.isEmpty then [] else [acc]

/-- The words of a line: separated by spaces and commas, a bracket a word of its own, cut at `;`. -/
def wordsFrom (acc : List Char) (l : List Char) : List (List Char) :=
  match l with
  | [] => flushWord acc
  | c :: rest =>
    if c = ';' then flushWord acc
    else if c = ' ' ∨ c = ',' then flushWord acc ++ wordsFrom [] rest
    else if c = openBracket ∨ c = closeBracket then flushWord acc ++ [c] :: wordsFrom [] rest
    else wordsFrom (acc ++ [c]) rest

/-- The value of a hexadecimal digit. -/
def hexDigit (c : Char) : Option Nat :=
  let n := c.toNat
  if 48 ≤ n ∧ n ≤ 57 then some (n - 48)
  else if 65 ≤ n ∧ n ≤ 70 then some (n - 55)
  else if 97 ≤ n ∧ n ≤ 102 then some (n - 87)
  else none

/-- The value of digits in a base, after `v`. -/
def digitsFrom (base : Nat) (v : Nat) (l : List Char) : Option Nat :=
  match l with
  | [] => some v
  | c :: rest =>
    match hexDigit c with
    | some d => if d < base then digitsFrom base (base * v + d) rest else none
    | none => none

/-- A number in a base: at least one digit. -/
def number (base : Nat) (l : List Char) : Option Nat := if l.isEmpty then none else digitsFrom base 0 l

/-- A value within a bound. -/
def below (n : Nat) (v : Option Nat) : Option Nat := v.filter fun k => decide (k < n)

/-- A sample: a signed decimal number from -128 to 127. -/
def sampleText (l : List Char) : Option Octet :=
  match l with
  | '-' :: digits => (below 129 (number 10 digits)).map fun k => BitVec.ofInt 8 (-(k : Int))
  | digits => (below 128 (number 10 digits)).map fun k => BitVec.ofNat 8 k

/-- An octet: `0x` and hexadecimal digits. -/
def octetText (l : List Char) : Option Octet :=
  match l with
  | '0' :: 'x' :: digits => (below 256 (number 16 digits)).map fun k => BitVec.ofNat 8 k
  | _ => none

/-- A FIFO id: a decimal number (rules R141, R142, examples). -/
def fifoText (l : List Char) : Option (BitVec 2) := (below 4 (number 10 l)).map fun k => BitVec.ofNat 2 k

/-- A line bit. -/
def bitText (l : List Char) : Option Bool :=
  match l with
  | ['0'] => some false
  | ['1'] => some true
  | _ => none

/-- The operand field the operand words of a layout stand for (rules R102, R107). -/
def argText (y : Layout) (ws : List (List Char)) : Option (BitVec 16) :=
  match y, ws with
  | .noOperand, [] => some 0#16
  | .s8, [w] => (sampleText w).map octetArg
  | .u8, [w] => (octetText w).map octetArg
  | .idx9, [w] => (below 512 (number 10 w)).map fun k => idxArg (BitVec.ofNat 9 k)
  | .bit, [w] => (bitText w).map bitArg
  | .fv, [w, v] => (fifoText w).bind fun f => (octetText v).map fun o => fifoArg f o
  | .f, [w] => (fifoText w).map fun f => fifoArg f 0#8
  | _, _ => none

/-- One operation from its mnemonic and operand words. -/
def operationText (m : List Char) (ws : List (List Char)) : Option Instr :=
  (opTable.find? fun r => r.mnemonic == String.ofList m).bind fun r =>
    (argText r.layout ws).bind fun a =>
      match r.operation a with
      | .ok i => some i
      | .error _ => none

/-- A list of results, if each is there. -/
def allSome {α : Type} (l : List (Option α)) : Option (List α) :=
  match l with
  | [] => some []
  | none :: _ => none
  | some a :: rest => (allSome rest).map (a :: ·)

/-- The operations of a mnemonic with its operand words: a bracketed bit list stands for one operation
per bit, left to right. -/
def operationsText (m : List Char) (ws : List (List Char)) : Option (List Instr) :=
  if ws.head? = some [openBracket] ∧ ws.getLast? = some [closeBracket] then
    allSome ((ws.tail.dropLast).map fun w => operationText m [w])
  else (operationText m ws).map fun i => [i]

/-- The count of a final word `*N`. -/
def repeatCount (w : Option (List Char)) : Option Nat :=
  match w with
  | some ('*' :: digits) => number 10 digits
  | _ => none

/-- The operations of one line: none on a line without an operation. -/
def assembleLine (line : String) : Option (List Instr) :=
  match wordsFrom [] line.toList with
  | [] => some []
  | m :: ws =>
    match repeatCount ws.getLast? with
    | some n => (operationsText m ws.dropLast).map fun l => (List.replicate n l).flatten
    | none => operationsText m ws

/-- The operations of a program, line by line. -/
def assemble (lines : List String) : Option (List Instr) :=
  (allSome (lines.map assembleLine)).map List.flatten

end Sys2Proof.Machine
end

