-- ==== Sys2Proof/Tests/Slice0.lean ====
section
/-! SUPPORT. Tests: words written out from the spec's encodings, ill-formed operations, one-step tests
whose expected values are those of the spec's examples and of 95_test_vectors.md, and for every
statement with hypotheses a witness that meets them. -/

namespace Sys2Proof.Tests

open Sys2Proof.Machine

/-! ## Helpers -/

/-- The outcome is a next state with the property. -/
def gives (o : Res State) (p : State → Bool) : Bool :=
  match o with
  | .next t => p t
  | .fault _ => false
  | .refused _ => false

/-- The outcome is that refusal. -/
def refuses (o : Res State) (r : Refusal) : Bool :=
  match o with
  | .next _ => false
  | .fault _ => false
  | .refused q => q == r

theorem gives_next {o : Res State} {p : State → Bool} (h : gives o p = true) :
    ∃ t, o = .next t ∧ p t = true := by
  cases o with
  | next t => exact ⟨t, rfl, h⟩
  | fault _ => exact absurd h (by simp [gives])
  | refused _ => exact absurd h (by simp [gives])

theorem next_of_gives {o : Res State} {p : State → Bool} (h : gives o p = true) : ∃ t, o = .next t :=
  (gives_next h).imp fun _ => And.left

/-- The buffers of 95_test_vectors.md 7.2: `RX_BUFLEN = 4`, `TX_BUFLEN = 2`. -/
def smallConfig : Config := { vectorConfig with rxBuflen := 4, txBuflen := 2 }

/-- A ring that holds a list from index `h` on, in a store of size `n`. -/
def ringAt (n h : Nat) (l : List Octet) : Ring :=
  l.foldl (fun r v => { buf := r.buf.write r.tail v, head := r.head, tail := (r.tail + 1) % n, count := r.count + 1 })
    { buf := [], head := h, tail := h, count := 0 }

/-- After `INIT`, small buffers. -/
def fresh : State := { State.reset with cfg := smallConfig }

/-- In the middle of everything: a bit decision due, a flag octet about to be recognised, a line bit
about to start with a stuffed 0 due; rings that wrap. -/
def mid : State :=
  { fresh with
    delayFifo := ringAt 4 2 [100#8, 0x80#8, 0x7F#8, 0xC4#8]
    rxFifo := ringAt 4 3 [0x7E#8, 0x41#8]
    txFifo := ringAt 2 1 [0x1B#8, 0x7E#8]
    iirX0 := 1920#16
    iirX1 := toS16 (-1905)
    iirY0 := toS16 (-23646)
    iirY1 := 23827#16
    sampledBits := 0x07#8
    foundBits := 0x01#8
    currPhase := 63#8
    demodBits := 0x003F#16
    hdlcRxstart := true
    hdlcCurrchar := 0x20#8
    hdlcBitIdx := 7#8
    currOut := 0x55#8
    txBit := 0x80#8
    phaseAcc := 511#16
    phaseInc := spaceReg smallConfig
    bitStuff := true
    stuffCnt := 5#8
    trailerLen := 3#16
    sending := true }

/-- Between octets, preamble still due. -/
def between : State := { mid with txBit := 0#8, preambleLen := 1#16 }

/-- Not sending, both host FIFOs at their refusing end. -/
def stopped : State :=
  { mid with sending := false, txBit := 0#8, rxFifo := ringAt 4 3 [] }

/-- Before `INIT`, whatever the bits are. -/
def powerOn : State := { mid with initialised := false }

/-! ## Decoding: words written out bit by bit from rules R100, R102 and R104 -/

theorem test_decode_ticks :
    decode 0b000000000000000000000000#24 = .ok .init ∧
    decode 0b000000011001110000000000#24 = .error .badOperand ∧
    decode 0b000000010000000010011100#24 = .ok (.adctick 0x9C#8) ∧
    decode 0b000000100000000000000000#24 = .ok .dactick := by decide

theorem test_decode_host_port :
    decode 0b000100000000000001010101#24 = .ok (.txpush 0x55#8) ∧
    decode 0b000100010000000000000000#24 = .ok .txstart ∧
    decode 0b000100100000000000000000#24 = .ok .rxpop ∧
    decode 0b000100110000000000000000#24 = .ok .rxempty ∧
    decode 0b000101000000000000000000#24 = .ok .txfull ∧
    decode 0b000101010000000000000000#24 = .ok .sending ∧
    decode 0b000101100000000000000000#24 = .ok .relax := by decide

theorem test_decode_demodulator :
    decode 0b001000000000000010000000#24 = .ok (.discrim 0x80#8) ∧
    decode 0b001000010000000000000000#24 = .ok .iirB ∧
    decode 0b001000100000000000000000#24 = .ok .iirC ∧
    decode 0b001000110000000000000000#24 = .ok .slice ∧
    decode 0b001001000000000001100100#24 = .ok (.dlypush 100#8) ∧
    decode 0b001001010000000000000000#24 = .ok .clkrec ∧
    decode 0b001001100000000000000000#24 = .ok .bitdec ∧
    decode 0b001001110000000000000000#24 = .ok .nrzidec ∧
    decode 0b001010000000000000000001#24 = .ok (.hdlcrx true) ∧
    decode 0b001010000000000000000000#24 = .ok (.hdlcrx false) := by decide

theorem test_decode_modulator :
    decode 0b001100000000000000000000#24 = .ok .txfetch ∧
    decode 0b001100010000000000000000#24 = .ok .txbit ∧
    decode 0b001100100000000000000000#24 = .ok .ddsstep ∧
    decode 0b001100110000000110000000#24 = .ok (.sinsample 384#9) := by decide

theorem test_decode_fifo :
    decode 0b010000000000000101010101#24 = .ok (.fpush 1#2 0x55#8) ∧
    decode 0b010000010000001000000000#24 = .ok (.fpop 2#2) ∧
    decode 0b010000100000000000000000#24 = .ok (.fempty 0#2) ∧
    decode 0b010000110000000100000000#24 = .ok (.ffull 1#2) ∧
    decode 0b010001000000001010101010#24 = .ok (.fpushL 2#2 0xAA#8) ∧
    decode 0b010001010000000100000000#24 = .ok (.fpopL 1#2) ∧
    decode 0b010001100000001000000000#24 = .ok (.femptyL 2#2) ∧
    decode 0b010001110000000000000000#24 = .ok (.ffullL 0#2) := by decide

/-- The refused words of 95_test_vectors.md 7.3, with their codes. -/
theorem test_port_refuses :
    decodePort 0x000001#24 = .error .badOperand ∧ decodePort 0x010100#24 = .error .badOperand ∧
    decodePort 0x030000#24 = .error .reservedOp ∧ decodePort 0x100155#24 = .error .badOperand ∧
    decodePort 0x170000#24 = .error .reservedOp ∧ decodePort 0x210000#24 = .error .internalOp ∧
    decodePort 0x280002#24 = .error .badOperand ∧ decodePort 0x400155#24 = .error .internalOp ∧
    decodePort 0x400355#24 = .error .internalOp ∧ decodePort 0xFF0000#24 = .error .reservedOp := by decide

/-- The first and last code of every reserved range of rule R105. -/
theorem test_reserved_codes :
    lookupOp 0x03#8 = none ∧ lookupOp 0x0F#8 = none ∧ lookupOp 0x17#8 = none ∧ lookupOp 0x1F#8 = none ∧
    lookupOp 0x29#8 = none ∧ lookupOp 0x2F#8 = none ∧ lookupOp 0x34#8 = none ∧ lookupOp 0x3F#8 = none ∧
    lookupOp 0x48#8 = none := by
  refine ⟨?_, ?_, ?_, ?_, ?_, ?_, ?_, ?_, ?_⟩ <;> rfl

theorem test_decodeTableWord :
    decodeTableWord 24 0x01009C = some (.adctick 0x9C#8) ∧ decodeTableWord 24 0x470000 = some (.ffullL 0#2) ∧
    decodeTableWord 24 0x410055 = none := by decide

/-! ## Well-formedness: FIFO id 3 in each of the eight operations that carry one -/

theorem test_wf_refuses_fifo_id_3 :
    Instr.wf (.fpush 3#2 0x55#8) = false ∧ Instr.wf (.fpop 3#2) = false ∧
    Instr.wf (.fempty 3#2) = false ∧ Instr.wf (.ffull 3#2) = false ∧
    Instr.wf (.fpushL 3#2 0x55#8) = false ∧ Instr.wf (.fpopL 3#2) = false ∧
    Instr.wf (.femptyL 3#2) = false ∧ Instr.wf (.ffullL 3#2) = false := by decide

theorem test_decode_refuses_fifo_id_3 :
    decode 0x400355#24 = .error .badOperand ∧ decode 0x470300#24 = .error .badOperand := by decide

/-! ## One step on the port -/

/-- Rule R105: an internal code is refused as a command word; so is a reserved one. -/
theorem test_step_refuses :
    refuses (step (fresh.withFetchWord 24 0x210000)) .internalOp = true ∧
    refuses (step (fresh.withFetchWord 24 0x030000)) .reservedOp = true ∧
    refuses (step (fresh.withFetchWord 24 0x100155)) .badOperand = true := by decide

/-- 95_test_vectors.md 7.3, before `INIT`: the lowest code wins. -/
theorem test_step_before_init :
    refuses (step (powerOn.withFetchWord 24 0x100055)) .notInitialised = true ∧
    refuses (step (powerOn.withFetchWord 24 0x100155)) .badOperand = true ∧
    gives (step (powerOn.withFetchWord 24 0x000000)) (fun t => t.initialised) = true := by decide

theorem test_step_runs_word :
    gives (step (fresh.withFetchWord 24 0x100055)) (fun t => t.queue .tx == [0x55#8] && t.pending == []) = true := by
  decide

/-! ## One operation, expected values from the spec -/

/-- Rule R340: a transmission is abandoned with `dac_irq_stop`. -/
theorem test_init : gives (exec .init mid) (fun t => t.queue .delay == [0#8, 0#8, 0#8, 0#8] &&
    t.queue .rx == [] && t.sending == false && t.events == [.dacIrqStop]) = true := by decide

/-- Rule R180, example: after `INIT`, `ADCTICK 100`. -/
theorem test_adctick_first : gives (exec (.adctick 100#8) fresh) (fun t =>
    t.queue .delay == [0#8, 0#8, 0#8, 100#8] && t.currPhase == 8#8) = true := by decide

/-- 95_test_vectors.md 4.2, tick 8 from the row of tick 7. -/
theorem test_adctick_tick8 : gives (exec (.adctick (toS8 (-60)))
    { fresh with
      delayFifo := ringAt 4 0 [0x80#8, 0x80#8, 127#8, 127#8]
      iirX0 := 1587#16, iirX1 := 4032#16, iirY0 := 3408#16, iirY1 := 7855#16
      sampledBits := 0x03#8, currPhase := 63#8 })
    (fun t => t.iirX1 == 1920#16 && t.iirY1 == 11105#16 && t.sampledBits == 0x07#8 &&
      t.currPhase == 7#8 && t.foundBits == 0x01#8 && t.demodBits == 0#16) = true := by decide

/-- Rule R230, example: inside a line bit. -/
theorem test_dactick_inside_bit : gives (exec .dactick
    { mid with sampleCount := 3#16, phaseAcc := 100#16, phaseInc := 64#16 })
    (fun t => t.phaseAcc == 164#16 && t.sampleCount == 2#16) = true := by decide

/-- 95_test_vectors.md T8: nothing queued and no trailer stops on the first tick, preamble unsent. -/
theorem test_dactick_stops : gives (exec .dactick
    { fresh with sending := true, preambleLen := 1#16, phaseInc := 64#16 })
    (fun t => t.sending == false && t.preambleLen == 1#16 && t.events == [.dacIrqStop]) = true := by decide

/-- 95_test_vectors.md 7.2. -/
theorem test_txpush : gives (exec (.txpush 0x1B#8) { fresh with txFifo := ringAt 2 1 [0x55#8] })
    (fun t => t.queue .tx == [0x55#8, 0x1B#8]) = true := by decide
theorem test_txpush_full : refuses (exec (.txpush 0xAA#8) mid) .txFifoFull = true := by decide

/-- Rule R270, example. -/
theorem test_txstart : gives (exec .txstart fresh) (fun t => t.phaseInc == 64#16 &&
    t.preambleLen == 6#16 && t.trailerLen == 3#16 && t.sending && t.events == [.dacIrqStart]) = true := by decide
theorem test_txstart_again : gives (exec .txstart mid) (fun t => t.trailerLen == 3#16 &&
    t.phaseAcc == 511#16 && t.stuffCnt == 5#8 && t.events == []) = true := by decide

/-- Rule R272, example. -/
theorem test_rxpop : gives (exec .rxpop mid)
    (fun t => t.queue .rx == [0x41#8] && t.replies == [.octet 0x7E#8]) = true := by decide
theorem test_rxpop_empty : refuses (exec .rxpop fresh) .rxFifoEmpty = true := by decide

theorem test_rxempty : gives (exec .rxempty fresh) (fun t => t.replies == [.bit true]) = true := by decide
theorem test_txfull : gives (exec .txfull mid) (fun t => t.replies == [.bit true]) = true := by decide
theorem test_sending : gives (exec .sending mid) (fun t => t.replies == [.bit true]) = true := by decide
theorem test_relax : gives (exec .relax mid) (fun t => t == mid) = true := by decide

/-- Rule R181, example: `d = 100`, `s = -128`. -/
theorem test_discrim : gives (exec (.discrim 0x80#8) mid)
    (fun t => t.iirX1.toInt == -3200 && t.iirX0.toInt == -1905) = true := by decide

/-- Rules R182, R183, examples; each shift floors separately. -/
theorem test_iirB : gives (exec .iirB
    { fresh with iirX0 := toS16 (-3200), iirX1 := 3200#16, iirY1 := toS16 (-3200) })
    (fun t => t.iirY1.toInt == -2100 && t.iirY0.toInt == -3200) = true := by decide
theorem test_iirB_floors : gives (exec .iirB { fresh with iirY1 := toS16 (-1) })
    (fun t => t.iirY1.toInt == -3) = true := by decide
theorem test_iirC : gives (exec .iirC
    { fresh with iirX0 := toS16 (-3200), iirX1 := 3200#16, iirY1 := toS16 (-3200) })
    (fun t => t.iirY1.toInt == -1600) = true := by decide
theorem test_iirC_floors : gives (exec .iirC { fresh with iirY1 := toS16 (-23) })
    (fun t => t.iirY1.toInt == -12) = true := by decide

/-- Rule R184, example, and the strict comparison. -/
theorem test_slice : gives (exec .slice { fresh with sampledBits := 0x03#8, iirY1 := 11105#16 })
    (fun t => t.sampledBits == 0x07#8) = true := by decide
theorem test_slice_zero : gives (exec .slice { fresh with sampledBits := 0xFF#8 })
    (fun t => t.sampledBits == 0xFE#8) = true := by decide

/-- Rule R185, example. -/
theorem test_dlypush : gives (exec (.dlypush 100#8) { fresh with delayFifo := ringAt 4 1 [0#8, 0#8, 0#8] })
    (fun t => t.queue .delay == [0#8, 0#8, 0#8, 100#8]) = true := by decide
theorem test_dlypush_full : refuses (exec (.dlypush 100#8) fresh) .fifoFull = true := by decide

/-- Rule R186, corner cases. -/
theorem test_clkrec_down : gives (exec .clkrec { fresh with currPhase := 32#8, sampledBits := 0x01#8 })
    (fun t => t.currPhase == 39#8) = true := by decide
theorem test_clkrec_up : gives (exec .clkrec { fresh with currPhase := 31#8, sampledBits := 0x02#8 })
    (fun t => t.currPhase == 40#8) = true := by decide

/-- 95_test_vectors.md 4.1: vote 1 on `101`; no decision at 63. -/
theorem test_bitdec : gives (exec .bitdec
    { fresh with currPhase := 70#8, sampledBits := 0x05#8, foundBits := 0x81#8 })
    (fun t => t.currPhase == 6#8 && t.foundBits == 0x03#8 && t.replies == [.bit true]) = true := by decide
theorem test_bitdec_not_yet : gives (exec .bitdec { fresh with currPhase := 63#8 })
    (fun t => t.currPhase == 63#8 && t.replies == [.bit false]) = true := by decide

/-- Rule R189, example. -/
theorem test_nrzidec : gives (exec .nrzidec { fresh with foundBits := 0x04#8 })
    (fun t => t.replies == [.bit true]) = true := by decide
theorem test_nrzidec_edge : gives (exec .nrzidec { fresh with foundBits := 0x02#8 })
    (fun t => t.replies == [.bit false]) = true := by decide

/-- Rules R210, R214, examples. -/
theorem test_hdlcrx_flag : gives (exec (.hdlcrx false) { fresh with demodBits := 0x003F#16 })
    (fun t => t.demodBits == 0x007E#16 && t.queue .rx == [0x7E#8] && t.hdlcRxstart) = true := by decide
theorem test_hdlcrx_octet : gives (exec (.hdlcrx true)
    { fresh with hdlcRxstart := true, hdlcCurrchar := 0x20#8, hdlcBitIdx := 7#8 })
    (fun t => t.queue .rx == [0x90#8] && t.hdlcBitIdx == 0#8 && t.hdlcRxstart) = true := by decide

/-- Rule R231, example, and a dangling introducer (T4). -/
theorem test_txfetch_escaped : gives (exec .txfetch { fresh with txFifo := ringAt 2 1 [0x1B#8, 0x7E#8] })
    (fun t => t.currOut == 0x7E#8 && t.bitStuff && t.txBit == 0x01#8 && t.queue .tx == [] &&
      t.replies == [.fetchContinue]) = true := by decide
theorem test_txfetch_dangling : gives (exec .txfetch
    { fresh with txFifo := ringAt 2 1 [0x1B#8], trailerLen := 1#16, sending := true })
    (fun t => t.sending == false && t.trailerLen == 1#16 && t.currOut == 0x1B#8 &&
      t.replies == [.fetchStop]) = true := by decide

/-- Rule R232, example, and the stuffed 0. -/
theorem test_txbit : gives (exec .txbit
    { mid with txBit := 0x02#8, stuffCnt := 1#8, phaseInc := 117#16 })
    (fun t => t.stuffCnt == 0#8 && t.phaseInc == 64#16 && t.txBit == 0x04#8 && t.sampleCount == 8#16) = true := by
  decide
theorem test_txbit_stuffed : gives (exec .txbit mid)
    (fun t => t.stuffCnt == 0#8 && t.phaseInc == 64#16 && t.txBit == 0x80#8) = true := by decide

/-- Rule R164, example. -/
theorem test_ddsstep : gives (exec .ddsstep { fresh with phaseAcc := 448#16, phaseInc := 64#16 })
    (fun t => t.phaseAcc == 0#16 && t.events == [.dacWrite 128#8] && t.replies == [.octet 128#8]) = true := by
  decide

/-- 95_test_vectors.md 7.3. -/
theorem test_sinsample : gives (exec (.sinsample 384#9) fresh) (fun t => t.replies == [.octet 0#8]) = true := by
  decide

/-- 95_test_vectors.md 7.1, `CAP = 2`: steps 2 to 5, on `tx_fifo`. -/
theorem test_fpush : gives (exec (.fpush 2#2 0xCC#8) { fresh with txFifo := ringAt 2 1 [0xBB#8] })
    (fun t => t.queue .tx == [0xBB#8, 0xCC#8] && t.txFifo.head == 1 && t.txFifo.tail == 1 &&
      t.txFifo.count == 2) = true := by decide
theorem test_fpush_full : refuses (exec (.fpush 2#2 0xCC#8) mid) .fifoFull = true := by decide
theorem test_fpop : gives (exec (.fpop 2#2) { fresh with txFifo := ringAt 2 0 [0xAA#8, 0xBB#8] })
    (fun t => t.queue .tx == [0xBB#8] && t.replies == [.octet 0xAA#8]) = true := by decide
theorem test_fpop_empty : refuses (exec (.fpop 1#2) fresh) .fifoEmpty = true := by decide
theorem test_fempty : gives (exec (.fempty 0#2) fresh) (fun t => t.replies == [.bit false]) = true := by decide
theorem test_ffull : gives (exec (.ffull 0#2) fresh) (fun t => t.replies == [.bit true]) = true := by decide
theorem test_fpushL : gives (exec (.fpushL 2#2 0x55#8) fresh) (fun t => t.queue .tx == [0x55#8]) = true := by
  decide
theorem test_fpopL : gives (exec (.fpopL 1#2) mid)
    (fun t => t.queue .rx == [0x41#8] && t.replies == [.octet 0x7E#8]) = true := by decide
theorem test_femptyL : gives (exec (.femptyL 1#2) fresh) (fun t => t.replies == [.bit true]) = true := by decide
theorem test_ffullL : gives (exec (.ffullL 2#2) fresh) (fun t => t.replies == [.bit false]) = true := by decide

/-! ## Build time -/

/-- 00_scope.md rule R11, the values at 9600 Hz, 40 ms and 20 ms; rule R16, ties upward. -/
theorem test_derived_constants :
    markInc vectorConfig = 64 ∧ spaceInc vectorConfig = 117 ∧ dacSamplesPerBit vectorConfig = 8 ∧
    preambleFlags vectorConfig = 6 ∧ trailerFlags vectorConfig = 3 ∧ divRound 1 2 = 1 := by decide

theorem test_small_config_admissible : admissible smallConfig = true := by decide

/-! ## Encodings -/

/-- Rule R115: an introducer with nothing behind it. Rule R114: an unescaped abort octet. -/
theorem test_parse : parseStream [0x7E#8, 0x1B#8, 0x7E#8, 0x7F#8, 0x41#8, 0x1B#8] =
    [.flag, .payload 0x7E#8, .abort, .payload 0x41#8, .dangling] := by decide

/-- 95_test_vectors.md H2: `7E` travels `011111`, a stuffed 0, `10`. -/
theorem test_stuffed : stuffed false [0x7E#8] =
    [false, true, true, true, true, true, false, true, false] := by decide

/-- Rule R107, its own examples. -/
theorem test_assemble :
    assembleLine "ADCTICK -100" = some [.adctick 0x9C#8] ∧
    assembleLine "TXPUSH 0x55 ; a comment" = some [.txpush 0x55#8] ∧
    assembleLine "SINSAMPLE 384" = some [.sinsample 384#9] ∧
    assembleLine "FPUSH 1, 0x55" = some [.fpush 1#2 0x55#8] ∧
    assembleLine "DACTICK *8" = some (List.replicate 8 .dactick) ∧
    assembleLine "; nothing" = some [] ∧ assembleLine "TXPUSH 0x100" = none := by decide

/-- Rule R107: one `HDLCRX` per listed bit, left to right (the brackets have codes 7B and 7D). -/
theorem test_assemble_bits :
    assembleLine ("HDLCRX " ++ String.ofList [openBracket] ++ "0 1 1" ++ String.ofList [closeBracket]) =
      some [.hdlcrx false, .hdlcrx true, .hdlcrx true] := by decide

/-! ## Witnesses: the hypotheses of every statement can be met, clause by clause -/

theorem running_mid : Running mid := running_of_check (by decide)
theorem running_between : Running between := running_of_check (by decide)
theorem running_stopped : Running stopped := running_of_check (by decide)
theorem running_midBit : Running { mid with sampleCount := 7#16 } := running_of_check (by decide)
theorem inv_mid : Inv mid := ⟨by decide, fun _ => running_mid⟩

theorem witness_EncodedOperationDecodesToItself : ∃ i : Instr, i.wf = true :=
  ⟨.fpushL 2#2 0xFF#8, by decide⟩

theorem witness_DecodedWordIsItsOwnEncoding : ∃ (w : CmdWord) (i : Instr), decode w = .ok i :=
  ⟨0x3301FF#24, .sinsample 511#9, by decide⟩

theorem witness_StepPerformsThePresentedOperation :
    ∃ (s : State) (i j : Instr) (rest : List CmdWord), admissible s.cfg = true ∧
      s.pending = encode i :: rest ∧ i.wf = true ∧ i.issuable = true ∧
      j.wf = true ∧ j.issuable = false ∧ (s.withFetchWord 24 0x470200).pending = encode j :: s.pending :=
  ⟨{ mid with pending := [encode .rxpop] }, .rxpop, .ffullL 2#2, [], by decide⟩

theorem witness_StepWithoutAnOperation :
    admissible { smallConfig with abortOnes := 9 } = false ∧ admissible mid.cfg = true ∧ mid.pending = [] ∧
    lookupOp (opField 0x480000#24) = none ∧ decodePort 0x33FFFF#24 = .error .badOperand := by
  refine ⟨by decide, by decide, by decide, rfl, by decide⟩

theorem witness_StepKeepsTheBuildAndOnlyAddsOutput : ∃ t, step (mid.withFetchWord 24 0x020000) = .next t :=
  next_of_gives (p := fun _ => true) (by decide)

theorem witness_StepKeepsTheInvariant :
    ∃ s t, Inv s ∧ s.sending = true ∧ step s = .next t := by
  obtain ⟨t, ht⟩ : ∃ t, step (mid.withFetchWord 24 0x020000) = .next t :=
    next_of_gives (p := fun _ => true) (by decide)
  exact ⟨mid.withFetchWord 24 0x020000, t, ⟨by decide, fun _ => running_of_check (by decide)⟩, rfl, ht⟩

theorem witness_StepFromTheInvariantNeverFaults :
    ∃ (s : State) (_ : Fault), Inv s ∧ s.pending ≠ [] :=
  ⟨mid.withFetchWord 24 0x01009C, .noSuchElement .rom 128,
    ⟨by decide, fun _ => running_of_check (by decide)⟩, by decide⟩

theorem witness_IssuableOperationsRefuseOnlyOnTheirPrecondition :
    admissible mid.cfg = true ∧ Running mid ∧ Running stopped ∧
    Instr.wf (.txpush 0#8) = true ∧ Instr.issuable (.txpush 0#8) = true ∧
    (mid.queue .tx).length = mid.cfg.txBuflen ∧
    Instr.wf .rxpop = true ∧ Instr.issuable .rxpop = true ∧ stopped.queue .rx = [] ∧
    Instr.wf .dactick = true ∧ Instr.issuable .dactick = true ∧ stopped.sending = false :=
  ⟨by decide, running_mid, running_stopped, by decide⟩

theorem witness_BeforeInitOnlyInitHasAStep :
    powerOn.initialised = false ∧ Instr.wf (.fempty 2#2) = true ∧ Instr.fempty 2#2 ≠ .init ∧
    ∃ u : State, u.initialised = false ∧ u.cfg = powerOn.cfg ∧ u.pending = powerOn.pending ∧
      u.events = powerOn.events ∧ u.replies = powerOn.replies ∧ u.foundBits ≠ powerOn.foundBits :=
  ⟨by decide, by decide, by decide, { powerOn with foundBits := 0x80#8 }, by decide⟩

theorem witness_TxstartPrimesOnlyAnIdleTransmitter :
    (stopped.initialised = true ∧ stopped.sending = false) ∧ (mid.initialised = true ∧ mid.sending = true) ∧
    ∃ t, exec .txstart stopped = .next t :=
  ⟨by decide, by decide, next_of_gives (p := fun _ => true) (by decide)⟩

theorem witness_TxpushQueuesOneOctet :
    (fresh.initialised = true ∧ fresh.txFifo.ok fresh.cfg.txBuflen = true ∧
      (fresh.queue .tx).length < fresh.cfg.txBuflen) ∧
    (mid.initialised = true ∧ mid.txFifo.ok mid.cfg.txBuflen = true ∧
      (mid.queue .tx).length = mid.cfg.txBuflen) := by decide

theorem witness_RxpopReturnsTheOldestOctet :
    (mid.initialised = true ∧ mid.rxFifo.ok mid.cfg.rxBuflen = true ∧ mid.queue .rx = [0x7E#8, 0x41#8]) ∧
    (stopped.initialised = true ∧ stopped.rxFifo.ok stopped.cfg.rxBuflen = true ∧
      stopped.queue .rx = []) := by decide

theorem witness_StatusReadsOnlyReturnTheirBit : mid.initialised = true := by decide

theorem witness_HostAnswersStayValid :
    ∃ t u, admissible mid.cfg = true ∧ Running mid ∧ exec (.adctick 1#8) mid = .next t ∧ mid.queue .rx ≠ [] ∧
      admissible between.cfg = true ∧ Running { between with txFifo := ringAt 2 1 [0x41#8] } ∧
      exec .dactick { between with txFifo := ringAt 2 1 [0x41#8] } = .next u ∧
      (State.queue { between with txFifo := ringAt 2 1 [0x41#8] } .tx).length ≠ between.cfg.txBuflen := by
  obtain ⟨t, ht⟩ : ∃ t, exec (.adctick 1#8) mid = .next t := next_of_gives (p := fun _ => true) (by decide)
  obtain ⟨u, hu⟩ : ∃ u, exec .dactick { between with txFifo := ringAt 2 1 [0x41#8] } = .next u :=
    next_of_gives (p := fun _ => true) (by decide)
  exact ⟨t, u, by decide, running_mid, ht, by decide, by decide, running_of_check (by decide), hu, by decide⟩

theorem witness_FpushAppendsToTheQueue :
    (fifoOf 1#2 = some .rx ∧ mid.initialised = true ∧ (mid.ring .rx).ok (Fifo.cap mid.cfg .rx) = true ∧
      (mid.queue .rx).length < Fifo.cap mid.cfg .rx) ∧
    (fifoOf 0#2 = some .delay ∧ (mid.ring .delay).ok (Fifo.cap mid.cfg .delay) = true ∧
      (mid.queue .delay).length = Fifo.cap mid.cfg .delay) := by decide

theorem witness_FpopRemovesTheOldest :
    (fifoOf 2#2 = some .tx ∧ mid.initialised = true ∧ (mid.ring .tx).ok (Fifo.cap mid.cfg .tx) = true ∧
      mid.queue .tx = [0x1B#8, 0x7E#8]) ∧
    (fifoOf 1#2 = some .rx ∧ stopped.initialised = true ∧
      (stopped.ring .rx).ok (Fifo.cap stopped.cfg .rx) = true ∧ stopped.queue .rx = []) := by decide

theorem witness_FifoStatusReadsTheQueue : fifoOf 2#2 = some .tx ∧ mid.initialised = true := by decide

theorem witness_FifoDeliversInOrder :
    fifoOf 1#2 = some .rx ∧ mid.initialised = true ∧ (mid.ring .rx).ok (Fifo.cap mid.cfg .rx) = true ∧
    (mid.queue .rx).length + [1#8, 2#8].length ≤ Fifo.cap mid.cfg .rx := by decide

theorem witness_SinsampleReconstructsTheCycle :
    mid.initialised = true ∧ tableOk mid.cfg.sinTable = true ∧
    mid.cfg.sinTable[(127#9).toNat]? = some 255#8 ∧ mid.cfg.sinTable[255 - (255#9).toNat]? = some 128#8 ∧
    mid.cfg.sinTable[(383#9).toNat - 256]? = some 255#8 ∧ mid.cfg.sinTable[511 - (511#9).toNat]? = some 128#8 := by
  decide

theorem witness_SineHalvesMirrorEachOther :
    mid.initialised = true ∧ tableOk mid.cfg.sinTable = true ∧ (255#9).toNat ≤ 255 ∧ 256 ≤ (256#9).toNat := by
  decide

theorem witness_DdsstepAdvancesThenLooksUp : mid.initialised = true ∧ tableOk mid.cfg.sinTable = true := by
  decide

theorem witness_SwitchToneExchangesTheIncrements :
    admissible smallConfig = true ∧ admissible { smallConfig with dacSamplerate := 1200 } = true := by decide

theorem witness_DiscrimEntersTheDelayedProduct :
    (mid.initialised = true ∧ mid.delayFifo.ok 4 = true ∧
      mid.queue .delay = [100#8, 0x80#8, 0x7F#8, 0xC4#8]) ∧
    State.queue { mid with delayFifo := ringAt 4 3 [] } .delay = [] ∧ (ringAt 4 3 []).ok 4 = true := by decide

/-- Inside a tick: the delay line holds three samples, the filter registers are at their bounds. -/
def inTick : State :=
  { mid with delayFifo := ringAt 4 3 [1#8, 2#8, 3#8], iirX0 := 4096#16, iirX1 := toS16 (-4064) }

theorem witness_FilterStepsAreExactAndBounded :
    (inTick.initialised = true ∧ inTick.queue .delay = [1#8, 2#8, 3#8] ∧ inTick.iirX0.toInt = 4096 ∧
      inTick.iirX1.toInt = -4064 ∧ inTick.iirY1.toInt = 23827 ∧
      filterRange inTick.cfg.filter inTick.iirY1.toInt ∧ inTick.cfg.filter = .butterworth) ∧
    (Running mid ∧ ∃ t, exec (.adctick 1#8) mid = .next t) ∧
    ∃ s, Running s ∧ s.cfg.filter = .chebyshev ∧ s.iirY1.toInt = 16383 :=
  ⟨by refine ⟨?_, ?_, ?_, ?_, ?_, ⟨?_, ?_⟩, ?_⟩ <;> decide,
    ⟨running_mid, next_of_gives (p := fun _ => true) (by decide)⟩,
    { mid with cfg := { smallConfig with filter := .chebyshev }, iirY0 := toS16 (-16256), iirY1 := 16383#16 },
    running_of_check (by decide), rfl, by decide⟩

theorem witness_SliceShiftsInTheSign : mid.initialised = true := by decide

theorem witness_DlypushStoresTheRawSample :
    (mid.initialised = true ∧ (ringAt 4 3 [1#8, 2#8, 3#8]).ok 4 = true ∧
      (State.queue { mid with delayFifo := ringAt 4 3 [1#8, 2#8, 3#8] } .delay).length < 4) ∧
    (mid.delayFifo.ok 4 = true ∧ (mid.queue .delay).length = 4) := by decide

theorem witness_ClkrecNudgesTowardTheThreshold :
    mid.initialised = true ∧ mid.currPhase.toNat = 63 ∧
    (0x07#8).getLsbD 0 = (0x07#8).getLsbD 1 ∧
    (0x02#8).getLsbD 0 ≠ (0x02#8).getLsbD 1 ∧ (31#8).toNat < 32 ∧ 32 ≤ (32#8).toNat := by decide

theorem witness_BitdecShiftsInTheMajority :
    mid.initialised = true ∧ mid.currPhase.toInt < 64 ∧
    64 ≤ (State.currPhase { mid with currPhase := 64#8 }).toInt := by decide

theorem witness_NrzidecComparesTheLastTwoBits : mid.initialised = true := by decide

theorem witness_AdctickIsItsStagesInOrder :
    ∃ s u x t, Running s ∧ s.cfg.filter = .butterworth ∧ exec .clkrec s = .next t ∧ 64 ≤ t.currPhase.toInt ∧
      Running u ∧ u.cfg.filter = .chebyshev ∧ x = (0x80#8 : Octet) := by
  exact ⟨mid, { mid with cfg := { smallConfig with filter := .chebyshev }, iirY0 := 0#16, iirY1 := 0#16 }, _,
    clkRecOp mid, running_mid, rfl, rfl, by decide, running_of_check (by decide), rfl, rfl⟩

theorem witness_DelayLineHoldsTheLastFourSamples : ∃ t, Running mid ∧ exec (.adctick 0x80#8) mid = .next t := by
  obtain ⟨t, ht⟩ : ∃ t, exec (.adctick 0x80#8) mid = .next t := next_of_gives (p := fun _ => true) (by decide)
  exact ⟨t, running_mid, ht⟩

theorem witness_AdctickAdvancesThePhaseBySevenToNine :
    ∃ t, Running mid ∧ exec (.adctick 0x80#8) mid = .next t :=
  witness_DelayLineHoldsTheLastFourSamples

theorem witness_HdlcrxClassifiesTheLineBits :
    mid.initialised = true ∧ mid.rxFifo.ok mid.cfg.rxBuflen = true ∧
    (2 * mid.demodBits.toNat + false.toNat) % 65536 % 256 = 0x7E ∧
    (mid.queue .rx).length < mid.cfg.rxBuflen ∧
    (State.queue { mid with rxFifo := ringAt 4 3 [1#8, 2#8, 3#8, 4#8] } .rx).length = mid.cfg.rxBuflen ∧
    ((2 * 0x7F + true.toNat) % 65536 % 256 ≠ 0x7E ∧
      (2 * 0x7F + true.toNat) % 65536 % 2 ^ mid.cfg.abortOnes = 2 ^ mid.cfg.abortOnes - 1) ∧
    ((2 * 0x5F + false.toNat) % 65536 % 256 ≠ 0x7E ∧
      (2 * 0x5F + false.toNat) % 65536 % 2 ^ mid.cfg.abortOnes ≠ 2 ^ mid.cfg.abortOnes - 1 ∧
      (2 * 0x5F + false.toNat) % 65536 % 64 = 0x3E) ∧
    fresh.hdlcRxstart = false := by decide

theorem witness_HdlcrxAssemblesAndEscapesOctets :
    mid.initialised = true ∧ mid.rxFifo.ok mid.cfg.rxBuflen = true ∧ mid.hdlcRxstart = true ∧
    mid.hdlcBitIdx.toNat = 7 ∧ (State.hdlcBitIdx { mid with hdlcBitIdx := 6#8 }).toNat < 7 ∧
    ((2 * 0 + true.toNat) % 65536 % 256 ≠ 0x7E ∧
      (2 * 0 + true.toNat) % 65536 % 2 ^ mid.cfg.abortOnes ≠ 2 ^ mid.cfg.abortOnes - 1 ∧
      (2 * 0 + true.toNat) % 65536 % 64 ≠ 0x3E) ∧
    (0x90#8).getLsbD 7 = true ∧ (∀ k, k < 7 → (0x90#8).getLsbD k = mid.hdlcCurrchar.getLsbD (k + 1)) ∧
    mid.cfg.rxBuflen - (mid.queue .rx).length = 2 ∧ (0x36#8).getLsbD 0 = false ∧
    (0x1B#8).getLsbD 7 = false ∧ (∀ k, k < 7 → (0x1B#8).getLsbD k = (0x36#8).getLsbD (k + 1)) ∧
    mid.cfg.rxBuflen - (State.queue { mid with rxFifo := ringAt 4 3 [1#8, 2#8, 3#8] } .rx).length = 1 ∧
    mid.cfg.rxBuflen - (State.queue { mid with rxFifo := ringAt 4 3 [1#8, 2#8, 3#8, 4#8] } .rx).length = 0 := by
  decide

theorem witness_ReceiverKeepsTheReadStreamContract :
    ∃ t, Running mid ∧ exec (.hdlcrx false) mid = .next t := by
  obtain ⟨t, ht⟩ : ∃ t, exec (.hdlcrx false) mid = .next t := next_of_gives (p := fun _ => true) (by decide)
  exact ⟨t, running_mid, ht⟩

theorem witness_FramesAreReceivedTransparently :
    ∃ (s : State) (ps : List Octet), admissible s.cfg = true ∧ Running s ∧ s.hdlcRxstart = true ∧
      ps = [0x1B#8, 0xF8#8] ∧ (s.queue .rx).length + (escapeAll ps).length + 10 ≤ s.cfg.rxBuflen :=
  ⟨{ mid with cfg := { smallConfig with rxBuflen := 15, abortOnes := 7 }, rxFifo := ringAt 15 14 [0x7E#8, 0x41#8] },
    _, by decide, running_of_check (by decide), rfl, rfl, by decide⟩

theorem witness_DactickEmitsOneEventWhileSending :
    admissible mid.cfg = true ∧ (Running mid ∧ mid.sending = true) ∧ (Running stopped ∧ stopped.sending = false) :=
  ⟨by decide, ⟨running_mid, rfl⟩, ⟨running_stopped, rfl⟩⟩

theorem witness_DactickIsItsStagesInOrder :
    admissible mid.cfg = true ∧
    (Running { mid with sampleCount := 7#16 } ∧ mid.sending = true) ∧
    (Running mid ∧ mid.sampleCount = 0#16 ∧ mid.txBit ≠ 0#8) ∧
    (Running between ∧ between.sending = true ∧ between.sampleCount = 0#16 ∧ between.txBit = 0#8) ∧
    ∃ w, exec .txfetch between = .next w ∧ w.replies ≠ between.replies ++ [.fetchStop] := by
  refine ⟨by decide, ⟨running_midBit, rfl⟩, ⟨running_mid, rfl, by decide⟩, ⟨running_between, rfl, rfl, rfl⟩, ?_⟩
  exact ⟨_, rfl, by decide⟩

theorem witness_TxfetchStopsWhenNothingIsLeft :
    fresh.initialised = true ∧ fresh.queue .tx = [] ∧ fresh.trailerLen = 0#16 := by decide

theorem witness_TxfetchSendsFlagsAroundTheData :
    (between.initialised = true ∧ ¬ (between.queue .tx = [] ∧ between.trailerLen = 0#16) ∧
      between.preambleLen ≠ 0#16) ∧
    (let s : State := { mid with txFifo := ringAt 2 1 [] }
     s.initialised = true ∧ ¬ (s.queue .tx = [] ∧ s.trailerLen = 0#16) ∧ s.preambleLen = 0#16 ∧
      s.queue .tx = []) := by decide

theorem witness_TxfetchResolvesQueuedOctets :
    (mid.initialised = true ∧ mid.txFifo.ok mid.cfg.txBuflen = true ∧ mid.preambleLen = 0#16 ∧
      mid.queue .tx = 0x1B#8 :: [0x7E#8]) ∧
    ((ringAt 2 1 [0x7E#8]).ok 2 = true ∧ State.queue { mid with txFifo := ringAt 2 1 [0x7E#8] } .tx = 0x7E#8 :: []) ∧
    ((ringAt 2 1 [0x1B#8]).ok 2 = true ∧ State.queue { mid with txFifo := ringAt 2 1 [0x1B#8] } .tx = 0x1B#8 :: []) := by
  decide

theorem witness_TxbitSendsTheBitOrAStuffedZero :
    (mid.initialised = true ∧ mid.bitStuff = true ∧ 5 ≤ mid.stuffCnt.toNat) ∧
    (mid.txBit = maskBit 7 ∧ mid.currOut.getLsbD 7 = false ∧
      ¬ (mid.bitStuff = true ∧ 5 ≤ (State.stuffCnt { mid with stuffCnt := 4#8 }).toNat)) ∧
    ((0x01#8 : Octet) = maskBit 0 ∧ mid.currOut.getLsbD 0 = true) ∧
    (between.txBit = 0#8 ∧ ¬ (fresh.bitStuff = true ∧ 5 ≤ fresh.stuffCnt.toNat)) := by decide

theorem witness_NoSixthOneWhileStuffing :
    ∃ t, Running mid ∧ mid.bitStuff = true ∧ exec .txbit mid = .next t ∧ mid.stuffCnt.toNat = 5 :=
  ⟨_, running_mid, rfl, rfl, by decide⟩

theorem witness_LineBitLastsItsSamples :
    (admissible mid.cfg = true ∧ Running mid ∧ mid.sending = true ∧ mid.sampleCount = 0#16 ∧ mid.txBit ≠ 0#8) ∧
    (admissible between.cfg = true ∧ Running between ∧ between.sending = true ∧ between.sampleCount = 0#16 ∧
      between.txBit = 0#8 ∧ ∃ w, exec .txfetch between = .next w ∧
        w.replies = between.replies ++ [.fetchContinue]) := by
  obtain ⟨w, hw, hr⟩ := gives_next (o := exec .txfetch between)
    (p := fun w => decide (w.replies = between.replies ++ [.fetchContinue])) (by decide)
  exact ⟨⟨by decide, running_mid, rfl, rfl, by decide⟩,
    by decide, running_of_check (by decide), rfl, rfl, rfl, w, hw, of_decide_eq_true hr⟩

theorem witness_AgentsWriteOnlyWhatTheyOwn :
    (∃ t, exec (.adctick 1#8) mid = .next t ∧ Instr.presenter (.adctick 1#8) = .adc) ∧
    (∃ t, exec (.hdlcrx true) mid = .next t ∧ Instr.presenter (.hdlcrx true) = .adcOrHost) ∧
    (∃ t, exec .txfetch stopped = .next t ∧ Instr.presenter .txfetch = .dac ∧ stopped.sending = false) ∧
    (∃ t, exec (.sinsample 511#9) mid = .next t ∧ Instr.presenter (.sinsample 511#9) = .dacOrHost) ∧
    (∃ t, exec .txstart mid = .next t ∧ Instr.presenter .txstart = .host ∧ Instr.txstart ≠ .init ∧
      Instr.issuable .txstart = true ∧ mid.sending = true) := by
  obtain ⟨a, ha⟩ : ∃ t, exec (.adctick 1#8) mid = .next t := next_of_gives (p := fun _ => true) (by decide)
  obtain ⟨b, hb⟩ : ∃ t, exec (.hdlcrx true) mid = .next t := next_of_gives (p := fun _ => true) (by decide)
  obtain ⟨c, hc⟩ : ∃ t, exec .txfetch stopped = .next t := next_of_gives (p := fun _ => true) (by decide)
  obtain ⟨d, hd⟩ : ∃ t, exec (.sinsample 511#9) mid = .next t := next_of_gives (p := fun _ => true) (by decide)
  obtain ⟨e, he⟩ : ∃ t, exec .txstart mid = .next t := next_of_gives (p := fun _ => true) (by decide)
  exact ⟨⟨a, ha, by decide⟩, ⟨b, hb, by decide⟩, ⟨c, hc, by decide, rfl⟩, ⟨d, hd, by decide⟩,
    ⟨e, he, by decide, by decide, by decide, rfl⟩⟩

theorem witness_AdcAndDacTicksCommute :
    ∃ a b, admissible mid.cfg = true ∧ Running mid ∧ exec (.adctick 0x80#8) mid = .next a ∧
      exec .dactick mid = .next b := by
  obtain ⟨a, ha⟩ : ∃ t, exec (.adctick 0x80#8) mid = .next t := next_of_gives (p := fun _ => true) (by decide)
  obtain ⟨b, hb⟩ : ∃ t, exec .dactick mid = .next t := next_of_gives (p := fun _ => true) (by decide)
  exact ⟨a, b, by decide, running_mid, ha, hb⟩

theorem witness_InterleavingOfTicksDoesNotMatter :
    ∃ (p q : List Instr), p ≠ q ∧ admissible mid.cfg = true ∧ Running mid ∧
      (∀ i, i ∈ p ++ q → i = .dactick ∨ ∃ x, i = .adctick x) ∧
      p.filter (fun i => decide (i ≠ .dactick)) = q.filter (fun i => decide (i ≠ .dactick)) ∧
      p.count .dactick = q.count .dactick :=
  ⟨[.adctick 1#8, .dactick, .adctick 2#8], [.dactick, .adctick 1#8, .adctick 2#8], by decide, by decide,
    running_mid, by
      intro i hi
      simp only [List.mem_append, List.mem_cons, List.not_mem_nil, or_false] at hi
      rcases hi with (h | h | h) | h | h | h <;> subst h <;> simp, by decide, by decide⟩

theorem witness_FlushWaitsForTheTransmitter :
    (stopped.initialised = true ∧ stopped.sending = false) ∧ (mid.initialised = true ∧ mid.sending = true) := by
  decide

theorem witness_ReadDeliversWhatIsQueued :
    (mid.initialised = true ∧ mid.rxFifo.ok mid.cfg.rxBuflen = true ∧ 2 ≤ (mid.queue .rx).length ∧
      (mid.queue .rx).length < 3 ∧ mid.cfg.rxTimeoutMs = 0) ∧
    (stopped.initialised = true ∧ stopped.rxFifo.ok stopped.cfg.rxBuflen = true ∧ stopped.queue .rx = [] ∧
      stopped.cfg.rxTimeoutMs = 0 ∧ 0 < ({ smallConfig with rxTimeoutMs := 1 } : Config).rxTimeoutMs ∧
      ({ smallConfig with rxTimeoutMs := -1 } : Config).rxTimeoutMs < 0) := by decide

theorem witness_WriteQueuesItsOctetsAndStarts :
    (fresh.initialised = true ∧ fresh.txFifo.ok fresh.cfg.txBuflen = true ∧
      [1#8, 2#8].length ≤ fresh.cfg.txBuflen - (fresh.queue .tx).length ∧
      fresh.cfg.txBuflen - (fresh.queue .tx).length < [1#8, 2#8, 3#8].length) ∧
    (mid.txFifo.ok mid.cfg.txBuflen = true ∧ [1#8, 2#8] ≠ ([] : List Octet) ∧
      (mid.queue .tx).length = mid.cfg.txBuflen) := by decide

theorem witness_DivRoundIsNearestHalfUp : ∃ b : Nat, 0 < b := ⟨1, by decide⟩

end Sys2Proof.Tests
end

/-! PROOFS. The family of 00_scope.md: `DIV_ROUND` and the tone increments (rules R11, R12, R16, R165), and what
every step keeps of the build and of the boundary (rules R10, R57, log entry 3). -/

namespace Sys2Proof.Machine

/-! ## `DIV_ROUND` and the increments -/

/-- The quotient of rule R16, bounded from both sides without a division. -/
theorem divRound_bounds (a : Nat) {b : Nat} (hb : 0 < b) :
    2 * b * divRound a b ≤ 2 * a + b ∧ 2 * a + b < 2 * b * (divRound a b + 1) := by
  have hle : b * divRound a b ≤ a + b / 2 := Nat.mul_div_le _ _
  have hlt : a + b / 2 < b * (divRound a b + 1) := Nat.lt_mul_div_succ _ hb
  rw [Nat.mul_assoc, Nat.mul_assoc]
  omega

/-- Settles O58: both sides are the bounds of the floor of `(a + b / 2) / b`, doubled. -/
theorem divRoundIsNearestHalfUp : Obligations.DivRoundIsNearestHalfUp :=
  fun a _ hb => divRound_bounds a hb

theorem divRound_le {a b q : Nat} (hb : 0 < b) (h : 2 * a + b < 2 * b * (q + 1)) : divRound a b ≤ q :=
  Nat.le_of_lt_succ (Nat.lt_of_mul_lt_mul_left ((divRound_bounds a hb).1.trans_lt h))

/-- The least admissible sample rate is one sample per bit (rules R10, R12). -/
theorem bitRate_le_dacSamplerate {c : Config} (h : admissible c = true) : 1200 ≤ c.dacSamplerate := by
  obtain ⟨_, _, hpos, hmod, _⟩ := admissible_iff.mp h
  omega

theorem markInc_le {c : Config} (h : admissible c = true) : markInc c ≤ 512 := by
  have hrate := bitRate_le_dacSamplerate h
  exact divRound_le (by omega) (by simp only [sinLen, markFreq]; omega)

theorem spaceInc_le {c : Config} (h : admissible c = true) : spaceInc c ≤ 939 := by
  have hrate := bitRate_le_dacSamplerate h
  exact divRound_le (by omega) (by simp only [sinLen, spaceFreq]; omega)

theorem markReg_toNat {c : Config} (h : admissible c = true) : (markReg c).toNat = markInc c :=
  toU16_toNat ((markInc_le h).trans (by decide))

theorem spaceReg_toNat {c : Config} (h : admissible c = true) : (spaceReg c).toNat = spaceInc c :=
  toU16_toNat ((spaceInc_le h).trans (by decide))

/-- The registers inherit the distinctness rule R12 demands of the increments, as neither is truncated. -/
theorem markReg_ne_spaceReg {c : Config} (h : admissible c = true) : markReg c ≠ spaceReg c := by
  obtain ⟨_, _, _, _, _, hne, _⟩ := admissible_iff.mp h
  intro he
  exact hne (by rw [← markReg_toNat h, he, spaceReg_toNat h])

theorem switchTone_markReg (c : Config) : switchTone c (markReg c) = spaceReg c := if_pos rfl

theorem switchTone_of_ne {c : Config} {p : Reg16} (h : p ≠ markReg c) : switchTone c p = markReg c := if_neg h

/-- Settles O27: the sample rate is at least 1200, which bounds the increments below the register's range. -/
theorem switchToneExchangesTheIncrements : Obligations.SwitchToneExchangesTheIncrements :=
  fun c h => ⟨markInc_le h, spaceInc_le h, markReg_toNat h, spaceReg_toNat h, markReg_ne_spaceReg h,
    switchTone_markReg c, switchTone_of_ne (markReg_ne_spaceReg h).symm⟩

/-! ## What an operation does to the build and the boundary -/

/-- `t` has the build and the presented words of `s`, and all of its output first (rules R10, R57, log entry 3). -/
structure OnlyAddsOutput (s t : State) : Prop where
  cfg : t.cfg = s.cfg
  pending : t.pending = s.pending
  events : s.events <+: t.events
  replies : s.replies <+: t.replies

namespace OnlyAddsOutput

/-- A write of registers and FIFOs alone. -/
theorem of_same {s t : State} (hc : t.cfg = s.cfg) (hp : t.pending = s.pending) (he : t.events = s.events)
    (hr : t.replies = s.replies) : OnlyAddsOutput s t :=
  ⟨hc, hp, he ▸ List.prefix_rfl, hr ▸ List.prefix_rfl⟩

theorem refl (s : State) : OnlyAddsOutput s s := of_same rfl rfl rfl rfl

theorem trans {s t u : State} (h : OnlyAddsOutput s t) (h' : OnlyAddsOutput t u) : OnlyAddsOutput s u :=
  ⟨h'.cfg.trans h.cfg, h'.pending.trans h.pending, h.events.trans h'.events, h.replies.trans h'.replies⟩

theorem setRing (s : State) (f : Fifo) (r : Ring) : OnlyAddsOutput s (s.setRing f r) :=
  of_same (setRing_cfg s f r) (setRing_pending s f r) (setRing_events s f r) (setRing_replies s f r)

theorem emit (s : State) (e : Event) : OnlyAddsOutput s (s.emit e) :=
  ⟨rfl, rfl, List.prefix_append _ _, List.prefix_rfl⟩

theorem reply (s : State) (v : Reply) : OnlyAddsOutput s (s.reply v) :=
  ⟨rfl, rfl, List.prefix_rfl, List.prefix_append _ _⟩

end OnlyAddsOutput

/-- A result from `s` that, if there is one, holds a state (read off by `get`) that only adds output. -/
def Adds {α : Type} (get : α → State) (s : State) (o : Res α) : Prop :=
  ∀ a, o = .next a → OnlyAddsOutput s (get a)

namespace Adds

variable {α β : Type} {get : α → State} {get' : β → State} {s : State}

theorem next {a : α} (h : OnlyAddsOutput s (get a)) : Adds get s (.next a) := by
  intro b hb
  cases hb
  exact h

theorem fault (f : Fault) : Adds get s (.fault f) := nofun

theorem refused (r : Refusal) : Adds get s (.refused r) := nofun

theorem ite {p : Prop} [Decidable p] {o o' : Res α} (h : Adds get s o) (h' : Adds get s o') :
    Adds get s (if p then o else o') := by
  split
  · exact h
  · exact h'

/-- What only adds to a state that only added. -/
theorem after {t : State} {o : Res α} (h : Adds get t o) (h' : OnlyAddsOutput s t) : Adds get s o :=
  fun a ha => h'.trans (h a ha)

theorem andThen {o : Res α} {k : α → Res β} (h : Adds get s o) (h' : ∀ a, Adds get' (get a) (k a)) :
    Adds get' s (andThen o k) := by
  intro b hb
  obtain ⟨a, ha, hk⟩ := andThen_eq_next.mp hb
  exact (h a ha).trans (h' a b hk)

/-- A result without a state, read off `s`, ahead of one that only adds to `s`. -/
theorem andThen_value {o : Res α} {k : α → Res β} (h : ∀ a, Adds get' s (k a)) :
    Adds get' s (Machine.andThen o k) :=
  andThen (get := fun _ => s) (fun _ _ => .refl s) h

theorem ifInitialised {o : Res State} (h : Adds id s o) : Adds id s (ifInitialised s o) :=
  ite h (refused _)

theorem onFifo {f : BitVec 2} {k : Fifo → Res State} (h : ∀ g, Adds id s (k g)) : Adds id s (onFifo f k) := by
  unfold Machine.onFifo
  split
  · exact h _
  · exact refused _

end Adds

/-! ### FIFOs -/

theorem memWrite_adds (f : Fifo) (i : Nat) (v : Octet) (s : State) : Adds id s (memWrite f i v s) :=
  .ite (.next (.setRing s f _)) (.fault _)

theorem fifoPush_adds (f : Fifo) (v : Octet) (s : State) : Adds id s (fifoPush f v s) :=
  .ite (.andThen (memWrite_adds f _ v s) fun t => .next (.setRing t f _)) (.refused _)

theorem fifoPop_adds (f : Fifo) (s : State) : Adds Prod.snd s (fifoPop f s) :=
  .ite (.andThen_value fun _ => .next (.setRing s f _)) (.refused _)

/-- A pop whose element is the operation's reply. -/
theorem fifoPop_reply_adds (f : Fifo) (s : State) :
    Adds id s (andThen (fifoPop f s) fun p => .next (p.2.reply (.octet p.1))) :=
  .andThen (fifoPop_adds f s) fun p => .next (.reply p.2 _)

/-- An operation that only replies. -/
theorem reply_adds (s : State) (v : Reply) : Adds id s (ifInitialised s (.next (s.reply v))) :=
  .ifInitialised (.next (.reply s v))

theorem pushOp_adds (g : Fifo) (v : Octet) (s : State) : Adds id s (pushOp g v s) :=
  .ifInitialised (fifoPush_adds g v s)

theorem popOp_adds (g : Fifo) (s : State) : Adds id s (popOp g s) :=
  .ifInitialised (fifoPop_reply_adds g s)

/-! ### The receive parser -/

theorem rxPut_adds (b : Octet) (s : State) : Adds Prod.snd s (rxPut b s) :=
  .ite (.next (.of_same rfl rfl rfl rfl)) (.andThen (fifoPush_adds .rx b s) fun t => .next (.refl t))

theorem flagCase_adds (s : State) : Adds id s (flagCase s) :=
  .andThen (rxPut_adds hdlcFlag s) fun _ => .next (.of_same rfl rfl rfl rfl)

theorem storeOctet_adds (c : Octet) (s : State) : Adds id s (storeOctet c s) :=
  .andThen (.ite (rxPut_adds ax25Esc s) (.next (.refl s))) fun p =>
    .ite (.andThen (rxPut_adds c p.2) fun q => .next (.refl q.2)) (.next (.refl p.2))

theorem dataCase_adds (b : Bool) (s : State) : Adds id s (dataCase b s) :=
  .ite
    (.andThen ((storeOctet_adds _ _).after (.of_same rfl rfl rfl rfl)) fun _ => .next (.of_same rfl rfl rfl rfl))
    (.next (.of_same rfl rfl rfl rfl))

theorem hdlcRxOp_adds (b : Bool) (s : State) : Adds id s (hdlcRxOp b s) :=
  .ite ((flagCase_adds _).after (.of_same rfl rfl rfl rfl))
    (.ite (.next (.of_same rfl rfl rfl rfl))
      (.ite (.next (.of_same rfl rfl rfl rfl))
        (.ite ((dataCase_adds b _).after (.of_same rfl rfl rfl rfl)) (.next (.of_same rfl rfl rfl rfl)))))

/-! ### The demodulator -/

theorem discrimOp_adds (x : Octet) (s : State) : Adds id s (discrimOp x s) :=
  .andThen (fifoPop_adds .delay s) fun _ => .next (.of_same rfl rfl rfl rfl)

theorem filterOp_onlyAdds (s : State) : OnlyAddsOutput s (filterOp s) := by
  rw [filterOp_eq]
  exact .of_same rfl rfl rfl rfl

theorem bitDecOp_onlyAdds (s : State) : OnlyAddsOutput s (bitDecOp s).2 := by
  rw [bitDecOp_frame]
  exact .of_same rfl rfl rfl rfl

theorem sliceOp_onlyAdds (s : State) : OnlyAddsOutput s (sliceOp s) := .of_same rfl rfl rfl rfl

theorem clkRecOp_onlyAdds (s : State) : OnlyAddsOutput s (clkRecOp s) := .of_same rfl rfl rfl rfl

theorem adcTickOp_adds (x : Octet) (s : State) : Adds id s (adcTickOp x s) :=
  .andThen (discrimOp_adds x s) fun a =>
    .andThen ((fifoPush_adds .delay x _).after ((filterOp_onlyAdds a).trans (sliceOp_onlyAdds _))) fun b =>
      have decided := (clkRecOp_onlyAdds b).trans (bitDecOp_onlyAdds _)
      .ite ((hdlcRxOp_adds _ _).after decided) (.next decided)

/-! ### The modulator -/

theorem ddsStepOp_adds (s : State) : Adds Prod.snd s (ddsStepOp s) :=
  .andThen_value fun _ => .next ⟨rfl, rfl, List.prefix_append _ _, List.prefix_rfl⟩

theorem stopSending_onlyAdds (s : State) : OnlyAddsOutput s (stopSending s) :=
  (OnlyAddsOutput.emit s .dacIrqStop).trans (.of_same rfl rfl rfl rfl)

theorem fetchOctet_adds (s : State) : Adds id s (fetchOctet s) := by
  intro t h
  rw [fetchOctet_frame h]
  exact .of_same rfl rfl rfl rfl

theorem resolveOctet_adds (s : State) : Adds Prod.snd s (resolveOctet s) :=
  .ite
    (.ite (.next (stopSending_onlyAdds s))
      (.andThen (fifoPop_adds .tx s) fun _ => .next (.of_same rfl rfl rfl rfl)))
    (.ite (.next (.of_same rfl rfl rfl rfl)) (.next (.of_same rfl rfl rfl rfl)))

theorem txFetchOp_adds (s : State) : Adds Prod.snd s (txFetchOp s) :=
  .ite (.next (stopSending_onlyAdds s))
    (.andThen (get := id) ((fetchOctet_adds (enableStuffing s)).after (.of_same rfl rfl rfl rfl))
      resolveOctet_adds)

/-- `TXBIT` writes its registers alone, whichever bit it sends. -/
theorem txBitOp_onlyAdds (s : State) : OnlyAddsOutput s (txBitOp s) := by
  unfold txBitOp
  split
  · exact .of_same rfl rfl rfl rfl
  · split <;> exact .of_same rfl rfl rfl rfl

theorem dacSample_adds (s : State) : Adds id s (dacSample s) :=
  .andThen (ddsStepOp_adds s) fun _ => .next (.of_same rfl rfl rfl rfl)

theorem txBit_dacSample_adds (s : State) : Adds id s (dacSample (txBitOp s)) :=
  (dacSample_adds _).after (txBitOp_onlyAdds s)

theorem dacTickOp_adds (s : State) : Adds id s (dacTickOp s) :=
  .ite (.refused _)
    (.ite
      (.ite
        (.andThen (txFetchOp_adds s) fun
          | (.stop, t) => .next (.refl t)
          | (.goOn, t) => txBit_dacSample_adds t)
        (txBit_dacSample_adds s))
      (dacSample_adds s))

/-! ### The host port -/

theorem execInit_adds (s : State) : Adds id s (execInit s) := by
  unfold execInit
  split
  · exact .next ((OnlyAddsOutput.emit s .dacIrqStop).trans (.of_same rfl rfl rfl rfl))
  · exact .next (.of_same rfl rfl rfl rfl)

theorem txStartOp_onlyAdds (s : State) : OnlyAddsOutput s (txStartOp s) := by
  unfold txStartOp
  split
  · exact .of_same rfl rfl rfl rfl
  · exact (OnlyAddsOutput.emit s .dacIrqStart).trans (.of_same rfl rfl rfl rfl)

/-! ### Every operation, and the step -/

/-- No operation writes the configuration or the presented words, and none takes output back. -/
theorem exec_adds (i : Instr) (s : State) : Adds id s (exec i s) :=
  match i with
  | .init => execInit_adds s
  | .adctick x => .ifInitialised (adcTickOp_adds x s)
  | .dactick => .ifInitialised (dacTickOp_adds s)
  | .txpush b => .ifInitialised (.ite (.refused _) (fifoPush_adds .tx b s))
  | .txstart => .ifInitialised (.next (txStartOp_onlyAdds s))
  | .rxpop => .ifInitialised (.ite (.refused _) (fifoPop_reply_adds .rx s))
  | .rxempty => reply_adds s _
  | .txfull => reply_adds s _
  | .sending => reply_adds s _
  | .relax => .ifInitialised (.next (.refl s))
  | .discrim x => .ifInitialised (discrimOp_adds x s)
  | .iirB => .ifInitialised (.next (.of_same rfl rfl rfl rfl))
  | .iirC => .ifInitialised (.next (.of_same rfl rfl rfl rfl))
  | .slice => .ifInitialised (.next (sliceOp_onlyAdds s))
  | .dlypush x => .ifInitialised (fifoPush_adds .delay x s)
  | .clkrec => .ifInitialised (.next (clkRecOp_onlyAdds s))
  | .bitdec => .ifInitialised (.next ((bitDecOp_onlyAdds s).trans (.reply _ _)))
  | .nrzidec => reply_adds s _
  | .hdlcrx b => .ifInitialised (hdlcRxOp_adds b s)
  | .txfetch => .ifInitialised (.andThen (txFetchOp_adds s) fun p => .next (.reply p.2 _))
  | .txbit => .ifInitialised (.next (txBitOp_onlyAdds s))
  | .ddsstep => .ifInitialised (.andThen (ddsStepOp_adds s) fun p => .next (.reply p.2 _))
  | .sinsample _ => .ifInitialised (.andThen_value fun _ => .next (.reply s _))
  | .fpush _ v => .onFifo fun g => pushOp_adds g v s
  | .fpop _ => .onFifo fun g => popOp_adds g s
  | .fempty _ => .onFifo fun _ => reply_adds s _
  | .ffull _ => .onFifo fun _ => reply_adds s _
  | .fpushL _ v => .onFifo fun g => pushOp_adds g v s
  | .fpopL _ => .onFifo fun g => popOp_adds g s
  | .femptyL _ => .onFifo fun _ => reply_adds s _
  | .ffullL _ => .onFifo fun _ => reply_adds s _

theorem present_adds (w : CmdWord) (s : State) : Adds id s (present w s) := by
  unfold present
  split
  · exact .refused _
  · exact exec_adds _ s

/-- A step, seen from the state without its first presented word. -/
theorem step_onlyAdds {s t : State} (h : step s = .next t) :
    OnlyAddsOutput { s with pending := s.pending.tail } t := by
  unfold step at h
  split at h
  · split at h
    next hp =>
      cases h
      exact .of_same rfl (by simp [hp]) rfl rfl
    next w rest hp =>
      rw [hp]
      exact present_adds w { s with pending := rest } t h
  · cases h

/-- Settles O7: no operation writes the build or the port, and each only appends output. -/
theorem stepKeepsTheBuildAndOnlyAddsOutput : Obligations.StepKeepsTheBuildAndOnlyAddsOutput := by
  intro s t h
  obtain ⟨hcfg, hpending, ⟨e, he⟩, ⟨r, hr⟩⟩ := step_onlyAdds h
  exact ⟨hcfg, hpending, ⟨e, he.symm⟩, ⟨r, hr.symm⟩⟩

end Sys2Proof.Machine

/-! PROOFS. The family of 10_state.md: the invariant of rule R61 at reset and over every step, the filter and the
delay line of an ADC tick (rules R21, R182, R183, R188), and what each agent owns (rule R63). -/

namespace Sys2Proof.Machine

/-! ## Updates that keep the invariant -/

/-- `Running` reads no boundary list. -/
theorem Running.reply {s : State} (h : Running s) (v : Reply) : Running (s.reply v) := { h with }

theorem Running.emit {s : State} (h : Running s) (e : Event) : Running (s.emit e) := { h with }

theorem Running.withPending {s : State} (h : Running s) (ws : List CmdWord) : Running { s with pending := ws } :=
  { h with }

theorem Running.setRing {s : State} (h : Running s) {f : Fifo} {r : Ring} (hr : r.ok (Fifo.cap s.cfg f) = true)
    (hd : f = .delay → r.count = 4) : Running (s.setRing f r) := by
  have hrings : ∀ g, ((s.setRing f r).ring g).ok (Fifo.cap s.cfg g) = true := by
    intro g
    by_cases hg : g = f
    · rw [hg, ring_setRing_same]
      exact hr
    · rw [ring_setRing_ne s hg]
      exact h.rings g
  cases f with
  | delay => exact { h with rings := hrings, delay := hd rfl }
  | rx => exact { h with rings := hrings }
  | tx => exact { h with rings := hrings }

theorem Running.delayOk {s : State} (h : Running s) : s.delayFifo.ok 4 = true := h.rings .delay

theorem Running.rxOk {s : State} (h : Running s) : s.rxFifo.ok s.cfg.rxBuflen = true := h.rings .rx

theorem Running.txOk {s : State} (h : Running s) : s.txFifo.ok s.cfg.txBuflen = true := h.rings .tx

/-- A push onto `rx_fifo` or `tx_fifo` keeps the invariant; one onto the delay line would overfill it. -/
theorem Running.fifoPush {s t : State} (h : Running s) {f : Fifo} (hf : f ≠ .delay) {v : Octet}
    (ht : fifoPush f v s = .next t) : Running t := by
  by_cases hc : (s.ring f).count < Fifo.cap s.cfg f
  · rw [fifoPush_next (h.rings f) hc] at ht
    cases ht
    exact h.setRing (Ring.pushed_ok (h.rings f) hc v) (absurd · hf)
  · rw [fifoPush_full (Nat.le_of_not_lt hc)] at ht
    cases ht

theorem Running.fifoPop {s : State} (h : Running s) {f : Fifo} (hf : f ≠ .delay) {p : Octet × State}
    (hp : fifoPop f s = .next p) : Running p.2 := by
  by_cases hc : 0 < (s.ring f).count
  · rw [fifoPop_next (h.rings f) hc] at hp
    cases hp
    exact h.setRing (Ring.popped_ok (h.rings f) hc) (absurd · hf)
  · rw [fifoPop_empty (by omega)] at hp
    cases hp

/-! ## `INIT` and reset -/

theorem Ring.ofZeros_ok {n k : Nat} (hn : 0 < n) (hk : k = 0 ∨ k = n) : (Ring.ofZeros k).ok n = true := by
  rcases hk with rfl | rfl <;> simp [Ring.ok_iff, Ring.ofZeros, hn, Memory.wf, Memory.wfFrom, Memory.within]

theorem filterRange_zero (f : Filter) : filterRange f 0 := by
  cases f <;> simp [filterRange]

theorem maskBit_ne_zero {k : Nat} (hk : k < 8) : maskBit k ≠ 0#8 := by
  revert k
  decide

/-- The state `INIT` leaves meets rule R61, whatever it started from. -/
theorem running_of_execInit {s t : State} (hb : admissible s.cfg = true) (ht : execInit s = .next t) : Running t := by
  obtain ⟨hrx, htx, _⟩ := admissible_iff.mp hb
  have hspb := dacSamplesPerBit_pos hb
  have hcfg : t.cfg = s.cfg := (execInit_adds s t ht).cfg
  rw [← hcfg] at hrx htx hspb
  have hin : -4064 ≤ (0#16).toInt ∧ (0#16).toInt ≤ 4096 := by decide
  cases ht
  exact {
    init := rfl
    rings := fun
      | .delay => Ring.ofZeros_ok (Nat.zero_lt_succ 3) (.inr rfl)
      | .rx => Ring.ofZeros_ok hrx (.inl rfl)
      | .tx => Ring.ofZeros_ok htx (.inl rfl)
    delay := rfl
    phase := Nat.zero_le _
    bitIdx := Nat.zero_le _
    acc := Nat.zero_le _
    samples := hspb
    mask := .inl rfl
    tone := nofun
    stuffOn := nofun
    stuffOff := fun _ _ hk he => absurd he.symm (maskBit_ne_zero hk)
    stuffIdle := fun _ _ => rfl
    filterIn := ⟨hin.1, hin.2, hin⟩
    filterOut := ⟨filterRange_zero _, filterRange_zero _⟩
    idle := fun _ => ⟨rfl, rfl⟩ }

/-- Settles O8: the reset state is what `INIT` makes of it. -/
theorem resetSatisfiesTheInvariant : Obligations.ResetSatisfiesTheInvariant :=
  have hb : admissible State.reset.cfg = true := by decide
  ⟨hb, fun _ => running_of_execInit hb (show execInit State.reset = .next State.reset from rfl)⟩

/-! ## The filter -/

/-- The recurrence a build's filter computes (rules R182, R183). -/
def recurrence (f : Filter) : Int → Int → Int → Int :=
  match f with
  | .butterworth => butterworth
  | .chebyshev => chebyshev

/-- A filter input within its bounds (rule R25). -/
def inputRange (x : Int) : Prop := -4064 ≤ x ∧ x ≤ 4096

/-- Whatever the build, an output is within the wider of the two envelopes. -/
theorem filterRange_wide {f : Filter} {y : Int} (h : filterRange f y) : -23646 ≤ y ∧ y ≤ 23827 := by
  cases f with
  | butterworth => exact h
  | chebyshev =>
    obtain ⟨hlo, hhi⟩ := h
    omega

/-- Each filter step keeps the envelope of its own build (rule R188). -/
theorem recurrence_range {f : Filter} {x0 x1 y : Int} (h0 : inputRange x0) (h1 : inputRange x1)
    (hy : filterRange f y) : filterRange f (recurrence f x0 x1 y) := by
  cases f with
  | butterworth => exact butterworth_range h0 h1 hy
  | chebyshev => exact chebyshev_range h0 h1 hy

/-- From the envelope of either build, the Butterworth sum fits the register (rule R182). -/
theorem iirBOp_exact {s : State} (h0 : inputRange s.iirX0.toInt) (h1 : inputRange s.iirX1.toInt)
    (hy : filterRange s.cfg.filter s.iirY1.toInt) :
    (iirBOp s).iirY1.toInt = butterworth s.iirX0.toInt s.iirX1.toInt s.iirY1.toInt := by
  obtain ⟨hlo, hhi⟩ := butterworth_range h0 h1 (filterRange_wide hy)
  exact toS16_toInt (by omega) (by omega)

/-- From the envelope of either build, the Chebyshev sum fits the register (rule R183). -/
theorem iirCOp_exact {s : State} (h0 : inputRange s.iirX0.toInt) (h1 : inputRange s.iirX1.toInt)
    (hy : filterRange s.cfg.filter s.iirY1.toInt) :
    (iirCOp s).iirY1.toInt = chebyshev s.iirX0.toInt s.iirX1.toInt s.iirY1.toInt := by
  obtain ⟨hlo0, hhi0⟩ := h0
  obtain ⟨hlo1, hhi1⟩ := h1
  obtain ⟨hlo, hhi⟩ := filterRange_wide hy
  refine toS16_toInt ?_ ?_ <;> simp only [chebyshev, asr] <;> omega

theorem filterOp_exact {s : State} (h0 : inputRange s.iirX0.toInt) (h1 : inputRange s.iirX1.toInt)
    (hy : filterRange s.cfg.filter s.iirY1.toInt) :
    (filterOp s).iirY1.toInt = recurrence s.cfg.filter s.iirX0.toInt s.iirX1.toInt s.iirY1.toInt := by
  cases hf : s.cfg.filter with
  | butterworth =>
    simp only [filterOp, hf]
    exact iirBOp_exact h0 h1 hy
  | chebyshev =>
    simp only [filterOp, hf]
    exact iirCOp_exact h0 h1 hy

/-! ## The bit time, a case each -/

/-- A stuffed 0 (rule R232). -/
theorem txBitOp_stuffed {s : State} (h : stuffDue s = true) : txBitOp s = { s with
    stuffCnt := 0#8
    phaseInc := switchTone s.cfg s.phaseInc
    sampleCount := toU16 (dacSamplesPerBit s.cfg) } := by
  rw [stuffDue] at h
  simp only [txBitOp, h, if_true]

/-- A 1 of the octet (rule R232). -/
theorem txBitOp_one {s : State} (h : stuffDue s = false) (hb : s.currOut &&& s.txBit ≠ 0#8) : txBitOp s = { s with
    stuffCnt := s.stuffCnt + 1#8
    txBit := s.txBit <<< 1
    sampleCount := toU16 (dacSamplesPerBit s.cfg) } := by
  rw [stuffDue] at h
  simp only [txBitOp, h, if_pos hb, Bool.false_eq_true, if_false]

/-- A 0 of the octet (rule R232). -/
theorem txBitOp_zero {s : State} (h : stuffDue s = false) (hb : s.currOut &&& s.txBit = 0#8) : txBitOp s = { s with
    stuffCnt := 0#8
    phaseInc := switchTone s.cfg s.phaseInc
    txBit := s.txBit <<< 1
    sampleCount := toU16 (dacSamplesPerBit s.cfg) } := by
  rw [stuffDue] at h
  simp only [txBitOp, h, if_neg (not_not_intro hb), Bool.false_eq_true, if_false]

/-- What a bit time writes, whichever bit it sends. -/
theorem txBitOp_frame (s : State) : txBitOp s = { s with
    stuffCnt := (txBitOp s).stuffCnt
    phaseInc := (txBitOp s).phaseInc
    txBit := (txBitOp s).txBit
    sampleCount := toU16 (dacSamplesPerBit s.cfg) } := by
  cases hd : stuffDue s with
  | true => rw [txBitOp_stuffed hd]
  | false =>
    by_cases hb : s.currOut &&& s.txBit = 0#8
    · rw [txBitOp_zero hd hb]
    · rw [txBitOp_one hd hb]

/-! ## What a result of an operation holds -/

/-- A result that, if it holds a state (read off by `get`), holds one that `R` relates to `s`; `Adds` is the case of
`OnlyAddsOutput`. -/
def Leads {α : Type} (R : State → State → Prop) (get : α → State) (s : State) (o : Res α) : Prop :=
  ∀ a, o = .next a → R s (get a)

namespace Leads

variable {α β : Type} {R R' : State → State → Prop} {get : α → State} {get' : β → State} {s : State}

theorem next {a : α} (h : R s (get a)) : Leads R get s (.next a) := by
  intro b hb
  cases hb
  exact h

theorem refused (r : Refusal) : Leads R get s (.refused r) := nofun

theorem ite {p : Prop} [Decidable p] {o o' : Res α} (h : Leads R get s o) (h' : Leads R get s o') :
    Leads R get s (if p then o else o') := by
  split
  · exact h
  · exact h'

theorem ifInitialised {o : Res State} (h : Leads R id s o) : Leads R id s (ifInitialised s o) :=
  ite h (refused _)

/-- A weaker relation, or one seen from an earlier state. -/
theorem mono {t : State} {o : Res α} (h : Leads R get t o) (hR : ∀ {u}, R t u → R' s u) : Leads R' get s o :=
  fun a ha => hR (h a ha)

/-- Sequencing composes the relation. -/
theorem andThen (trans : ∀ {s t u}, R s t → R t u → R s u) {o : Res α} {k : α → Res β} (h : Leads R get s o)
    (h' : ∀ a, Leads R get' (get a) (k a)) : Leads R get' s (andThen o k) := by
  intro b hb
  obtain ⟨a, ha, hk⟩ := andThen_eq_next.mp hb
  exact trans (h a ha) (h' a b hk)

/-- A result without a state, read off `s`, comes first. -/
theorem andThen_value {o : Res α} {k : α → Res β} (h : ∀ a, Leads R get' s (k a)) :
    Leads R get' s (Machine.andThen o k) := by
  intro b hb
  obtain ⟨a, _, hk⟩ := andThen_eq_next.mp hb
  exact h a b hk

end Leads

/-- What a push or a pop changes: one ring (rules R141, R142). -/
def WritesRing (f : Fifo) (s t : State) : Prop := t = s.setRing f (t.ring f)

theorem fifoPush_writes (f : Fifo) (v : Octet) (s : State) : Leads (WritesRing f) id s (fifoPush f v s) := by
  intro t ht
  unfold fifoPush memWrite at ht
  split at ht
  · split at ht
    · cases ht
      simp [WritesRing]
    · cases ht
  · cases ht

theorem fifoPop_writes (f : Fifo) (s : State) : Leads (WritesRing f) Prod.snd s (fifoPop f s) := by
  intro p hp
  unfold fifoPop at hp
  split at hp
  · obtain ⟨v, _, hv⟩ := andThen_eq_next.mp hp
    cases hv
    simp [WritesRing]
  · cases hp

/-! ### The receive parser -/

/-- What the parser changes (rules R210 to R217): `rx_fifo` and the registers of R30 to R33. -/
def WritesParser (s t : State) : Prop := t = { s with
  rxFifo := t.rxFifo
  demodBits := t.demodBits
  hdlcRxstart := t.hdlcRxstart
  hdlcCurrchar := t.hdlcCurrchar
  hdlcBitIdx := t.hdlcBitIdx }

theorem WritesParser.refl (s : State) : WritesParser s s := rfl

theorem WritesParser.trans {s t u : State} (h : WritesParser s t) (h' : WritesParser t u) : WritesParser s u :=
  Eq.trans h' (by rw [h])

theorem WritesParser.of_ring {s t : State} (h : WritesRing .rx s t) : WritesParser s t := by
  rw [WritesParser, h]
  rfl

theorem rxPut_writes (b : Octet) (s : State) : Leads WritesParser Prod.snd s (rxPut b s) :=
  .ite (.next rfl) (.andThen .trans ((fifoPush_writes .rx b s).mono .of_ring) fun _ => .next rfl)

theorem flagCase_writes (s : State) : Leads WritesParser id s (flagCase s) :=
  .andThen .trans (rxPut_writes hdlcFlag s) fun _ => .next rfl

theorem storeOctet_writes (c : Octet) (s : State) : Leads WritesParser id s (storeOctet c s) :=
  .andThen .trans (.ite (rxPut_writes ax25Esc s) (.next rfl)) fun p =>
    .ite (.andThen .trans (rxPut_writes c p.2) fun _ => .next rfl) (.next rfl)

theorem dataCase_writes (b : Bool) (s : State) : Leads WritesParser id s (dataCase b s) :=
  have shifted : WritesParser s { s with
      hdlcCurrchar := shiftInTop s.hdlcCurrchar b
      hdlcBitIdx := s.hdlcBitIdx + 1#8 } := rfl
  .ite (.andThen .trans ((storeOctet_writes _ _).mono shifted.trans) fun _ => .next rfl) (.next rfl)

theorem hdlcRxOp_writes (b : Bool) (s : State) : Leads WritesParser id s (hdlcRxOp b s) :=
  have shifted : WritesParser s { s with demodBits := shiftIn16 s.demodBits b } := rfl
  .ite ((flagCase_writes _).mono shifted.trans)
    (.ite (.next rfl) (.ite (.next rfl) (.ite ((dataCase_writes b _).mono shifted.trans) (.next rfl))))

/-! ### The demodulator -/

/-- What the ADC agent owns (rule R63): the receive registers, `delay_fifo`, its end of `rx_fifo`, its replies. -/
def WritesReceiver (s t : State) : Prop := t = { s with
  delayFifo := t.delayFifo
  rxFifo := t.rxFifo
  iirX0 := t.iirX0
  iirX1 := t.iirX1
  iirY0 := t.iirY0
  iirY1 := t.iirY1
  sampledBits := t.sampledBits
  foundBits := t.foundBits
  currPhase := t.currPhase
  demodBits := t.demodBits
  hdlcRxstart := t.hdlcRxstart
  hdlcCurrchar := t.hdlcCurrchar
  hdlcBitIdx := t.hdlcBitIdx
  replies := t.replies }

namespace WritesReceiver

theorem trans {s t u : State} (h : WritesReceiver s t) (h' : WritesReceiver t u) : WritesReceiver s u :=
  Eq.trans h' (by rw [h])

theorem of_ring {s t : State} (h : WritesRing .delay s t) : WritesReceiver s t := by
  rw [WritesReceiver, h]
  rfl

theorem of_parser {s t : State} (h : WritesParser s t) : WritesReceiver s t := by
  rw [WritesReceiver, h]

theorem filterOp (s : State) : WritesReceiver s (filterOp s) := by
  rw [WritesReceiver, filterOp_eq]

theorem bitDecOp (s : State) : WritesReceiver s (bitDecOp s).2 := by
  rw [WritesReceiver, bitDecOp_frame]

end WritesReceiver

theorem discrimOp_writes (x : Octet) (s : State) : Leads WritesReceiver id s (discrimOp x s) :=
  .andThen .trans ((fifoPop_writes .delay s).mono .of_ring) fun _ => .next rfl

theorem dlyPushOp_writes (x : Octet) (s : State) : Leads WritesReceiver id s (dlyPushOp x s) :=
  (fifoPush_writes .delay x s).mono .of_ring

theorem hdlcRxOp_writesReceiver (b : Bool) (s : State) : Leads WritesReceiver id s (hdlcRxOp b s) :=
  (hdlcRxOp_writes b s).mono .of_parser

theorem adcTickOp_writes (x : Octet) (s : State) : Leads WritesReceiver id s (adcTickOp x s) :=
  .andThen .trans (discrimOp_writes x s) fun a =>
    have sliced : WritesReceiver a (sliceOp (filterOp a)) := (WritesReceiver.filterOp a).trans rfl
    .andThen .trans ((dlyPushOp_writes x _).mono sliced.trans) fun b =>
      have recovered : WritesReceiver b (clkRecOp b) := rfl
      have decided : WritesReceiver b (bitDecOp (clkRecOp b)).2 := recovered.trans (.bitDecOp _)
      .ite ((hdlcRxOp_writesReceiver _ _).mono decided.trans) (.next decided)

/-! ### The modulator -/

/-- What the DAC agent owns (rule R63): the transmit registers, its end of `tx_fifo`, its output. -/
def WritesTransmitter (s t : State) : Prop := t = { s with
  txFifo := t.txFifo
  currOut := t.currOut
  txBit := t.txBit
  sampleCount := t.sampleCount
  phaseAcc := t.phaseAcc
  phaseInc := t.phaseInc
  bitStuff := t.bitStuff
  stuffCnt := t.stuffCnt
  preambleLen := t.preambleLen
  trailerLen := t.trailerLen
  sending := t.sending
  events := t.events
  replies := t.replies } ∧ (s.sending = false → t.sending = false)

namespace WritesTransmitter

theorem refl (s : State) : WritesTransmitter s s := ⟨rfl, id⟩

theorem trans {s t u : State} (h : WritesTransmitter s t) (h' : WritesTransmitter t u) : WritesTransmitter s u :=
  ⟨h'.1.trans (by rw [h.1]), fun hs => h'.2 (h.2 hs)⟩

theorem of_ring {s t : State} (h : WritesRing .tx s t) : WritesTransmitter s t := by
  rw [WritesTransmitter, h]
  exact ⟨rfl, id⟩

theorem stopSending (s : State) : WritesTransmitter s (stopSending s) := ⟨rfl, fun _ => rfl⟩

theorem txBitOp (s : State) : WritesTransmitter s (txBitOp s) := by
  rw [WritesTransmitter, txBitOp_frame]
  exact ⟨rfl, id⟩

end WritesTransmitter

theorem fetchOctet_writes (s : State) : Leads WritesTransmitter id s (fetchOctet s) := by
  intro t ht
  rw [fetchOctet_frame ht]
  exact ⟨rfl, id⟩

theorem resolveOctet_writes (s : State) : Leads WritesTransmitter Prod.snd s (resolveOctet s) :=
  .ite
    (.ite (.next (.stopSending s))
      (.andThen .trans ((fifoPop_writes .tx s).mono .of_ring) fun _ => .next ⟨rfl, id⟩))
    (.ite (.next ⟨rfl, id⟩) (.next ⟨rfl, id⟩))

theorem txFetchOp_writes (s : State) : Leads WritesTransmitter Prod.snd s (txFetchOp s) :=
  have enabled : WritesTransmitter s (enableStuffing s) := ⟨rfl, id⟩
  .ite (.next (.stopSending s))
    (.andThen (get := id) .trans ((fetchOctet_writes _).mono enabled.trans) resolveOctet_writes)

theorem ddsStepOp_writes (s : State) : Leads WritesTransmitter Prod.snd s (ddsStepOp s) :=
  .andThen_value fun _ => .next ⟨rfl, id⟩

theorem dacSample_writes (s : State) : Leads WritesTransmitter id s (dacSample s) :=
  .andThen .trans (ddsStepOp_writes s) fun _ => .next ⟨rfl, id⟩

theorem txBit_dacSample_writes (s : State) : Leads WritesTransmitter id s (dacSample (txBitOp s)) :=
  (dacSample_writes _).mono (WritesTransmitter.txBitOp s).trans

theorem dacTickOp_writes (s : State) : Leads WritesTransmitter id s (dacTickOp s) :=
  .ite (.refused _)
    (.ite
      (.ite
        (.andThen .trans (txFetchOp_writes s) fun
          | (.stop, t) => .next (.refl t)
          | (.goOn, t) => txBit_dacSample_writes t)
        (txBit_dacSample_writes s))
      (dacSample_writes s))

/-! ### The agents -/

theorem exec_writesReceiver {i : Instr} (hi : i.presenter = .adc ∨ i.presenter = .adcOrHost) (s : State) :
    Leads WritesReceiver id s (exec i s) := by
  cases i
  case adctick x => exact .ifInitialised (adcTickOp_writes x s)
  case discrim x => exact .ifInitialised (discrimOp_writes x s)
  case iirB | iirC | slice | clkrec | nrzidec => exact .ifInitialised (.next rfl)
  case dlypush x => exact .ifInitialised (dlyPushOp_writes x s)
  case bitdec => exact .ifInitialised (.next ((WritesReceiver.bitDecOp s).trans rfl))
  case hdlcrx b => exact .ifInitialised (hdlcRxOp_writesReceiver b s)
  all_goals rcases hi with hi | hi <;> cases hi

theorem exec_writesTransmitter {i : Instr} (hi : i.presenter = .dac ∨ i.presenter = .dacOrHost) (s : State) :
    Leads WritesTransmitter id s (exec i s) := by
  cases i
  case dactick => exact .ifInitialised (dacTickOp_writes s)
  case txfetch => exact .ifInitialised (.andThen .trans (txFetchOp_writes s) fun _ => .next ⟨rfl, id⟩)
  case txbit => exact .ifInitialised (.next (.txBitOp s))
  case ddsstep => exact .ifInitialised (.andThen .trans (ddsStepOp_writes s) fun _ => .next ⟨rfl, id⟩)
  case sinsample idx => exact .ifInitialised (.andThen_value fun _ => .next ⟨rfl, id⟩)
  all_goals rcases hi with hi | hi <;> cases hi

/-- What the host changes without `TXSTART` (rule R63): its ends of the FIFOs, and its replies. -/
def WritesQueues (s t : State) : Prop := t = { s with
  rxFifo := t.rxFifo
  txFifo := t.txFifo
  replies := t.replies }

theorem WritesQueues.trans {s t u : State} (h : WritesQueues s t) (h' : WritesQueues t u) : WritesQueues s u :=
  Eq.trans h' (by rw [h])

theorem WritesQueues.of_ring {f : Fifo} (hf : f ≠ .delay) {s t : State} (h : WritesRing f s t) :
    WritesQueues s t := by
  rw [WritesQueues, h]
  cases f with
  | delay => exact absurd rfl hf
  | rx => rfl
  | tx => rfl

theorem exec_writesQueues {i : Instr} (hp : i.presenter = .host) (hq : i.issuable = true) (hinit : i ≠ .init)
    (hstart : i ≠ .txstart) (s : State) : Leads WritesQueues id s (exec i s) := by
  cases i
  case init => exact absurd rfl hinit
  case txstart => exact absurd rfl hstart
  case txpush b =>
    exact .ifInitialised (.ite (.refused _) ((fifoPush_writes .tx b s).mono (.of_ring (by decide))))
  case rxpop =>
    exact .ifInitialised (.ite (.refused _)
      (.andThen .trans ((fifoPop_writes .rx s).mono (.of_ring (by decide))) fun _ => .next rfl))
  case rxempty | txfull | sending | relax => exact .ifInitialised (.next rfl)
  case fpushL | fpopL | femptyL | ffullL => cases hq
  all_goals cases hp

/-- What the host changes with `TXSTART` too (rules R63, R270): the start values of an idle transmitter, and
`trailer_len`. -/
def WritesStart (s t : State) : Prop := t = { s with
  rxFifo := t.rxFifo
  txFifo := t.txFifo
  phaseInc := t.phaseInc
  phaseAcc := t.phaseAcc
  stuffCnt := t.stuffCnt
  preambleLen := t.preambleLen
  trailerLen := t.trailerLen
  sending := t.sending
  events := t.events
  replies := t.replies } ∧
  (s.sending = true → t.phaseInc = s.phaseInc ∧ t.phaseAcc = s.phaseAcc ∧ t.stuffCnt = s.stuffCnt ∧
    t.preambleLen = s.preambleLen ∧ t.sending = true)

theorem WritesStart.of_queues {s t : State} (h : WritesQueues s t) : WritesStart s t := by
  rw [WritesStart, h]
  exact ⟨rfl, fun hs => ⟨rfl, rfl, rfl, rfl, hs⟩⟩

theorem txStartOp_writes (s : State) : WritesStart s (txStartOp s) := by
  unfold txStartOp
  split
  case isTrue hs => exact ⟨rfl, fun _ => ⟨rfl, rfl, rfl, rfl, hs⟩⟩
  case isFalse hs => exact ⟨rfl, fun hs' => absurd hs' hs⟩

theorem exec_writesStart {i : Instr} (hp : i.presenter = .host) (hq : i.issuable = true) (hinit : i ≠ .init)
    (s : State) : Leads WritesStart id s (exec i s) := by
  by_cases hstart : i = .txstart
  · rw [hstart]
    exact .ifInitialised (.next (txStartOp_writes s))
  · exact (exec_writesQueues hp hq hinit hstart s).mono .of_queues

theorem WritesQueues.trailerLen {s t : State} (h : WritesQueues s t) : t.trailerLen = s.trailerLen := by
  rw [h]

/-- Settles O52: each stage of an operation writes within what its agent owns, and so does their sequence. -/
theorem agentsWriteOnlyWhatTheyOwn : Obligations.AgentsWriteOnlyWhatTheyOwn := by
  intro s t i ht
  refine ⟨fun hi => exec_writesReceiver hi s t ht, fun hi => exec_writesTransmitter hi s t ht, ?_⟩
  intro hp hinit hq
  obtain ⟨hframe, hsending⟩ := exec_writesStart hp hq hinit s t ht
  exact ⟨hframe, hsending, fun hstart => (exec_writesQueues hp hq hinit hstart s t ht).trailerLen⟩

/-! ## An ADC tick of a running block -/

/-- The state of a tick its filter runs in: the delay line moved on, the discriminated sample entered. -/
def filterInput (x : Octet) (s : State) : State := { s with
  delayFifo := (s.delayFifo.popped 4).pushed 4 x
  iirX0 := s.iirX1
  iirX1 := toS16 (asr (sampleValue (s.delayFifo.buf.read s.delayFifo.head) * sampleValue x) 2) }

/-- The state of a tick after its bit decision, before the parser. -/
def decided (x : Octet) (s : State) : State := (bitDecOp (beforeDecision x s)).2

theorem beforeDecision_eq (x : Octet) (s : State) :
    beforeDecision x s = clkRecOp (sliceOp (filterOp (filterInput x s))) := rfl

theorem decided_frame (x : Octet) (s : State) : decided x s = { s with
    delayFifo := (s.delayFifo.popped 4).pushed 4 x
    iirX0 := s.iirX1
    iirX1 := (decided x s).iirX1
    iirY0 := s.iirY1
    iirY1 := (decided x s).iirY1
    sampledBits := (decided x s).sampledBits
    foundBits := (decided x s).foundBits
    currPhase := (decided x s).currPhase } :=
  (bitDecOp_frame _).trans (by rw [decided, bitDecOp_frame, beforeDecision_frame])

theorem decided_iirX1 (x : Octet) (s : State) : (decided x s).iirX1 = (filterInput x s).iirX1 := by
  rw [decided, bitDecOp_frame, beforeDecision_eq, filterOp_eq]
  rfl

theorem decided_iirY1 (x : Octet) (s : State) : (decided x s).iirY1 = (filterOp (filterInput x s)).iirY1 := by
  rw [decided, bitDecOp_frame, beforeDecision_eq]
  rfl

/-- What a tick feeds the filter is a quarter of a product of samples (rule R25). -/
theorem filterInput_range (x : Octet) (s : State) : inputRange (filterInput x s).iirX1.toInt := by
  obtain ⟨hlo, hhi⟩ := product_range (s.delayFifo.buf.read s.delayFifo.head) x
  have hexact : (filterInput x s).iirX1.toInt = _ := toS16_toInt (by omega) (by omega)
  rw [hexact]
  exact ⟨hlo, hhi⟩

theorem Running.inputs {s : State} (h : Running s) : inputRange s.iirX0.toInt ∧ inputRange s.iirX1.toInt := by
  obtain ⟨hlo0, hhi0, hlo1, hhi1⟩ := h.filterIn
  exact ⟨⟨hlo0, hhi0⟩, hlo1, hhi1⟩

/-- The filter output of a tick is its build's recurrence, exactly (rules R180, R182, R183). -/
theorem decided_output {s : State} (h : Running s) (x : Octet) : (decided x s).iirY1.toInt =
    recurrence s.cfg.filter s.iirX1.toInt (decided x s).iirX1.toInt s.iirY1.toInt := by
  rw [decided_iirY1, decided_iirX1]
  exact filterOp_exact (s := filterInput x s) h.inputs.2 (filterInput_range x s) h.filterOut.2

/-- A bit decision takes a whole bit time off the phase once there is one (rule R187). -/
theorem bitDecOp_phase {s : State} (h : s.currPhase.toNat < 128) :
    (bitDecOp s).2.currPhase.toNat = s.currPhase.toNat % 64 := by
  have hi := octet_toInt_of_lt h
  simp only [bitDecOp, phaseMax]
  split
  case isTrue hge =>
    have hint : (toS8 (s.currPhase.toInt - 64)).toInt = s.currPhase.toInt - 64 := toS8_toInt (by omega) (by omega)
    have hnat := octet_toNat_of_toInt (v := toS8 (s.currPhase.toInt - 64)) (by omega)
    simp only
    omega
  case isFalse hlt =>
    simp only
    omega

theorem decided_phase {s : State} (h : s.currPhase.toNat ≤ 63) (x : Octet) :
    (decided x s).currPhase.toNat ≤ 63 := by
  have hphase : (sliceOp (filterOp (filterInput x s))).currPhase = s.currPhase := by
    rw [filterOp_eq]
    rfl
  obtain ⟨n, _, _, hn, _, _, _, _, _, hle⟩ :=
    clkRecOp_phase (s := sliceOp (filterOp (filterInput x s))) (by rwa [hphase])
  rw [← beforeDecision_eq] at hn
  rw [decided, bitDecOp_phase (by omega)]
  omega

theorem Running.delay_pos {s : State} (h : Running s) : 0 < s.delayFifo.count := by simp [h.delay]

theorem Running.popped_room {s : State} (h : Running s) : (s.delayFifo.popped 4).count < 4 := by
  simp [Ring.popped, h.delay]

/-- The delay line is full again, and every register back in its range. -/
theorem Running.decided {s : State} (h : Running s) (x : Octet) : Running (decided x s) := by
  have hline : ((s.delayFifo.popped 4).pushed 4 x).ok 4 = true :=
    Ring.pushed_ok (Ring.popped_ok h.delayOk h.delay_pos) h.popped_room x
  have hfull : ((s.delayFifo.popped 4).pushed 4 x).count = 4 := by simp [Ring.pushed, Ring.popped, h.delay]
  have hmoved := h.setRing (f := .delay) hline fun _ => hfull
  obtain ⟨_, hnewest⟩ := h.inputs
  obtain ⟨_, houtput⟩ := h.filterOut
  have hinput := filterInput_range x s
  rw [← decided_iirX1] at hinput
  have hfiltered : filterRange s.cfg.filter (Machine.decided x s).iirY1.toInt := by
    rw [decided_output h]
    exact recurrence_range hnewest hinput houtput
  rw [decided_frame]
  exact { hmoved with
    phase := decided_phase h.phase x
    filterIn := ⟨hnewest.1, hnewest.2, hinput⟩
    filterOut := ⟨houtput, hfiltered⟩ }

/-- The parser always has a step, and it leaves its store in its layout and the bit counter in its range. -/
theorem Running.hdlcRx {s : State} (h : Running s) (b : Bool) : ∃ t, hdlcRxOp b s = .next t ∧ Running t := by
  obtain ⟨l, o, cc, bi, ht, hbi, hl, _⟩ := hdlcRxOp_next h.rxOk h.bitIdx b
  have hstored := h.setRing (f := .rx) (Ring.pushedAll_spec l h.rxOk hl).1 nofun
  exact ⟨_, ht, { hstored with bitIdx := hbi }⟩

/-- A tick of a running block always has a step, and keeps the invariant. -/
theorem Running.adcTick {s : State} (h : Running s) (x : Octet) : ∃ t, adcTickOp x s = .next t ∧ Running t := by
  rw [adcTickOp_eq h.delayOk h.delay]
  split
  · exact (h.decided x).hdlcRx _
  · exact ⟨_, rfl, h.decided x⟩

/-- After the bit decision a tick is at most a call of the parser. -/
theorem adcTickOp_decided {s t : State} (h : Running s) {x : Octet} (ht : adcTickOp x s = .next t) :
    WritesParser (decided x s) t := by
  rw [adcTickOp_eq h.delayOk h.delay] at ht
  exact Leads.ite (hdlcRxOp_writes _ _) (.next (.refl _)) t ht

theorem exec_adctick {s : State} (h : s.initialised = true) (x : Octet) : exec (.adctick x) s = adcTickOp x s :=
  ifInitialised_of_init h _

/-- Settles O29: within the bounds of R25 and R26 neither sum leaves the register, so both steps are exact, and a
tick runs its build's step on the input it has just discriminated. -/
theorem filterStepsAreExactAndBounded : Obligations.FilterStepsAreExactAndBounded := by
  intro s hi hlo0 hhi0 hlo1 hhi1 hy
  have hb := iirBOp_exact ⟨hlo0, hhi0⟩ ⟨hlo1, hhi1⟩ hy
  have hc := iirCOp_exact ⟨hlo0, hhi0⟩ ⟨hlo1, hhi1⟩ hy
  refine ⟨⟨iirBOp s, ifInitialised_of_init hi _, hb, rfl, ?_, rfl⟩,
    ⟨iirCOp s, ifInitialised_of_init hi _, hc, rfl, ?_, rfl⟩, ?_⟩
  · intro hf
    rw [hf] at hy
    rw [hb]
    exact butterworth_range ⟨hlo0, hhi0⟩ ⟨hlo1, hhi1⟩ hy
  · intro hf
    rw [hf] at hy
    rw [hc]
    exact chebyshev_range ⟨hlo0, hhi0⟩ ⟨hlo1, hhi1⟩ hy
  · intro h x t ht
    rw [exec_adctick hi] at ht
    have hx0 : (decided x s).iirX0 = s.iirX1 := by rw [decided_frame]
    have hy0 : (decided x s).iirY0 = s.iirY1 := by rw [decided_frame]
    have hout := decided_output h x
    rw [← hx0] at hout
    rw [adcTickOp_decided h ht]
    refine ⟨hx0, hy0, fun hf => ?_, fun hf => ?_⟩
    · rw [hf] at hout
      exact hout
    · rw [hf] at hout
      exact hout

/-- A tick drops the oldest sample of the delay line and adds its own (rules R21, R190). -/
theorem adcTickOp_delayFifo {s t : State} (h : Running s) {x : Octet} (ht : adcTickOp x s = .next t) :
    t.delayFifo = (s.delayFifo.popped 4).pushed 4 x := by
  rw [adcTickOp_decided h ht, decided_frame]

theorem adcTickOp_queue_delay {s t : State} (h : Running s) {x : Octet} (ht : adcTickOp x s = .next t) :
    t.queue .delay = (s.queue .delay).tail ++ [x] := by
  show t.delayFifo.queue 4 = (s.delayFifo.queue 4).tail ++ [x]
  rw [adcTickOp_delayFifo h ht, Ring.queue_pushed (Ring.popped_ok h.delayOk h.delay_pos) h.popped_room,
    Ring.queue_popped h.delayOk h.delay_pos, List.tail_cons]

theorem execAll_cons_next {i : Instr} {is : List Instr} {s t : State} (h : exec i s = .next t) :
    execAll (i :: is) s = execAll is t := by
  rw [execAll, h]
  rfl

/-- ADC ticks move the delay line on by their samples, in a block that stays running. -/
theorem execAll_adctick (xs : List Octet) {s : State} (h : Running s) :
    (execAll (xs.map .adctick) s).queue .delay = (s.queue .delay ++ xs).drop xs.length := by
  induction xs generalizing s with
  | nil => simp [execAll]
  | cons x xs ih =>
    obtain ⟨t, ht, hrun⟩ := h.adcTick x
    have hq : s.queue .delay = _ :: _ := Ring.queue_popped h.delayOk h.delay_pos
    rw [List.map_cons, execAll_cons_next ((exec_adctick h.init x).trans ht), ih hrun, adcTickOp_queue_delay h ht, hq]
    simp

/-- Settles O37: a tick pops and pushes one element, so four ticks drop the four that were there. -/
theorem delayLineHoldsTheLastFourSamples : Obligations.DelayLineHoldsTheLastFourSamples := by
  intro s x h
  refine ⟨fun t ht => ?_, fun x1 x2 x3 => ?_⟩
  · rw [exec_adctick h.init] at ht
    refine ⟨adcTickOp_queue_delay h ht, fun a ha => ?_⟩
    rw [adcTickOp_delayFifo h ht]
    exact Memory.read_write_other ha x
  · have hlen : (s.queue .delay).length = 4 := (Ring.length_queue 4 s.delayFifo).trans h.delay
    exact (execAll_adctick [x1, x2, x3, x] h).trans (List.drop_left' hlen)

/-! ## A DAC tick of a running block -/

theorem maskBit_shift (k : Nat) : maskBit k <<< 1 = maskBit (k + 1) := (BitVec.shiftLeft_add _ _ _).symm

theorem maskBit_inj {j k : Nat} (hj : j < 8) (hk : k < 8) (h : maskBit j = maskBit k) : j = k := by
  have hall : ∀ i < 8, ∀ l < 8, maskBit i = maskBit l → i = l := by decide
  exact hall j hj k hk h

theorem isOutOfBand_iff {v : Octet} : isOutOfBand v = true ↔ v = hdlcFlag ∨ v = hdlcReset := by
  simp [isOutOfBand]

theorem switchTone_mem (c : Config) (p : Reg16) : switchTone c p = markReg c ∨ switchTone c p = spaceReg c := by
  unfold switchTone
  split
  · exact .inr rfl
  · exact .inl rfl

theorem octet_succ_toNat_le (v : Octet) : (v + 1#8).toNat ≤ v.toNat + 1 := by
  rw [BitVec.toNat_add]
  exact Nat.mod_le _ _

/-- A new tone while sending keeps the invariant, if it is one of the two. -/
theorem Running.withTone {s : State} (h : Running s) {p : Reg16} (hp : p = markReg s.cfg ∨ p = spaceReg s.cfg) :
    Running { s with phaseInc := p } :=
  { h with tone := fun _ => hp }

/-- Restarting the run of ones keeps the invariant. -/
theorem Running.withNoOnes {s : State} (h : Running s) : Running { s with stuffCnt := 0#8 } :=
  { h with
    stuffOn := fun _ => Nat.zero_le _
    stuffOff := fun hoff k hk he => ⟨(h.stuffOff hoff k hk he).1, Nat.zero_le _⟩
    stuffIdle := fun _ _ => rfl }

/-- Sending the octet's next bit, `c` ones counted after it, keeps the invariant. -/
theorem Running.nextMask {s : State} (h : Running s) (hs : s.sending = true) {k : Nat} (hk : k < 8)
    (hm : s.txBit = maskBit k) {c : Octet} (hon : s.bitStuff = true → c.toNat ≤ 5)
    (hoff : s.bitStuff = false → c.toNat ≤ 5 + (k + 1)) (hlast : s.bitStuff = false → k = 7 → c = 0#8) :
    Running { s with stuffCnt := c, txBit := s.txBit <<< 1 } := by
  have hshift : s.txBit <<< 1 = maskBit (k + 1) := by rw [hm, maskBit_shift]
  exact { h with
    mask := by
      by_cases h7 : k = 7
      · exact .inl (by rw [hshift, h7]; rfl)
      · exact .inr ⟨k + 1, by omega, hshift⟩
    stuffOn := hon
    stuffOff := fun hb j hj he => by
      have hjk : j = k + 1 := by
        by_cases h7 : k = 7
        · subst h7
          exact absurd (he.symm.trans hshift) (maskBit_ne_zero hj)
        · exact maskBit_inj hj (by omega) (he.symm.trans hshift)
      exact ⟨(h.stuffOff hb k hk hm).1, hjk ▸ hoff hb⟩
    stuffIdle := fun hb he => by
      have h7 : k = 7 := by
        by_contra hne
        exact maskBit_ne_zero (k := k + 1) (by omega) (hshift.symm.trans he)
      exact hlast hb h7
    idle := fun hs' => absurd (hs.symm.trans hs') nofun }

/-- Neither octet that is sent unstuffed ends in a 1 (rules R49, R114). -/
theorem outOfBand_last_bit {v : Octet} (h : v = hdlcFlag ∨ v = hdlcReset) : v &&& maskBit 7 = 0#8 := by
  rcases h with rfl | rfl <;> rfl

/-- A bit time keeps the invariant but for the samples it begins with, which its first sample brings into range. -/
theorem Running.txBit {s : State} (h : Running s) (hs : s.sending = true) (hm : s.txBit ≠ 0#8) :
    Running { txBitOp s with sampleCount := s.sampleCount } := by
  obtain ⟨k, hk, hk'⟩ := h.mask.resolve_left hm
  have htone := switchTone_mem s.cfg s.phaseInc
  cases hd : stuffDue s with
  | true =>
    rw [txBitOp_stuffed hd]
    exact h.withNoOnes.withTone htone
  | false =>
    by_cases hb : s.currOut &&& s.txBit = 0#8
    · rw [txBitOp_zero hd hb]
      have hnext := h.nextMask (c := 0#8) hs hk hk' (fun _ => Nat.zero_le _) (fun _ => Nat.zero_le _) fun _ _ => rfl
      exact hnext.withTone htone
    · rw [txBitOp_one hd hb]
      have hsucc := octet_succ_toNat_le s.stuffCnt
      refine h.nextMask hs hk hk' (fun hon => hsucc.trans ?_) (fun hoff => hsucc.trans ?_) fun hoff h7 => ?_
      · simp only [stuffDue, hon, Bool.true_and, decide_eq_false_iff_not, bitStuffLen] at hd
        omega
      · obtain ⟨_, hle⟩ := h.stuffOff hoff k hk hk'
        omega
      · subst h7
        rw [hk'] at hb
        exact absurd (outOfBand_last_bit (h.stuffOff hoff 7 hk hk').1) hb

/-- A sample keeps the invariant, `c` samples of the bit due before it. -/
theorem Running.afterSample {s : State} (h : Running s) (hs : s.sending = true) {c : Reg16} (hc : c ≠ 0#16)
    (hle : c.toNat ≤ dacSamplesPerBit s.cfg) : Running (afterSample { s with sampleCount := c }) := by
  have hacc : (toU16 (nextPhase s)).toNat ≤ 511 := by
    have hlt := nextPhase_lt s
    rw [toU16_toNat (by omega)]
    omega
  have hne : c.toNat ≠ 0 := fun h0 => hc (BitVec.eq_of_toNat_eq h0)
  exact { h with
    acc := hacc
    samples := by
      show (c - 1#16).toNat + 1 ≤ dacSamplesPerBit s.cfg
      bv_omega
    idle := fun hs' => absurd (hs.symm.trans hs') nofun }

/-- A bit time with its first sample. -/
theorem Running.txBit_dacSample {s : State} (hb : admissible s.cfg = true) (h : Running s) (hs : s.sending = true)
    (hm : s.txBit ≠ 0#8) : ∃ t, dacSample (txBitOp s) = .next t ∧ Running t := by
  have hcfg : (txBitOp s).cfg = s.cfg := by rw [txBitOp_frame]
  have hsending : (txBitOp s).sending = s.sending := by rw [txBitOp_frame]
  obtain ⟨_, _, _, _, _, _, hfits, _, _, htable, _⟩ := admissible_iff.mp hb
  have hcount : (toU16 (dacSamplesPerBit s.cfg)).toNat = dacSamplesPerBit s.cfg := toU16_toNat hfits
  have hpos := dacSamplesPerBit_pos hb
  refine ⟨_, dacSample_next (by rwa [hcfg]), (h.txBit hs hm).afterSample ?_ (fun h0 => ?_) ?_⟩
  · exact hsending.trans hs
  · rw [h0] at hcount
    exact absurd hcount (Nat.ne_of_lt hpos)
  · exact hcount.trans_le (congrArg dacSamplesPerBit hcfg).ge

/-! ### The fetch -/

theorem Running.stopSending {s : State} (h : Running s) (hc : s.sampleCount = 0#16) (hm : s.txBit = 0#8) :
    Running (stopSending s) :=
  { h.emit .dacIrqStop with
    tone := nofun
    idle := fun _ => ⟨hc, hm⟩ }

theorem Running.fetchCount_le {s : State} (h : Running s) : (fetchCount s).toNat ≤ 5 := by
  unfold fetchCount
  split
  case isTrue hon => exact h.stuffOn hon
  case isFalse => exact Nat.zero_le _

/-- A fetched octet `v`, ready to be sent (rule R231): unstuffed only if it is a flag or an abort octet. -/
theorem Running.startOctet {s : State} (h : Running s) (hs : s.sending = true) {b : Bool} {c v : Octet}
    (hc : c.toNat ≤ 5) (hv : b = false → isOutOfBand v = true) (p q : Reg16) : Running { s with
      stuffCnt := c
      bitStuff := b
      preambleLen := p
      trailerLen := q
      currOut := v
      txBit := 0x01#8 } :=
  { h with
    mask := .inr ⟨0, by decide, rfl⟩
    stuffOn := fun _ => hc
    stuffOff := fun hb k _ _ => ⟨isOutOfBand_iff.mp (hv hb), hc.trans (Nat.le_add_right _ _)⟩
    stuffIdle := fun _ => nofun
    idle := fun hs' => absurd (hs.symm.trans hs') nofun }

theorem Running.withQueued {s : State} (h : Running s) (hpos : 0 < s.txFifo.count) :
    Running (withQueued s) :=
  { h.setRing (f := .tx) (Ring.popped_ok h.txOk hpos) nofun with
    stuffOn := fun _ => h.fetchCount_le
    stuffOff := nofun
    stuffIdle := nofun }

/-- The escape and the out-of-band octets, from a state with stuffing on (rule R231). -/
theorem Running.resolveOctet {s : State} (h : Running s) (hs : s.sending = true) (hon : s.bitStuff = true)
    (hc : s.sampleCount = 0#16) (hm : s.txBit = 0#8) : ∃ p, resolveOctet s = .next p ∧ Running p.2 := by
  by_cases hesc : s.currOut = ax25Esc
  · by_cases hempty : s.txFifo.count = 0
    · exact ⟨_, resolveOctet_dangling hesc hempty, h.stopSending hc hm⟩
    · have hpos : 0 < s.txFifo.count := Nat.pos_of_ne_zero hempty
      have hpopped := h.setRing (f := .tx) (Ring.popped_ok h.txOk hpos) nofun
      refine ⟨_, resolveOctet_escaped hesc h.txOk hpos, ?_⟩
      exact hpopped.startOctet hs (h.stuffOn hon) (fun hoff => absurd (hon.symm.trans hoff) nofun) _ _
  · refine ⟨_, resolveOctet_plain hesc, h.startOctet hs (h.stuffOn hon) ?_ _ _⟩
    intro hoff
    by_contra hband
    rw [if_neg hband, hon] at hoff
    cases hoff

/-- A fetch of a running transmitter, at its octet boundary, always has a step (rule R231). -/
theorem Running.txFetch {s : State} (h : Running s) (hs : s.sending = true) (hc : s.sampleCount = 0#16)
    (hm : s.txBit = 0#8) : ∃ p, txFetchOp s = .next p ∧ Running p.2 := by
  by_cases hidle : s.txFifo.count = 0 ∧ s.trailerLen = 0#16
  · exact ⟨_, txFetchOp_idle hidle.1 hidle.2, h.stopSending hc hm⟩
  · by_cases hp : s.preambleLen = 0#16
    · by_cases hempty : s.txFifo.count = 0
      · refine ⟨_, txFetchOp_trailer hempty (fun ht => hidle ⟨hempty, ht⟩) hp, ?_⟩
        exact h.startOctet hs h.fetchCount_le (fun _ => rfl) _ _
      · have hpos : 0 < s.txFifo.count := Nat.pos_of_ne_zero hempty
        rw [txFetchOp_data h.txOk hpos hp]
        exact (h.withQueued hpos).resolveOctet hs rfl hc hm
    · exact ⟨_, txFetchOp_preamble hidle hp, h.startOctet hs h.fetchCount_le (fun _ => rfl) _ _⟩

/-- A DAC tick of a running, sending block always has a step, and keeps the invariant. -/
theorem Running.dacTick {s : State} (hb : admissible s.cfg = true) (h : Running s) (hs : s.sending = true) :
    ∃ t, dacTickOp s = .next t ∧ Running t := by
  simp only [dacTickOp, hs, Bool.true_eq_false, if_false]
  split
  case isTrue hc =>
    split
    case isTrue hm =>
      obtain ⟨⟨r, t⟩, hp, ht⟩ := h.txFetch hs hc hm
      rw [hp, andThen_next]
      cases r with
      | stop => exact ⟨t, rfl, ht⟩
      | goOn =>
        have hframe := txFetchOp_goOn hp
        have hmask : t.txBit ≠ 0#8 := by rw [hframe]; exact maskBit_ne_zero (k := 0) (by decide)
        exact ht.txBit_dacSample (by rw [hframe]; exact hb) (by rw [hframe]; exact hs) hmask
    case isFalse hm => exact h.txBit_dacSample hb hs hm
  case isFalse hc =>
    obtain ⟨_, _, _, _, _, _, _, _, _, htable, _⟩ := admissible_iff.mp hb
    exact ⟨_, dacSample_next htable, h.afterSample hs hc ((Nat.le_succ _).trans h.samples)⟩

/-! ## Every step -/

/-- A transmission that starts begins with the MARK tone and no ones counted (rule R270). -/
theorem Running.txStart {s : State} (h : Running s) : Running (txStartOp s) := by
  unfold txStartOp
  split
  case isTrue => exact { h with }
  case isFalse =>
    exact { (h.emit .dacIrqStart).withNoOnes with
      acc := Nat.zero_le _
      tone := fun _ => .inl rfl
      idle := nofun }

/-- `t` meets rule R61 if `s` does. -/
def KeepsRunning (s t : State) : Prop := Running s → Running t

theorem KeepsRunning.trans {s t u : State} (h : KeepsRunning s t) (h' : KeepsRunning t u) : KeepsRunning s u :=
  h' ∘ h

theorem KeepsRunning.of_steps {s : State} {o : Res State} (h : Running s → ∃ t, o = .next t ∧ Running t) :
    Leads KeepsRunning id s o := by
  intro t ht hs
  obtain ⟨u, hu, hrun⟩ := h hs
  cases hu.symm.trans ht
  exact hrun

theorem dacTickOp_keepsRunning {s : State} (hb : admissible s.cfg = true) :
    Leads KeepsRunning id s (dacTickOp s) := by
  cases hs : s.sending with
  | true => exact .of_steps fun h => h.dacTick hb hs
  | false =>
    rw [dacTickOp, if_pos hs]
    exact .refused _

/-- An operation behind the initialisation check, from a state within the invariant. -/
theorem Inv.ifInitialised {s t : State} {o : Res State} (h : Inv s) (hk : Leads KeepsRunning id s o)
    (ht : ifInitialised s o = .next t) : Running t := by
  obtain ⟨hi, ho⟩ := ifInitialised_eq_next.mp ht
  exact hk t ho (h.running hi)

/-- An issuable operation leaves a block that runs as rule R61 says. -/
theorem exec_running {s t : State} {i : Instr} (h : Inv s) (hi : i.issuable = true) (ht : exec i s = .next t) :
    Running t := by
  cases i
  case init => exact running_of_execInit h.build ht
  case adctick x => exact h.ifInitialised (.of_steps (·.adcTick x)) ht
  case hdlcrx b => exact h.ifInitialised (.of_steps (·.hdlcRx b)) ht
  case dactick => exact h.ifInitialised (dacTickOp_keepsRunning h.build) ht
  case txpush b => exact h.ifInitialised (.ite (.refused _) fun _ hu hr => hr.fifoPush (by decide) hu) ht
  case txstart => exact h.ifInitialised (.next Running.txStart) ht
  case rxpop =>
    have hpop : Leads KeepsRunning Prod.snd s (fifoPop .rx s) := fun _ hp hr => hr.fifoPop (by decide) hp
    exact h.ifInitialised (.ite (.refused _) (.andThen .trans hpop fun _ => .next (Running.reply · _))) ht
  case rxempty | txfull | sending => exact h.ifInitialised (.next (Running.reply · _)) ht
  case relax => exact h.ifInitialised (.next id) ht
  case sinsample x => exact h.ifInitialised (.andThen_value fun _ => .next (Running.reply · _)) ht
  all_goals cases hi

/-- A row of the table builds operations of its own code (rule R104). -/
theorem op_build {r : OpRow} (hr : r ∈ opTable) (a : BitVec 16) : (r.build a).op = r.code := by
  revert r
  simp [opTable, portRows, adcRows, dacRows, fifoRows, Instr.op]

/-- The port accepts issuable operations only (rule R105 (b)). -/
theorem decodePort_issuable {w : CmdWord} {i : Instr} (h : decodePort w = .ok i) : i.issuable = true := by
  unfold decodePort at h
  split at h
  · cases h
  next r hr =>
    split at h
    next hq =>
      unfold OpRow.operation at h
      split at h
      · cases h
        have hcode : r.code = opField w := by simpa using List.find?_some hr
        have hop := op_build (List.mem_of_find?_eq_some hr) (argField w)
        rw [Instr.issuable, hop, hcode, hr]
        exact hq
      · cases h
    · cases h

theorem Inv.withPending {s : State} (h : Inv s) (ws : List CmdWord) : Inv { s with pending := ws } :=
  ⟨h.build, fun hi => (h.running hi).withPending ws⟩

theorem present_running {s t : State} {w : CmdWord} (h : Inv s) (ht : present w s = .next t) : Running t := by
  unfold present at ht
  split at ht
  · cases ht
  next i hd => exact exec_running h (decodePort_issuable hd) ht

/-- Settles O9: `INIT` establishes rule R61 and every other issuable operation keeps it; the port takes no others. -/
theorem stepKeepsTheInvariant : Obligations.StepKeepsTheInvariant := by
  intro s t h ht
  have hcfg : t.cfg = s.cfg := (step_onlyAdds ht).cfg
  refine ⟨hcfg ▸ h.build, fun hi => ?_⟩
  unfold step at ht
  rw [if_pos h.build] at ht
  split at ht
  · cases ht
    exact h.running hi
  next w rest _ => exact present_running (h.withPending rest) ht

end Sys2Proof.Machine

/-! PROOFS. The family of 20_memory.md: the step of a presented word (rules R105, R106) and that it never faults
(rules R75, R300), the octets between the parser and the host (rules R214, R272), and the order of the ticks (rules R81,
R312). -/

namespace Sys2Proof.Machine

/-! ## The presented operation -/

/-- Every operation has its row in the table of rule R104. -/
theorem rowOfOp : ∀ i : Instr, Laws.RowOfOp.Statement i
  | .init => Laws.RowOfOp.init
  | .adctick s => Laws.RowOfOp.adctick s
  | .dactick => Laws.RowOfOp.dactick
  | .txpush b => Laws.RowOfOp.txpush b
  | .txstart => Laws.RowOfOp.txstart
  | .rxpop => Laws.RowOfOp.rxpop
  | .rxempty => Laws.RowOfOp.rxempty
  | .txfull => Laws.RowOfOp.txfull
  | .sending => Laws.RowOfOp.sending
  | .relax => Laws.RowOfOp.relax
  | .discrim s => Laws.RowOfOp.discrim s
  | .iirB => Laws.RowOfOp.iirB
  | .iirC => Laws.RowOfOp.iirC
  | .slice => Laws.RowOfOp.slice
  | .dlypush s => Laws.RowOfOp.dlypush s
  | .clkrec => Laws.RowOfOp.clkrec
  | .bitdec => Laws.RowOfOp.bitdec
  | .nrzidec => Laws.RowOfOp.nrzidec
  | .hdlcrx b => Laws.RowOfOp.hdlcrx b
  | .txfetch => Laws.RowOfOp.txfetch
  | .txbit => Laws.RowOfOp.txbit
  | .ddsstep => Laws.RowOfOp.ddsstep
  | .sinsample x => Laws.RowOfOp.sinsample x
  | .fpush f v => Laws.RowOfOp.fpush f v
  | .fpop f => Laws.RowOfOp.fpop f
  | .fempty f => Laws.RowOfOp.fempty f
  | .ffull f => Laws.RowOfOp.ffull f
  | .fpushL f v => Laws.RowOfOp.fpushL f v
  | .fpopL f => Laws.RowOfOp.fpopL f
  | .femptyL f => Laws.RowOfOp.femptyL f
  | .ffullL f => Laws.RowOfOp.ffullL f

/-- The port reads a well-formed operation back from its word, unless its code is internal (rules R105, R106). -/
theorem decodePort_encode {i : Instr} (h : i.wf = true) :
    decodePort (encode i) = if i.issuable then .ok i else .error .internalOp := by
  obtain ⟨r, hr, hok, hbuild⟩ := rowOfOp i
  simp [decodePort, Instr.issuable, OpRow.operation, hr, hok, h, hbuild]

theorem step_cons {s : State} {w : CmdWord} {rest : List CmdWord} (hb : admissible s.cfg = true)
    (hp : s.pending = w :: rest) : step s = present w { s with pending := rest } := by
  rw [step, if_pos hb, hp]

/-- Settles O5: the port reads the presented word back as its operation, or sees its internal code. -/
theorem stepPerformsThePresentedOperation : Obligations.StepPerformsThePresentedOperation := by
  intro s i rest hb hp hwf
  rw [step_cons hb hp, present, decodePort_encode hwf]
  constructor <;> intro hi <;> rw [hi] <;> rfl

/-! ## No step faults -/

/-- A result that is no fault (rules R75, R300). -/
def NoFault {α : Type} (o : Res α) : Prop := ∀ f, o ≠ .fault f

namespace NoFault

variable {α β : Type}

theorem next (a : α) : NoFault (.next a) := nofun

theorem refused (r : Refusal) : NoFault (.refused r : Res α) := nofun

theorem ite {p : Prop} [Decidable p] {o o' : Res α} (h : NoFault o) (h' : NoFault o') :
    NoFault (if p then o else o') := by
  split
  · exact h
  · exact h'

theorem andThen {o : Res α} {k : α → Res β} (h : NoFault o) (h' : ∀ a, NoFault (k a)) : NoFault (andThen o k) := by
  intro f hf
  rcases andThen_eq_fault.mp hf with ho | ⟨a, _, hk⟩
  · exact h f ho
  · exact h' a f hk

theorem of_steps {o : Res State} (h : ∃ t, o = .next t ∧ Running t) : NoFault o := by
  obtain ⟨t, rfl, _⟩ := h
  exact next t

end NoFault

/-- A write index within the ring is one within the store. -/
theorem fifoPush_noFault {f : Fifo} {s : State} (h : (s.ring f).ok (Fifo.cap s.cfg f) = true) (v : Octet) :
    NoFault (fifoPush f v s) := by
  by_cases hc : (s.ring f).count < Fifo.cap s.cfg f
  · rw [fifoPush_next h hc]
    exact .next _
  · rw [fifoPush_full (Nat.le_of_not_lt hc)]
    exact .refused _

/-- A read index within the ring is one within the store. -/
theorem fifoPop_noFault {f : Fifo} {s : State} (h : (s.ring f).ok (Fifo.cap s.cfg f) = true) :
    NoFault (fifoPop f s) := by
  by_cases hc : 0 < (s.ring f).count
  · rw [fifoPop_next h hc]
    exact .next _
  · rw [fifoPop_empty (by omega)]
    exact .refused _

theorem sinSampleOp_noFault {s : State} (hb : admissible s.cfg = true) (idx : Nat) :
    NoFault (sinSampleOp idx s) := by
  obtain ⟨_, _, _, _, _, _, _, _, _, htable, _⟩ := admissible_iff.mp hb
  rw [sinSampleOp_next htable]
  exact .next _

theorem dacTickOp_noFault {s : State} (hb : admissible s.cfg = true) (h : Running s) : NoFault (dacTickOp s) := by
  cases hs : s.sending with
  | true => exact .of_steps (h.dacTick hb hs)
  | false =>
    rw [dacTickOp, if_pos hs]
    exact .refused _

/-- An operation behind the initialisation check, from a state within the invariant. -/
theorem Inv.noFault {s : State} {o : Res State} (h : Inv s) (ho : Running s → NoFault o) :
    NoFault (Machine.ifInitialised s o) := by
  unfold Machine.ifInitialised
  split
  case isTrue hi => exact ho (h.running hi)
  case isFalse => exact .refused _

theorem exec_noFault {s : State} {i : Instr} (h : Inv s) (hi : i.issuable = true) : NoFault (exec i s) := by
  cases i
  case init => exact .next _
  case adctick x => exact h.noFault fun hr => .of_steps (hr.adcTick x)
  case hdlcrx b => exact h.noFault fun hr => .of_steps (hr.hdlcRx b)
  case dactick => exact h.noFault (dacTickOp_noFault h.build)
  case txpush b => exact h.noFault fun hr => .ite (.refused _) (fifoPush_noFault (hr.rings .tx) b)
  case rxpop =>
    exact h.noFault fun hr => .ite (.refused _) (.andThen (fifoPop_noFault (hr.rings .rx)) fun _ => .next _)
  case sinsample x => exact h.noFault fun _ => .andThen (sinSampleOp_noFault h.build _) fun _ => .next _
  case txstart | rxempty | txfull | sending | relax => exact h.noFault fun _ => .next _
  all_goals cases hi

theorem present_noFault {s : State} (h : Inv s) (w : CmdWord) : NoFault (present w s) := by
  unfold present
  split
  · exact .refused _
  next i hd => exact exec_noFault h (decodePort_issuable hd)

/-- Settles O10: every index an issuable operation forms is a ring index or a folded sine index. -/
theorem stepFromTheInvariantNeverFaults : Obligations.StepFromTheInvariantNeverFaults := by
  intro s f h
  cases hp : s.pending with
  | nil =>
    rw [step, if_pos h.build, hp]
    exact nofun
  | cons w rest =>
    rw [step_cons h.build hp]
    exact present_noFault (h.withPending rest) w f

/-! ## `RXPOP` -/

theorem length_queue_rx (s : State) : (s.queue .rx).length = s.rxFifo.count := Ring.length_queue _ _

theorem execRxpop_empty {s : State} (hi : s.initialised = true) (h : s.rxFifo.count = 0) :
    execRxpop s = .refused .rxFifoEmpty := by
  rw [execRxpop, ifInitialised_of_init hi, if_pos (fifoIsEmpty_iff (f := .rx).mpr h)]

theorem execRxpop_next {s : State} (hi : s.initialised = true) (hr : s.rxFifo.ok s.cfg.rxBuflen = true)
    (h : 0 < s.rxFifo.count) : execRxpop s = .next { s with
      rxFifo := s.rxFifo.popped s.cfg.rxBuflen
      replies := s.replies ++ [.octet (s.rxFifo.buf.read s.rxFifo.head)] } := by
  have hne : ¬ fifoIsEmpty .rx s = true := fun he => h.ne' (fifoIsEmpty_iff.mp he)
  rw [execRxpop, ifInitialised_of_init hi, if_neg hne, fifoPop_next (f := .rx) hr h]
  rfl

/-- Settles O16: the element at the read index heads the queue, and the pop leaves the rest of it. -/
theorem rxpopReturnsTheOldestOctet : Obligations.RxpopReturnsTheOldestOctet := by
  refine ⟨rfl, fun s hi hr => ?_⟩
  have hlen := length_queue_rx s
  refine ⟨fun v l hq => ?_, fun hq => ?_⟩
  · have hpos : 0 < s.rxFifo.count := by simp [← hlen, hq]
    obtain ⟨rfl, hrest⟩ := List.cons.inj ((Ring.queue_popped hr hpos).symm.trans hq)
    exact ⟨_, execRxpop_next hi hr hpos, hrest, Ring.popped_ok hr hpos, rfl, rfl⟩
  · exact execRxpop_empty hi (by simp [← hlen, hq])

/-! ## The receive parser on a data bit -/

/-- The history after a line bit, as a number (rule R210). -/
theorem shiftIn16_eq (r : Reg16) (b : Bool) :
    shiftIn16 r b = BitVec.ofNat 16 ((2 * r.toNat + b.toNat) % 65536) := by
  have hshift : shiftIn16 r b = r.shiftConcat b := by
    ext i hi
    by_cases h0 : i = 0 <;> cases b <;> simp [shiftIn16, BitVec.getElem_shiftConcat, h0]
  apply BitVec.eq_of_toNat_eq
  rw [hshift, BitVec.toNat_shiftConcat, Nat.shiftLeft_eq, BitVec.toNat_ofNat]
  omega

theorem isFlag_iff {d : Reg16} : isFlag d = true ↔ d.toNat % 256 = 0x7E := by
  simp [isFlag, ← BitVec.toNat_inj, BitVec.extractLsb'_toNat]

theorem isAbort_iff {c : Config} {d : Reg16} :
    isAbort c d = true ↔ d.toNat % 2 ^ c.abortOnes = 2 ^ c.abortOnes - 1 := by
  simp [isAbort]

theorem isStuffed_iff {d : Reg16} : isStuffed d = true ↔ d.toNat % 64 = 0x3E := by
  simp [isStuffed, ← BitVec.toNat_inj, BitVec.extractLsb'_toNat]

theorem isReserved_iff {v : Octet} : isReserved v = true ↔ v = 0x7E#8 ∨ v = 0x7F#8 ∨ v = 0x1B#8 := by
  simp [isReserved, or_assoc]

/-- The accumulator after a line bit, bit by bit (rule R73). -/
theorem shiftInTop_eq {r c : Octet} {b : Bool} (htop : c.getLsbD 7 = b)
    (hlow : ∀ k, k < 7 → c.getLsbD k = r.getLsbD (k + 1)) : shiftInTop r b = c := by
  apply BitVec.eq_of_getLsbD_eq
  intro i hi
  by_cases h7 : i = 7
  · subst h7 htop
    cases c.getLsbD 7 <;> simp [shiftInTop]
  · have hmask : (0x80#8).getLsbD i = false := by
      have hall : ∀ k < 8, k ≠ 7 → (0x80#8).getLsbD k = false := by decide
      exact hall i hi h7
    rw [hlow i (by omega), Nat.add_comm]
    cases b <;> simp [shiftInTop, hmask]

/-- A bit in a frame that ends no pattern is data (rule R210). -/
theorem hdlcRxOp_data {s : State} {b : Bool} (hflag : isFlag (shiftIn16 s.demodBits b) = false)
    (habort : isAbort s.cfg (shiftIn16 s.demodBits b) = false)
    (hstuffed : isStuffed (shiftIn16 s.demodBits b) = false) (ho : s.hdlcRxstart = true) :
    hdlcRxOp b s = dataCase b { s with demodBits := shiftIn16 s.demodBits b } := by
  simp [hdlcRxOp, hflag, habort, hstuffed, ho]

/-- The classification by the history as a number `d`, as the statements give it. -/
theorem exec_hdlcrx_data {s : State} {b : Bool} {d : Nat} (hi : s.initialised = true) (ho : s.hdlcRxstart = true)
    (hd : d = (2 * s.demodBits.toNat + b.toNat) % 65536) (hflag : d % 256 ≠ 0x7E)
    (habort : d % 2 ^ s.cfg.abortOnes ≠ 2 ^ s.cfg.abortOnes - 1) (hstuffed : d % 64 ≠ 0x3E) :
    exec (.hdlcrx b) s = dataCase b { s with demodBits := BitVec.ofNat 16 d } := by
  have hshift : shiftIn16 s.demodBits b = BitVec.ofNat 16 d := hd ▸ shiftIn16_eq s.demodBits b
  have hnat : (BitVec.ofNat 16 d).toNat = d := Nat.mod_eq_of_lt (hd ▸ Nat.mod_lt _ (by decide))
  rw [← hshift]
  refine (ifInitialised_of_init hi _).trans (hdlcRxOp_data ?_ ?_ ?_ ho) <;> rw [hshift, Bool.eq_false_iff]
  · rwa [Ne, isFlag_iff, hnat]
  · rwa [Ne, isAbort_iff, hnat]
  · rwa [Ne, isStuffed_iff, hnat]

/-- A bit that does not complete an octet (rule R214). -/
theorem dataCase_partial {s : State} {b : Bool} {c : Octet} (hc : shiftInTop s.hdlcCurrchar b = c)
    (h : s.hdlcBitIdx.toNat < 7) :
    dataCase b s = .next { s with hdlcCurrchar := c, hdlcBitIdx := s.hdlcBitIdx + 1#8 } := by
  have hne : ¬ s.hdlcBitIdx + 1#8 = 8#8 := by bv_omega
  rw [dataCase, if_neg hne, hc]

/-- The bit that completes the octet `c` (rule R214). -/
theorem dataCase_octet {s : State} {b : Bool} {c : Octet} (hc : shiftInTop s.hdlcCurrchar b = c)
    (h : s.hdlcBitIdx.toNat = 7) :
    dataCase b s = andThen (storeOctet c { s with hdlcCurrchar := c, hdlcBitIdx := s.hdlcBitIdx + 1#8 })
      fun u => .next (clearAccumulator u) := by
  have heq : s.hdlcBitIdx + 1#8 = 8#8 := by bv_omega
  rw [dataCase, if_pos heq, hc]

/-- Settles O40: the accumulator is `c` after the bit; `storeOctet_next` says what becomes of a completed octet. -/
theorem hdlcrxAssemblesAndEscapesOctets : Obligations.HdlcrxAssemblesAndEscapesOctets := by
  intro s bit c hi hr ho hidx d hflag habort hstuffed htop hlow free reserved
  have hc : shiftInTop s.hdlcCurrchar bit = c := shiftInTop_eq htop hlow
  have hdata : exec (.hdlcrx bit) s = dataCase bit { s with demodBits := BitVec.ofNat 16 d } :=
    exec_hdlcrx_data hi ho rfl hflag habort hstuffed
  refine ⟨fun h => hdata.trans (dataCase_partial hc h), fun h => ?_⟩
  obtain ⟨l, o, hstore, hfit, hplain, hpair, hone, hfull⟩ := storeOctet_next (s := { s with
    demodBits := BitVec.ofNat 16 d
    hdlcCurrchar := c
    hdlcBitIdx := s.hdlcBitIdx + 1#8 }) hr ho c
  obtain ⟨_, hqueue, _⟩ := Ring.pushedAll_spec l hr hfit
  have hqueue_eq {l' : List Octet} {o' : Bool} (h : l = l' ∧ o = o') :
      (s.rxFifo.pushedAll s.cfg.rxBuflen l).queue s.cfg.rxBuflen = s.queue .rx ++ l' ∧ o = o' :=
    ⟨h.1 ▸ hqueue, h.2⟩
  have hres : isReserved c = true ↔ reserved := isReserved_iff
  have hnres : isReserved c = false ↔ ¬ reserved := by rw [← hres, Bool.not_eq_true]
  have hfree : free = s.cfg.rxBuflen - s.rxFifo.count := congrArg (_ - ·) (length_queue_rx s)
  obtain ⟨_, _, hle, _⟩ := Ring.ok_iff.mp hr
  have hoctet := hdata.trans (dataCase_octet (s := { s with demodBits := BitVec.ofNat 16 d }) hc h)
  rw [hstore, andThen_next] at hoctet
  refine ⟨_, hoctet, rfl, ?_, ?_, ?_, ?_⟩
  · exact fun hn hroom => hqueue_eq (hplain (hnres.mpr hn) (by simp only; omega))
  · exact fun hy hroom => hqueue_eq (hpair (hres.mpr hy) (by simp only; omega))
  · exact fun hy hroom => hqueue_eq (hone (hres.mpr hy) (by simp only; omega))
  · intro hroom
    have hsame := hqueue_eq (hfull (by simp only; omega))
    rwa [List.append_nil] at hsame

/-! ## The two ticks, each beside what the other writes -/

/-- `s` with what a DAC tick may change (rule R63) taken from `t`. -/
def withTransmitter (t s : State) : State := { s with
  txFifo := t.txFifo
  currOut := t.currOut
  txBit := t.txBit
  sampleCount := t.sampleCount
  phaseAcc := t.phaseAcc
  phaseInc := t.phaseInc
  bitStuff := t.bitStuff
  stuffCnt := t.stuffCnt
  preambleLen := t.preambleLen
  trailerLen := t.trailerLen
  sending := t.sending
  events := t.events
  replies := t.replies }

/-- `s` with what an ADC tick may change (rule R63) taken from `r`. -/
def withReceiver (r s : State) : State := { s with
  delayFifo := r.delayFifo
  rxFifo := r.rxFifo
  iirX0 := r.iirX0
  iirX1 := r.iirX1
  iirY0 := r.iirY0
  iirY1 := r.iirY1
  sampledBits := r.sampledBits
  foundBits := r.foundBits
  currPhase := r.currPhase
  demodBits := r.demodBits
  hdlcRxstart := r.hdlcRxstart
  hdlcCurrchar := r.hdlcCurrchar
  hdlcBitIdx := r.hdlcBitIdx }

/-- `o'` is the result `o` with `g` applied to what it holds: the same step, or the same refusal. -/
def Tracks {α : Type} (g : α → α) (o o' : Res α) : Prop := o' = andThen o fun a => .next (g a)

namespace Tracks

variable {α β : Type} {g : α → α} {g' : β → β}

theorem next {a a' : α} (h : a' = g a) : Tracks g (.next a) (.next a') := congrArg _ h

theorem fault (f : Fault) : Tracks g (.fault f) (.fault f) := rfl

theorem refused (r : Refusal) : Tracks g (.refused r) (.refused r) := rfl

theorem ite {p : Prop} [Decidable p] {o₁ o₂ o₁' o₂' : Res α} (h₁ : Tracks g o₁ o₁') (h₂ : Tracks g o₂ o₂') :
    Tracks g (if p then o₁ else o₂) (if p then o₁' else o₂') := by
  split
  · exact h₁
  · exact h₂

theorem andThen {o o' : Res α} {k k' : α → Res β} (h : Tracks g o o') (hk : ∀ a, Tracks g' (k a) (k' (g a))) :
    Tracks g' (andThen o k) (andThen o' k') := by
  cases o with
  | next a =>
    rw [h]
    exact hk a
  | fault f =>
    rw [h]
    exact fault f
  | refused r =>
    rw [h]
    exact refused r

/-- A value read off the state, the same in both runs, comes first. -/
theorem andThen_value {o : Res α} {k k' : α → Res β} (hk : ∀ a, Tracks g' (k a) (k' a)) :
    Tracks g' (Machine.andThen o k) (Machine.andThen o k') :=
  andThen (g := id) (by cases o <;> rfl) hk

theorem eq_next {o o' : Res α} {a : α} (h : Tracks g o o') (ha : o = .next a) : o' = .next (g a) := by
  rw [h, ha]
  rfl

theorem ifInitialised {g : State → State} {s s' : State} {o o' : Res State} (hs : s'.initialised = s.initialised)
    (h : Tracks g o o') : Tracks g (ifInitialised s o) (ifInitialised s' o') := by
  unfold Machine.ifInitialised
  rw [hs]
  exact ite h (refused _)

/-- Going on after a refusal is tracked too, as both runs are refused (log entry 6). -/
theorem stateAfter {g : State → State} {o o' : Res State} (h : Tracks g o o') (s : State) :
    stateAfter (g s) o' = g (stateAfter s o) := by
  rw [h]
  cases o <;> rfl

end Tracks

section AdcTick

variable (t : State)

/-- A FIFO of the receiver, pushed onto. -/
theorem fifoPush_tracks {f : Fifo} (hf : f ≠ .tx) (v : Octet) (s : State) :
    Tracks (withTransmitter t) (fifoPush f v s) (fifoPush f v (withTransmitter t s)) := by
  cases f with
  | delay =>
    exact .ite (.andThen (g := withTransmitter t) (.ite (.next rfl) (.fault _)) fun _ => .next rfl) (.refused _)
  | rx =>
    exact .ite (.andThen (g := withTransmitter t) (.ite (.next rfl) (.fault _)) fun _ => .next rfl) (.refused _)
  | tx => exact absurd rfl hf

theorem fifoPop_delay_tracks (s : State) :
    Tracks (Prod.map id (withTransmitter t)) (fifoPop .delay s) (fifoPop .delay (withTransmitter t s)) :=
  .ite (.andThen_value fun _ => .next rfl) (.refused _)

theorem rxPut_tracks (b : Octet) (s : State) :
    Tracks (Prod.map id (withTransmitter t)) (rxPut b s) (rxPut b (withTransmitter t s)) :=
  .ite (.next rfl) (.andThen (fifoPush_tracks t (by decide) b s) fun _ => .next rfl)

theorem flagCase_tracks (s : State) :
    Tracks (withTransmitter t) (flagCase s) (flagCase (withTransmitter t s)) :=
  .andThen (rxPut_tracks t hdlcFlag s) fun _ => .next rfl

theorem storeOctet_tracks (c : Octet) (s : State) :
    Tracks (withTransmitter t) (storeOctet c s) (storeOctet c (withTransmitter t s)) :=
  .andThen (.ite (rxPut_tracks t ax25Esc s) (.next rfl)) fun p =>
    .ite (.andThen (rxPut_tracks t c p.2) fun _ => .next rfl) (.next rfl)

theorem dataCase_tracks (b : Bool) (s : State) :
    Tracks (withTransmitter t) (dataCase b s) (dataCase b (withTransmitter t s)) :=
  .ite (.andThen (storeOctet_tracks t _ _) fun _ => .next rfl) (.next rfl)

theorem hdlcRxOp_tracks (b : Bool) (s : State) :
    Tracks (withTransmitter t) (hdlcRxOp b s) (hdlcRxOp b (withTransmitter t s)) :=
  .ite (flagCase_tracks t _) (.ite (.next rfl) (.ite (.next rfl) (.ite (dataCase_tracks t b _) (.next rfl))))

theorem discrimOp_tracks (x : Octet) (s : State) :
    Tracks (withTransmitter t) (discrimOp x s) (discrimOp x (withTransmitter t s)) :=
  .andThen (fifoPop_delay_tracks t s) fun _ => .next rfl

theorem filterOp_withTransmitter (s : State) :
    filterOp (withTransmitter t s) = withTransmitter t (filterOp s) := by
  have hcfg : (withTransmitter t s).cfg = s.cfg := rfl
  cases hf : s.cfg.filter <;> simp only [filterOp, hcfg, hf] <;> rfl

theorem bitDecOp_withTransmitter (s : State) :
    bitDecOp (withTransmitter t s) = Prod.map id (withTransmitter t) (bitDecOp s) := by
  have hphase : (withTransmitter t s).currPhase = s.currPhase := rfl
  simp only [bitDecOp, hphase]
  split <;> rfl

/-- An ADC tick neither reads nor writes what a DAC tick may change. -/
theorem adcTickOp_tracks (x : Octet) (s : State) :
    Tracks (withTransmitter t) (adcTickOp x s) (adcTickOp x (withTransmitter t s)) := by
  refine .andThen (discrimOp_tracks t x s) fun a => ?_
  rw [filterOp_withTransmitter]
  refine .andThen (fifoPush_tracks t (by decide) x (sliceOp (filterOp a))) fun b => ?_
  have hdec : bitDecOp (clkRecOp (withTransmitter t b)) = _ := bitDecOp_withTransmitter t (clkRecOp b)
  simp only [hdec]
  exact .ite (hdlcRxOp_tracks t _ _) (.next rfl)

end AdcTick

section DacTick

variable (r : State)

theorem fifoPop_tx_tracks (s : State) :
    Tracks (Prod.map id (withReceiver r)) (fifoPop .tx s) (fifoPop .tx (withReceiver r s)) :=
  .ite (.andThen_value fun _ => .next rfl) (.refused _)

theorem fetchOctet_tracks (s : State) :
    Tracks (withReceiver r) (fetchOctet s) (fetchOctet (withReceiver r s)) :=
  .ite (.next rfl) (.ite (.andThen (fifoPop_tx_tracks r s) fun _ => .next rfl) (.next rfl))

theorem resolveOctet_tracks (s : State) :
    Tracks (Prod.map id (withReceiver r)) (resolveOctet s) (resolveOctet (withReceiver r s)) :=
  .ite (.ite (.next rfl) (.andThen (fifoPop_tx_tracks r s) fun _ => .next rfl))
    (.ite (.next rfl) (.next rfl))

theorem txFetchOp_tracks (s : State) :
    Tracks (Prod.map id (withReceiver r)) (txFetchOp s) (txFetchOp (withReceiver r s)) :=
  .ite (.next rfl) (.andThen (fetchOctet_tracks r (enableStuffing s)) (resolveOctet_tracks r))

theorem ddsStepOp_tracks (s : State) :
    Tracks (Prod.map id (withReceiver r)) (ddsStepOp s) (ddsStepOp (withReceiver r s)) :=
  .andThen_value fun _ => .next rfl

theorem dacSample_tracks (s : State) :
    Tracks (withReceiver r) (dacSample s) (dacSample (withReceiver r s)) :=
  .andThen (ddsStepOp_tracks r s) fun _ => .next rfl

theorem txBitOp_withReceiver (s : State) : txBitOp (withReceiver r s) = withReceiver r (txBitOp s) := by
  cases hd : stuffDue s with
  | true =>
    rw [txBitOp_stuffed hd, txBitOp_stuffed (s := withReceiver r s) hd]
    rfl
  | false =>
    by_cases hb : s.currOut &&& s.txBit = 0#8
    · rw [txBitOp_zero hd hb, txBitOp_zero (s := withReceiver r s) hd hb]
      rfl
    · rw [txBitOp_one hd hb, txBitOp_one (s := withReceiver r s) hd hb]
      rfl

theorem txBit_dacSample_tracks (s : State) :
    Tracks (withReceiver r) (dacSample (txBitOp s)) (dacSample (txBitOp (withReceiver r s))) := by
  rw [txBitOp_withReceiver]
  exact dacSample_tracks r _

/-- A DAC tick neither reads nor writes what an ADC tick may change. -/
theorem dacTickOp_tracks (s : State) :
    Tracks (withReceiver r) (dacTickOp s) (dacTickOp (withReceiver r s)) :=
  .ite (.refused _)
    (.ite
      (.ite
        (.andThen (txFetchOp_tracks r s) fun
          | (.stop, _) => .next rfl
          | (.goOn, u) => txBit_dacSample_tracks r u)
        (txBit_dacSample_tracks r s))
      (dacSample_tracks r s))

end DacTick

/-! ## The ticks commute -/

theorem exec_adctick_tracks (t s : State) (x : Octet) :
    Tracks (withTransmitter t) (exec (.adctick x) s) (exec (.adctick x) (withTransmitter t s)) :=
  .ifInitialised rfl (adcTickOp_tracks t x s)

theorem exec_dactick_tracks (r s : State) :
    Tracks (withReceiver r) (exec .dactick s) (exec .dactick (withReceiver r s)) :=
  .ifInitialised rfl (dacTickOp_tracks r s)

/-- What an ADC tick leaves differs from `s` in the receiver only. -/
theorem exec_adctick_receiver {s a : State} {x : Octet} (h : Running s) (ha : exec (.adctick x) s = .next a) :
    withReceiver a s = a := by
  rw [exec_adctick h.init] at ha
  have hparser : a = _ := adcTickOp_decided h ha
  rw [decided_frame] at hparser
  rw [hparser]
  rfl

/-- What a DAC tick leaves differs from `s` in the transmitter only. -/
theorem exec_dactick_transmitter {s b : State} (hb : exec .dactick s = .next b) : withTransmitter b s = b :=
  (exec_writesTransmitter (.inl rfl) s b hb).1.symm

/-- The receiver of one result beside the transmitter of the other, built from either side. -/
theorem withReceiver_eq_withTransmitter {s a b : State} (ha : withReceiver a s = a) (hb : withTransmitter b s = b) :
    withReceiver a b = withTransmitter b a := by
  rw [← ha, ← hb]
  rfl

/-- Settles O53: neither tick reads what the other writes, so each order merges the two results. -/
theorem adcAndDacTicksCommute : Obligations.AdcAndDacTicksCommute := by
  intro s a b x _ h ha hb
  have hra := exec_adctick_receiver h ha
  have htb := exec_dactick_transmitter hb
  have hdac := (exec_dactick_tracks a s).eq_next hb
  have hadc := (exec_adctick_tracks b s x).eq_next ha
  rw [hra] at hdac
  rw [htb, ← withReceiver_eq_withTransmitter hra htb] at hadc
  exact ⟨withReceiver a b, hdac, hadc⟩

/-! ## Interleavings -/

/-- The state an operation leaves, a refused one leaving its own (log entry 6). -/
def afterExec (i : Instr) (s : State) : State := stateAfter s (exec i s)

theorem execAll_cons (i : Instr) (is : List Instr) (s : State) : execAll (i :: is) s = execAll is (afterExec i s) := rfl

/-- What holds of `s` and of whatever the operation can leave holds after it, refused or not. -/
theorem afterExec_cases {R : State → Prop} {i : Instr} {s : State} (hself : R s)
    (hnext : ∀ t, exec i s = .next t → R t) : R (afterExec i s) := by
  unfold afterExec
  cases ho : exec i s with
  | next t => exact hnext t ho
  | fault f => exact hself
  | refused r => exact hself

/-- An issuable operation, refused or not, leaves an admissible build running. -/
theorem afterExec_running {s : State} {i : Instr} (hb : admissible s.cfg = true) (h : Running s)
    (hi : i.issuable = true) : admissible (afterExec i s).cfg = true ∧ Running (afterExec i s) :=
  afterExec_cases (R := fun t => admissible t.cfg = true ∧ Running t) ⟨hb, h⟩ fun t ht =>
    ⟨(exec_adds i s t ht).cfg ▸ hb, exec_running ⟨hb, fun _ => h⟩ hi ht⟩

/-- An ADC tick and a DAC tick can be exchanged, even if the DAC tick is refused. -/
theorem afterExec_ticks_comm {s : State} (h : Running s) (x : Octet) :
    afterExec (.adctick x) (afterExec .dactick s) = afterExec .dactick (afterExec (.adctick x) s) := by
  have hra : withReceiver (afterExec (.adctick x) s) s = afterExec (.adctick x) s :=
    afterExec_cases (R := fun a => withReceiver a s = a) rfl fun _ ha => exec_adctick_receiver h ha
  have htb : withTransmitter (afterExec .dactick s) s = afterExec .dactick s :=
    afterExec_cases (R := fun b => withTransmitter b s = b) rfl fun _ hb => exec_dactick_transmitter hb
  have hadc := (exec_adctick_tracks (afterExec .dactick s) s x).stateAfter s
  have hdac := (exec_dactick_tracks (afterExec (.adctick x) s) s).stateAfter s
  rw [htb] at hadc
  rw [hra] at hdac
  exact hadc.trans ((withReceiver_eq_withTransmitter hra htb).symm.trans hdac.symm)

/-- The operation is an ADC tick. -/
def IsAdcTick (i : Instr) : Prop := ∃ x, i = .adctick x

/-- A DAC tick ahead of ADC ticks can be made behind them. -/
theorem execAll_afterExec_dactick {l : List Instr} (hl : ∀ i ∈ l, IsAdcTick i) {s : State}
    (hb : admissible s.cfg = true) (h : Running s) :
    execAll l (afterExec .dactick s) = afterExec .dactick (execAll l s) := by
  induction l generalizing s with
  | nil => rfl
  | cons i l ih =>
    obtain ⟨⟨x, rfl⟩, htail⟩ := List.forall_mem_cons.mp hl
    obtain ⟨hb', h'⟩ := afterExec_running hb h (i := .adctick x) rfl
    rw [execAll_cons, execAll_cons, afterExec_ticks_comm h, ih htail hb' h']

/-- The ADC ticks of a sequence. -/
def adcTicks (p : List Instr) : List Instr := p.filter fun i => decide (i ≠ .dactick)

/-- A sequence of ticks leads where its ADC ticks lead with its DAC ticks behind them. -/
theorem execAll_ticks {p : List Instr} (hp : ∀ i ∈ p, i = .dactick ∨ IsAdcTick i) {s : State}
    (hb : admissible s.cfg = true) (h : Running s) :
    execAll p s = (afterExec .dactick)^[p.count .dactick] (execAll (adcTicks p) s) := by
  induction p generalizing s with
  | nil => rfl
  | cons i p ih =>
    obtain ⟨hi, htail⟩ := List.forall_mem_cons.mp hp
    rcases hi with rfl | ⟨x, rfl⟩
    · obtain ⟨hb', h'⟩ := afterExec_running hb h (i := .dactick) rfl
      have hadc : ∀ i ∈ adcTicks p, IsAdcTick i := by
        intro i hi
        obtain ⟨hmem, hne⟩ := List.mem_filter.mp hi
        exact (htail i hmem).resolve_left (of_decide_eq_true hne)
      have hdrop : adcTicks (.dactick :: p) = adcTicks p := rfl
      rw [execAll_cons, ih htail hb' h', execAll_afterExec_dactick hadc hb h, hdrop, List.count_cons_self,
        Function.iterate_succ_apply]
    · obtain ⟨hb', h'⟩ := afterExec_running hb h (i := .adctick x) rfl
      have hne : Instr.adctick x ≠ .dactick := nofun
      have hkeep : adcTicks (.adctick x :: p) = .adctick x :: adcTicks p := rfl
      rw [execAll_cons, ih htail hb' h', hkeep, execAll_cons, List.count_cons_of_ne hne]

/-- Settles O54: both sequences lead where their common ADC ticks lead, as many DAC ticks later. -/
theorem interleavingOfTicksDoesNotMatter : Obligations.InterleavingOfTicksDoesNotMatter := by
  intro s p q hb h hticks hadc hdac
  obtain ⟨hp, hq⟩ := List.forall_mem_append.mp hticks
  have hadc' : adcTicks p = adcTicks q := hadc
  rw [execAll_ticks hp hb h, execAll_ticks hq hb h, hadc', hdac]

end Sys2Proof.Machine

/-! PROOFS. The family of 30_encoding.md: the command word and its operation (rules R100 to R106), the escaped stream
(rules R112, R113), the line format as the transmitter sends it (rules R110, R111, R114 to R116, R230 to R234) and as
the receiver takes it (rule R219). -/

namespace Sys2Proof.Machine

/-! ## The command word and its operation -/

/-- The word of a well-formed operation names it (rules R100, R102, R104). -/
theorem decode_encode {i : Instr} (h : i.wf = true) : decode (encode i) = .ok i := by
  obtain ⟨r, hr, hok, hbuild⟩ := rowOfOp i
  simp [decode, OpRow.operation, hr, hok, h, hbuild]

/-- Settles O1: an operation's code finds its row, whose layout accepts the operand and rebuilds the operation. -/
theorem encodedOperationDecodesToItself : Obligations.EncodedOperationDecodesToItself :=
  fun _ => decode_encode

/-- An operand field whose upper part is zero is zeros over its lower part (rule R102). -/
theorem zero_append_extract {n m k : Nat} (h : k = n + m) {a : BitVec k} (hz : a.extractLsb' m n = 0#n) :
    (0#n ++ a.extractLsb' 0 m).cast h.symm = a := by
  rw [← hz]
  exact extract_append_extract h a

theorem octetArg_argOctet {a : BitVec 16} (h : a.extractLsb' 8 8 = 0#8) : octetArg (argOctet a) = a :=
  zero_append_extract (n := 8) (m := 8) rfl h

theorem idxArg_argIdx {a : BitVec 16} (h : a.extractLsb' 9 7 = 0#7) : idxArg (argIdx a) = a :=
  zero_append_extract (n := 7) (m := 9) rfl h

theorem bitArg_argBit {a : BitVec 16} (h : a.extractLsb' 1 15 = 0#15) : bitArg (argBit a) = a := by
  have hbit : BitVec.ofBool (argBit a) = a.extractLsb' 0 1 := by
    ext i hi
    obtain rfl : i = 0 := by omega
    simp [argBit]
  rw [bitArg, hbit]
  exact zero_append_extract (n := 15) (m := 1) rfl h

theorem fifoArg_argFifo_argOctet {a : BitVec 16} (h : a.extractLsb' 10 6 = 0#6) :
    fifoArg (argFifo a) (argOctet a) = a := by
  have hlow : argFifo a ++ argOctet a = a.extractLsb' 0 10 := BitVec.extractLsb'_append_extractLsb'_eq_extractLsb' rfl
  rw [fifoArg, hlow]
  exact zero_append_extract (n := 6) (m := 10) rfl h

theorem fifoArg_argFifo {a : BitVec 16} (h : a.extractLsb' 10 6 = 0#6) (hz : a.extractLsb' 0 8 = 0#8) :
    fifoArg (argFifo a) 0#8 = a := by
  rw [← hz]
  exact fifoArg_argFifo_argOctet h

/-- Row by row of rule R104: an operand field the row's layout accepts is that of the operation the row builds, and
that is well formed. -/
theorem row_rebuilds {r : OpRow} (hr : r ∈ opTable) {a : BitVec 16} (h : r.layout.operandOk a = true) :
    (r.build a).wf = true ∧ (r.build a).arg = a := by
  revert r
  simp +contextual [opTable, portRows, adcRows, dacRows, fifoRows, Layout.operandOk, Instr.wf, Instr.arg,
    octetArg_argOctet, idxArg_argIdx, bitArg_argBit, fifoArg_argFifo_argOctet, fifoArg_argFifo]

theorem operation_eq_ok_iff {r : OpRow} {a : BitVec 16} {i : Instr} :
    r.operation a = .ok i ↔ r.layout.operandOk a = true ∧ r.build a = i := by
  unfold OpRow.operation
  split <;> simp_all

theorem operation_ne_error {r : OpRow} {a : BitVec 16} {e : Reject} (he : e ≠ .badOperand) :
    r.operation a ≠ .error e := by
  unfold OpRow.operation
  split
  · nofun
  · simpa using he.symm

/-- What a row reads from a word of its code is well formed and has that word (rules R102, R105). -/
theorem operation_encode {w : CmdWord} {r : OpRow} (hr : lookupOp (opField w) = some r) {i : Instr}
    (h : r.operation (argField w) = .ok i) : i.wf = true ∧ encode i = w := by
  obtain ⟨hok, rfl⟩ := operation_eq_ok_iff.mp h
  have hmem := List.mem_of_find?_eq_some hr
  have hcode : r.code = opField w := by simpa using List.find?_some hr
  obtain ⟨hwf, harg⟩ := row_rebuilds hmem hok
  refine ⟨hwf, ?_⟩
  rw [encode, op_build hmem, hcode, harg, op_append_arg]

/-- Settles O2: the row that reads the word put its own code and the accepted operand field into the operation. -/
theorem decodedWordIsItsOwnEncoding : Obligations.DecodedWordIsItsOwnEncoding := by
  intro w i h
  unfold decode at h
  split at h
  · cases h
  next r hr => exact operation_encode hr h

/-! ## What the port accepts -/

/-- A reserved code is refused as such (rule R105 (a)). -/
theorem decodePort_eq_reservedOp_iff {w : CmdWord} :
    decodePort w = .error .reservedOp ↔ (lookupOp (opField w)).map OpRow.issuable = none := by
  cases hr : lookupOp (opField w) with
  | none => simp [decodePort, hr]
  | some r => cases hi : r.issuable <;> simp [decodePort, hr, hi, operation_ne_error]

/-- An internal code is refused whatever its operand (rule R105 (b)). -/
theorem decodePort_eq_internalOp_iff {w : CmdWord} :
    decodePort w = .error .internalOp ↔ (lookupOp (opField w)).map OpRow.issuable = some false := by
  cases hr : lookupOp (opField w) with
  | none => simp [decodePort, hr]
  | some r => cases hi : r.issuable <;> simp [decodePort, hr, hi, operation_ne_error]

/-- The port accepts the words of well-formed issuable operations, as those operations (rules R105, R106). -/
theorem decodePort_eq_ok_iff {w : CmdWord} {i : Instr} :
    decodePort w = .ok i ↔ i.wf = true ∧ i.issuable = true ∧ encode i = w := by
  constructor
  · intro h
    have hi := decodePort_issuable h
    unfold decodePort at h
    split at h
    · cases h
    next r hr =>
      split at h
      · obtain ⟨hwf, henc⟩ := operation_encode hr h
        exact ⟨hwf, hi, henc⟩
      · cases h
  · rintro ⟨hwf, hi, rfl⟩
    rw [decodePort_encode hwf, if_pos hi]

/-- A word with an issuable code is refused for its operand iff no operation has it (rule R105 (c), (d)). -/
theorem decodePort_eq_badOperand_iff {w : CmdWord} : decodePort w = .error .badOperand ↔
    (lookupOp (opField w)).map OpRow.issuable = some true ∧ ∀ i : Instr, i.wf = true → encode i ≠ w := by
  constructor
  · intro h
    refine ⟨?_, ?_⟩
    · cases hr : lookupOp (opField w) with
      | none => simp [decodePort, hr] at h
      | some r => cases hi : r.issuable <;> simp_all [decodePort]
    · rintro i hwf rfl
      rw [decodePort_encode hwf] at h
      split at h <;> cases h
  · rintro ⟨hcode, hnone⟩
    cases hd : decodePort w with
    | ok i =>
      obtain ⟨hwf, _, henc⟩ := decodePort_eq_ok_iff.mp hd
      exact absurd henc (hnone i hwf)
    | error e =>
      cases e with
      | reservedOp => simp [decodePort_eq_reservedOp_iff.mp hd] at hcode
      | internalOp => simp [decodePort_eq_internalOp_iff.mp hd] at hcode
      | badOperand => rfl

/-! ### The code ranges of rule R104 -/

/-- The code of a command word, as a number (rule R100). -/
theorem opField_toNat (w : CmdWord) : (opField w).toNat = w.toNat / 65536 := by
  have := w.isLt
  simp only [opField, BitVec.extractLsb'_toNat, Nat.shiftRight_eq_div_pow]
  omega

theorem lookupOp_reserved_iff (c : BitVec 8) : (lookupOp c).map OpRow.issuable = none ↔
    ¬ (c.toNat ≤ 0x02 ∨ (0x10 ≤ c.toNat ∧ c.toNat ≤ 0x16) ∨ (0x20 ≤ c.toNat ∧ c.toNat ≤ 0x28) ∨
      (0x30 ≤ c.toNat ∧ c.toNat ≤ 0x33) ∨ (0x40 ≤ c.toNat ∧ c.toNat ≤ 0x47)) := by
  revert c
  decide

theorem lookupOp_internal_iff (c : BitVec 8) : (lookupOp c).map OpRow.issuable = some false ↔
    (0x20 ≤ c.toNat ∧ c.toNat ≤ 0x27) ∨ (0x30 ≤ c.toNat ∧ c.toNat ≤ 0x32) ∨ (0x40 ≤ c.toNat ∧ c.toNat ≤ 0x47) := by
  revert c
  decide

theorem lookupOp_issuable_iff (c : BitVec 8) : (lookupOp c).map OpRow.issuable = some true ↔
    c.toNat ≤ 0x02 ∨ (0x10 ≤ c.toNat ∧ c.toNat ≤ 0x16) ∨ c.toNat = 0x28 ∨ c.toNat = 0x33 := by
  revert c
  decide

/-- Settles O3: each answer of the port depends on the row of the code, and the rows are those of the code ranges. -/
theorem commandPortAcceptsExactlyIssuableWords : Obligations.CommandPortAcceptsExactlyIssuableWords := by
  intro w op
  have hop : (opField w).toNat = op := opField_toNat w
  rw [← hop]
  refine ⟨?_, ?_, fun _ => decodePort_eq_ok_iff, ?_⟩
  · rw [decodePort_eq_reservedOp_iff, lookupOp_reserved_iff]
  · rw [decodePort_eq_internalOp_iff, lookupOp_internal_iff]
  · rw [decodePort_eq_badOperand_iff, lookupOp_issuable_iff]

/-- Settles O4: the words are closed terms, read by the table. -/
theorem wordsOfTheOperationTableDecode : Obligations.WordsOfTheOperationTableDecode := by
  unfold Obligations.WordsOfTheOperationTableDecode
  decide

/-- A word the port rejects is refused, with the reason (rule R105). -/
theorem step_rejected {s : State} {w : CmdWord} {rest : List CmdWord} {e : Reject} (hb : admissible s.cfg = true)
    (hp : s.pending = w :: rest) (hd : decodePort w = .error e) : step s = .refused (refusalOf e) := by
  rw [step_cons hb hp, present, hd]

/-- Settles O6: the build is looked at first, then whether a word is presented, then the word. -/
theorem stepWithoutAnOperation : Obligations.StepWithoutAnOperation := by
  intro s
  refine ⟨fun hb => ?_, fun hb hp => ?_, fun w rest hb hp hw => ?_, fun w rest hb hp hw => ?_⟩
  · rw [step, if_neg (Bool.eq_false_iff.mp hb)]
  · rw [step, if_pos hb, hp]
  · exact step_rejected hb hp (decodePort_eq_reservedOp_iff.mpr (congrArg (Option.map OpRow.issuable) hw))
  · exact step_rejected hb hp hw

/-- FIFO id 3 names no FIFO (rule R102). -/
theorem onFifo_reserved (k : Fifo → Res State) : onFifo 3#2 k = .refused .badOperand := rfl

/-- Settles O22: every FIFO operation looks its FIFO up before anything else. -/
theorem reservedFifoIdIsRefused : Obligations.ReservedFifoIdIsRefused := by
  intro s v
  have hpush := onFifo_reserved fun g => pushOp g v s
  have hpop := onFifo_reserved fun g => popOp g s
  have hempty := onFifo_reserved fun g => emptyOp g s
  have hfull := onFifo_reserved fun g => fullOp g s
  exact ⟨hpush, hpush, hpop, hpop, hempty, hempty, hfull, hfull⟩

/-! ## The escaped stream -/

/-- An octet's escaped image is one payload item (rules R112, R113). -/
theorem parseFrom_escapeOctet (p : Octet) (l : List Octet) :
    parseFrom false (escapeOctet p ++ l) = .payload p :: parseFrom false l := by
  by_cases hp : p = 0x7E#8 ∨ p = 0x7F#8 ∨ p = 0x1B#8
  · rw [escapeOctet, if_pos (isReserved_iff.mpr hp)]
    rfl
  · rw [escapeOctet, if_neg (isReserved_iff.not.mpr hp)]
    simp_all [parseFrom, plainItem]

theorem parseFrom_escapeAll (ps l : List Octet) :
    parseFrom false (escapeAll ps ++ l) = ps.map .payload ++ parseFrom false l := by
  induction ps with
  | nil => rfl
  | cons p ps ih =>
    rw [escapeAll, List.flatMap_cons, List.append_assoc, parseFrom_escapeOctet]
    exact congrArg _ ih

/-- Settles O43: octet by octet; the flags around the payload are no introducers. -/
theorem escapedPayloadParsesBack : Obligations.EscapedPayloadParsesBack := by
  intro ps
  constructor
  · simpa [parseStream, parseFrom] using parseFrom_escapeAll ps []
  · exact congrArg (Item.flag :: ·) (parseFrom_escapeAll ps [hdlcFlag])

/-! ## The bit time -/

theorem exec_txbit {s : State} (h : s.initialised = true) : exec .txbit s = .next (txBitOp s) :=
  ifInitialised_of_init h _

theorem stuffDue_iff {s : State} : stuffDue s = true ↔ s.bitStuff = true ∧ 5 ≤ s.stuffCnt.toNat := by
  simp [stuffDue]

theorem and_maskBit_eq_zero_iff {v : Octet} {k : Nat} (hk : k < 8) :
    v &&& maskBit k = 0#8 ↔ v.getLsbD k = false := by
  have hand : v &&& maskBit k = if v.getLsbD k then maskBit k else 0#8 := BitVec.and_twoPow v k
  cases hv : v.getLsbD k <;> simp [hand, hv, maskBit_ne_zero hk]

/-- The mask after bit `k` (rule R232): bit 7 is the last. -/
theorem maskBit_next {k : Nat} (hk : k < 8) : maskBit k <<< 1 = if k = 7 then 0#8 else maskBit (k + 1) := by
  split
  case isTrue h7 => subst h7; rfl
  case isFalse => exact maskBit_shift k

/-- Settles O49: the three cases of a bit time, the octet's bit read off the mask. -/
theorem txbitSendsTheBitOrAStuffedZero : Obligations.TxbitSendsTheBitOrAStuffedZero := by
  intro s hi n due
  rw [exec_txbit hi]
  have hdue : ¬ due → stuffDue s = false := fun h => Bool.eq_false_iff.mpr (mt stuffDue_iff.mp h)
  refine ⟨fun h => ?_, fun k hk hm h hbit => ?_, fun k hk hm h hbit => ?_, fun hm h => ?_⟩
  · rw [txBitOp_stuffed (stuffDue_iff.mpr h)]
    rfl
  · have hone : s.currOut &&& s.txBit ≠ 0#8 := by
      rw [hm, Ne, and_maskBit_eq_zero_iff hk, hbit]
      nofun
    rw [txBitOp_one (hdue h) hone, ← maskBit_next hk, hm]
    rfl
  · have hzero : s.currOut &&& s.txBit = 0#8 := by rw [hm, and_maskBit_eq_zero_iff hk, hbit]
    rw [txBitOp_zero (hdue h) hzero, ← maskBit_next hk, hm]
    rfl
  · have hzero : s.currOut &&& s.txBit = 0#8 := by rw [hm, BitVec.and_zero]
    have hstays : s.txBit <<< 1 = s.txBit := by rw [hm]; rfl
    rw [txBitOp_zero (hdue h) hzero, hstays]
    rfl

/-! ## The fetch of a queued octet -/

theorem exec_txfetch {s t : State} {r : Fetched} (h : s.initialised = true) (hf : txFetchOp s = .next (r, t)) :
    exec .txfetch s = .next (t.reply (fetchReply r)) := by
  refine (ifInitialised_of_init h _).trans ?_
  rw [hf, andThen_next]

/-- A queue with an oldest octet: the octet at the read index, and the rest once it is popped (rule R142). -/
theorem Ring.queue_eq_cons {n : Nat} {r : Ring} {v : Octet} {l : List Octet} (h : r.ok n = true)
    (hq : r.queue n = v :: l) :
    0 < r.count ∧ r.buf.read r.head = v ∧ (r.popped n).ok n = true ∧ (r.popped n).queue n = l := by
  have hpos : 0 < r.count := by simp [← Ring.length_queue n r, hq]
  obtain ⟨hv, hl⟩ := List.cons.inj ((Ring.queue_popped h hpos).symm.trans hq)
  exact ⟨hpos, hv, Ring.popped_ok h hpos, hl⟩

/-- Settles O48: the fetch pops the octet `c`; whether it is an introducer, and whether an octet is behind
that, decides the rest. -/
theorem txfetchResolvesQueuedOctets : Obligations.TxfetchResolvesQueuedOctets := by
  intro s c l hi hr hp hq cnt
  obtain ⟨hpos, hc, hok, hl⟩ := Ring.queue_eq_cons hr hq
  have hfetch := txFetchOp_data hr hpos hp
  have hout : (withQueued s).currOut = c := hc
  by_cases hesc : c = 0x1B#8
  · cases l with
    | nil =>
      have hempty : (withQueued s).txFifo.count = 0 := by
        rw [← Ring.length_queue s.cfg.txBuflen]
        exact congrArg List.length hl
      rw [resolveOctet_dangling (hout.trans hesc) hempty] at hfetch
      refine ⟨_, exec_txfetch hi hfetch, hok, rfl, fun h => absurd hesc h, nofun, fun _ _ => ⟨hl, ?_⟩⟩
      rw [← hesc, ← hc]
      rfl
    | cons v m =>
      obtain ⟨hpos', hv, hok', hm⟩ := Ring.queue_eq_cons hok hl
      rw [resolveOctet_escaped (hout.trans hesc) hok hpos'] at hfetch
      refine ⟨_, exec_txfetch hi hfetch, hok', rfl, fun h => absurd hesc h, ?_, nofun⟩
      rintro _ _ _ ⟨rfl, rfl⟩
      exact ⟨hm, hv ▸ rfl⟩
  · rw [resolveOctet_plain (hout ▸ hesc)] at hfetch
    refine ⟨_, exec_txfetch hi hfetch, hok, rfl, fun _ => ⟨hl, ?_⟩, fun _ _ h => absurd h hesc, fun h => absurd h hesc⟩
    have hstuff : decide (c ≠ 0x7E#8 ∧ c ≠ 0x7F#8) = if isOutOfBand c then false else true := by
      simp [isOutOfBand, ← not_or]
    rw [hstuff, ← hc]
    rfl

/-! ## The samples of a line bit -/

theorem exec_dactick {s : State} (hi : s.initialised = true) : exec .dactick s = dacTickOp s :=
  ifInitialised_of_init hi _

/-- Inside a line bit a DAC tick is one sample (rule R230). -/
theorem dacTickOp_sample {s : State} (hs : s.sending = true) (hc : s.sampleCount ≠ 0#16) :
    dacTickOp s = dacSample s := by
  simp [dacTickOp, hs, hc]

/-- At a bit boundary inside an octet, the next bit comes first (rule R230). -/
theorem dacTickOp_bit {s : State} (hs : s.sending = true) (hc : s.sampleCount = 0#16) (hm : s.txBit ≠ 0#8) :
    dacTickOp s = dacSample (txBitOp s) := by
  simp [dacTickOp, hs, hc, hm]

/-- At an octet boundary, a fetch that goes on comes before the bit (rule R230). -/
theorem dacTickOp_fetched {s t : State} (hs : s.sending = true) (hc : s.sampleCount = 0#16) (hm : s.txBit = 0#8)
    (hf : txFetchOp s = .next (.goOn, t)) : dacTickOp s = dacSample (txBitOp t) := by
  simp [dacTickOp, hs, hc, hm, hf]

/-- The DAC ticks a line bit still lasts emit a sample each and advance the phase (rules R111, R164, R230). -/
theorem execAll_samples (k : Nat) {s : State} (hi : s.initialised = true) (hs : s.sending = true)
    (ht : tableOk s.cfg.sinTable = true) (hacc : s.phaseAcc.toNat < 512) (hc : s.sampleCount.toNat = k) :
    ∃ vs : List Octet, vs.length = k ∧ execAll (List.replicate k .dactick) s = { s with
      sampleCount := 0#16
      phaseAcc := toU16 ((s.phaseAcc.toNat + k * s.phaseInc.toNat) % 512)
      events := s.events ++ vs.map .dacWrite } := by
  induction k generalizing s with
  | zero =>
    have hzero : s.sampleCount = 0#16 := BitVec.eq_of_toNat_eq hc
    have hphase : toU16 ((s.phaseAcc.toNat + 0 * s.phaseInc.toNat) % 512) = s.phaseAcc := by
      rw [Nat.zero_mul, Nat.add_zero, Nat.mod_eq_of_lt hacc, toU16, BitVec.ofNat_toNat, BitVec.setWidth_eq]
    refine ⟨[], rfl, ?_⟩
    rw [hphase, ← hzero, List.map_nil, List.append_nil]
    rfl
  | succ k ih =>
    have hne : s.sampleCount ≠ 0#16 := fun h0 => by simp [h0] at hc
    have hstep : exec .dactick s = .next (afterSample s) :=
      ((exec_dactick hi).trans (dacTickOp_sample hs hne)).trans (dacSample_next ht)
    have hphase : (afterSample s).phaseAcc.toNat = nextPhase s :=
      toU16_toNat ((nextPhase_lt s).le.trans (by decide))
    have hleft : (afterSample s).sampleCount.toNat = k := by
      show (s.sampleCount - 1#16).toNat = k
      bv_omega
    obtain ⟨vs, hlen, hrest⟩ := ih (s := afterSample s) hi hs ht (hphase ▸ nextPhase_lt s) hleft
    have hadvance : ((afterSample s).phaseAcc.toNat + k * s.phaseInc.toNat) % 512 =
        (s.phaseAcc.toNat + (k + 1) * s.phaseInc.toNat) % 512 := by
      rw [hphase, nextPhase, Nat.mod_add_mod, Nat.add_mul, Nat.one_mul, Nat.add_assoc, Nat.add_comm s.phaseInc.toNat]
    refine ⟨sinValue s.cfg (nextPhase s) :: vs, congrArg (· + 1) hlen, ?_⟩
    rw [List.replicate_succ, execAll_cons_next hstep, hrest, ← hadvance]
    simp [afterSample]

/-- Ticks that begin with a sample in `u` go on as if they had begun there. -/
theorem execAll_dactick_from {s u : State} (k : Nat) (hi : u.initialised = true) (hs : u.sending = true)
    (hc : u.sampleCount ≠ 0#16) (ht : tableOk u.cfg.sinTable = true) (hfirst : exec .dactick s = dacSample u) :
    execAll (List.replicate (k + 1) .dactick) s = execAll (List.replicate (k + 1) .dactick) u := by
  have hu : exec .dactick u = dacSample u := (exec_dactick hi).trans (dacTickOp_sample hs hc)
  rw [dacSample_next ht] at hu hfirst
  rw [List.replicate_succ, execAll_cons_next hfirst, execAll_cons_next hu]

/-! A bit time leaves what the samples read, and sets how many are due (`txBitOp_frame`). -/

@[simp] theorem txBitOp_cfg (s : State) : (txBitOp s).cfg = s.cfg := by rw [txBitOp_frame]
@[simp] theorem txBitOp_initialised (s : State) : (txBitOp s).initialised = s.initialised := by rw [txBitOp_frame]
@[simp] theorem txBitOp_sending (s : State) : (txBitOp s).sending = s.sending := by rw [txBitOp_frame]
@[simp] theorem txBitOp_phaseAcc (s : State) : (txBitOp s).phaseAcc = s.phaseAcc := by rw [txBitOp_frame]
@[simp] theorem txBitOp_events (s : State) : (txBitOp s).events = s.events := by rw [txBitOp_frame]
@[simp] theorem txBitOp_sampleCount (s : State) : (txBitOp s).sampleCount = toU16 (dacSamplesPerBit s.cfg) := rfl

/-- A first tick that sends the bit due in `b` begins a line bit of its full length (rules R111, R230). -/
theorem execAll_lineBit {s b : State} (hb : admissible b.cfg = true) (hi : b.initialised = true)
    (hs : b.sending = true) (hacc : b.phaseAcc.toNat < 512) (hfirst : exec .dactick s = dacSample (txBitOp b)) :
    ∃ (u : State) (vs : List Octet), exec .txbit b = .next u ∧ vs.length = dacSamplesPerBit b.cfg ∧
      execAll (List.replicate (dacSamplesPerBit b.cfg) .dactick) s = { u with
        sampleCount := 0#16
        phaseAcc := toU16 ((b.phaseAcc.toNat + dacSamplesPerBit b.cfg * u.phaseInc.toNat) % 512)
        events := b.events ++ vs.map .dacWrite } := by
  obtain ⟨_, _, _, _, _, _, hfits, _, _, htable, _⟩ := admissible_iff.mp hb
  have hcount : (txBitOp b).sampleCount.toNat = dacSamplesPerBit b.cfg := toU16_toNat hfits
  obtain ⟨k, hk⟩ := Nat.exists_eq_add_of_le' (dacSamplesPerBit_pos hb)
  have hne : (txBitOp b).sampleCount ≠ 0#16 := fun h0 => by
    rw [h0, hk] at hcount
    cases hcount
  obtain ⟨vs, hlen, hall⟩ := execAll_samples _ (s := txBitOp b) (by simpa using hi) (by simpa using hs)
    (by simpa using htable) (by simpa using hacc) hcount
  refine ⟨txBitOp b, vs, exec_txbit hi, hlen, ?_⟩
  rw [txBitOp_phaseAcc, txBitOp_events] at hall
  rw [← hall, hk]
  exact execAll_dactick_from k (by simpa using hi) (by simpa using hs) hne (by simpa using htable) hfirst

/-- Settles O51: the first tick sends the bit due in the state itself, or in the one the fetch leaves. -/
theorem lineBitLastsItsSamples : Obligations.LineBitLastsItsSamples := by
  intro s hb h hs hc n carries
  have hacc : s.phaseAcc.toNat < 512 := Nat.lt_succ_of_le h.acc
  refine ⟨fun hm => ?_, fun w hm hw hr => ?_⟩
  · exact execAll_lineBit hb h.init hs hacc ((exec_dactick h.init).trans (dacTickOp_bit hs hc hm))
  · obtain ⟨t, hf, rfl⟩ := execTxfetch_continue h.init hw hr
    have hfirst := (exec_dactick h.init).trans (dacTickOp_fetched hs hc hm hf)
    rw [txFetchOp_goOn hf] at hfirst ⊢
    exact execAll_lineBit hb h.init hs hacc hfirst

/-! ## The line history -/

/-- The line history ends in a 0 and `n` ones behind it. -/
def EndsInOnes (n : Nat) (d : Reg16) : Prop := d.toNat % 2 ^ (n + 1) = 2 ^ n - 1

/-- The ones at the end of the line after the bit `b`, `n` of them before it. -/
def onesAfter (n : Nat) (b : Bool) : Nat := if b then n + 1 else 0

theorem onesAfter_le {n m : Nat} (h : n < m) (b : Bool) : onesAfter n b ≤ m := by
  cases b
  · exact Nat.zero_le m
  · exact h

theorem shiftIn16_toNat (r : Reg16) (b : Bool) : (shiftIn16 r b).toNat = (2 * r.toNat + b.toNat) % 65536 := by
  rw [shiftIn16_eq, BitVec.toNat_ofNat]
  exact Nat.mod_mod _ _

theorem endsInOnes_zero (d : Reg16) : EndsInOnes 0 (shiftIn16 d false) := by
  rw [EndsInOnes, shiftIn16_toNat, Bool.toNat_false]
  omega

/-- A full run of ones has seven at least (rule R13). -/
theorem isAbort_low {c : Config} (hb : admissible c = true) {d : Reg16} (h : isAbort c d = true) :
    d.toNat % 128 = 127 := by
  obtain ⟨_, _, _, _, _, _, _, _, _, _, hlen⟩ := admissible_iff.mp hb
  rw [isAbort_iff] at h
  rcases hlen with hlen | hlen <;> rw [hlen] at h <;> omega

namespace EndsInOnes

variable {n : Nat} {d : Reg16}

theorem shift (h : EndsInOnes n d) (hn : n ≤ 5) (b : Bool) : EndsInOnes (onesAfter n b) (shiftIn16 d b) := by
  cases b with
  | false => exact endsInOnes_zero d
  | true =>
    unfold EndsInOnes at h
    rw [onesAfter, if_pos rfl, EndsInOnes, shiftIn16_toNat, Bool.toNat_true]
    interval_cases n <;> omega

/-- A flag has six ones (rule R210). -/
theorem not_isFlag (h : EndsInOnes n d) (hn : n ≤ 5) (b : Bool) : isFlag (shiftIn16 d b) = false := by
  unfold EndsInOnes at h
  rw [Bool.eq_false_iff, Ne, isFlag_iff, shiftIn16_toNat]
  have hbit := b.toNat_le
  interval_cases n <;> omega

theorem not_isAbort (h : EndsInOnes n d) (hn : n ≤ 5) {c : Config} (hb : admissible c = true) (b : Bool) :
    isAbort c (shiftIn16 d b) = false := by
  unfold EndsInOnes at h
  refine Bool.eq_false_iff.mpr fun habort => ?_
  have hlow := isAbort_low hb habort
  rw [shiftIn16_toNat] at hlow
  have hbit := b.toNat_le
  interval_cases n <;> omega

/-- A stuffed bit is a 0 behind five ones (rules R117, R210). -/
theorem isStuffed_shift_iff (h : EndsInOnes n d) (hn : n ≤ 5) (b : Bool) :
    isStuffed (shiftIn16 d b) = true ↔ n = 5 ∧ b = false := by
  unfold EndsInOnes at h
  have hbit : b = false ↔ b.toNat = 0 := by cases b <;> decide
  have hle := b.toNat_le
  rw [isStuffed_iff, shiftIn16_toNat, hbit]
  interval_cases n <;> omega

theorem isFlag_shift (h : EndsInOnes 6 d) : isFlag (shiftIn16 d false) = true := by
  unfold EndsInOnes at h
  rw [isFlag_iff, shiftIn16_toNat, Bool.toNat_false]
  omega

end EndsInOnes

/-! ## The parser on a bit, the history known -/

theorem execAll_append (is js : List Instr) (s : State) : execAll (is ++ js) s = execAll js (execAll is s) := by
  induction is generalizing s with
  | nil => rfl
  | cons i is ih => exact ih (afterExec i s)

theorem exec_hdlcrx {s : State} (h : s.initialised = true) (b : Bool) : exec (.hdlcrx b) s = hdlcRxOp b s :=
  ifInitialised_of_init h _

theorem afterExec_next {i : Instr} {s t : State} (h : exec i s = .next t) : afterExec i s = t := by
  rw [afterExec, h]
  rfl

/-- A stuffed 0 and a bit outside a frame enter the history only (rule R210). -/
theorem hdlcRxOp_skip {n : Nat} {s : State} {b : Bool} (hb : admissible s.cfg = true)
    (h : EndsInOnes n s.demodBits) (hn : n ≤ 5) (hskip : (n = 5 ∧ b = false) ∨ s.hdlcRxstart = false) :
    hdlcRxOp b s = .next { s with demodBits := shiftIn16 s.demodBits b } := by
  simp only [hdlcRxOp, h.not_isFlag hn b, h.not_isAbort hn hb b, h.isStuffed_shift_iff hn b]
  rcases hskip with hskip | hskip <;> simp [hskip]

/-- Every other bit behind five ones at most is data (rule R210). -/
theorem hdlcRxOp_take {n : Nat} {s : State} {b : Bool} (hb : admissible s.cfg = true)
    (h : EndsInOnes n s.demodBits) (hn : n ≤ 5) (htake : ¬ (n = 5 ∧ b = false)) (ho : s.hdlcRxstart = true) :
    hdlcRxOp b s = dataCase b { s with demodBits := shiftIn16 s.demodBits b } :=
  hdlcRxOp_data (h.not_isFlag hn b) (h.not_isAbort hn hb b)
    (Bool.eq_false_iff.mpr (mt (h.isStuffed_shift_iff hn b).mp htake)) ho

theorem hdlcRxOp_flag {s : State} (h : EndsInOnes 6 s.demodBits) :
    hdlcRxOp false s = flagCase { s with demodBits := shiftIn16 s.demodBits false } :=
  if_pos h.isFlag_shift

/-! ## Listening for a flag -/

/-- The parser in or outside a frame: its store in its layout, and `n` ones at the end of the history. -/
structure Listening (c : Config) (n : Nat) (s : State) : Prop where
  build : admissible c = true
  cfg : s.cfg = c
  init : s.initialised = true
  ring : s.rxFifo.ok c.rxBuflen = true
  bitIdx : s.hdlcBitIdx.toNat ≤ 7
  history : EndsInOnes n s.demodBits

/-- In `j` bits the parser completes `m` octets at most, and stores two for each at most (rule R214). -/
def Stores (j m : Nat) (s t : State) : Prop :=
  8 * m + t.hdlcBitIdx.toNat ≤ s.hdlcBitIdx.toNat + j ∧ ∃ l, t.queue .rx = s.queue .rx ++ l ∧ l.length ≤ 2 * m

theorem Stores.of_queue_eq {s t : State} {j : Nat} (hi : t.hdlcBitIdx.toNat ≤ s.hdlcBitIdx.toNat + j)
    (hq : t.queue .rx = s.queue .rx) : Stores j 0 s t :=
  ⟨by omega, [], by rw [hq, List.append_nil], Nat.le_refl _⟩

theorem Stores.trans {s t u : State} {i j m n : Nat} (h : Stores i m s t) (h' : Stores j n t u) :
    Stores (i + j) (m + n) s u := by
  obtain ⟨hm, l, hl, hlen⟩ := h
  obtain ⟨hn, l', hl', hlen'⟩ := h'
  refine ⟨by omega, l ++ l', by rw [hl', hl, List.append_assoc], ?_⟩
  rw [List.length_append]
  omega

theorem StoredShape.length_le {full open' : Bool} {l : List Octet} (h : StoredShape full open' l) : l.length ≤ 2 := by
  cases h <;> simp

/-- One more bit, at most five ones before it. -/
theorem Listening.bit {c : Config} {n : Nat} {s : State} (h : Listening c n s) (hn : n ≤ 5) (b : Bool) :
    Listening c (onesAfter n b) (afterExec (.hdlcrx b) s) ∧ ∃ m, Stores 1 m s (afterExec (.hdlcrx b) s) := by
  obtain ⟨hb, rfl, hi, hr, hidx, hones⟩ := h
  have hexec := exec_hdlcrx hi b
  have hones' := hones.shift hn b
  by_cases hskip : (n = 5 ∧ b = false) ∨ s.hdlcRxstart = false
  · rw [afterExec_next (hexec.trans (hdlcRxOp_skip hb hones hn hskip))]
    exact ⟨⟨hb, rfl, hi, hr, hidx, hones'⟩, 0, .of_queue_eq (Nat.le_succ _) rfl⟩
  · obtain ⟨htake, ho⟩ := not_or.mp hskip
    rw [Bool.not_eq_false] at ho
    have hdata := hexec.trans (hdlcRxOp_take hb hones hn htake ho)
    by_cases h7 : s.hdlcBitIdx.toNat = 7
    · obtain ⟨l, o, hstore, hfit, hshape⟩ := shape_of_storeOctet (s := { s with
        demodBits := shiftIn16 s.demodBits b
        hdlcCurrchar := shiftInTop s.hdlcCurrchar b
        hdlcBitIdx := s.hdlcBitIdx + 1#8 }) hr ho (shiftInTop s.hdlcCurrchar b)
      have hoctet := hdata.trans (dataCase_octet (s := { s with demodBits := shiftIn16 s.demodBits b }) rfl h7)
      rw [hstore, andThen_next] at hoctet
      obtain ⟨hok, hqueue, _⟩ := Ring.pushedAll_spec l hr hfit
      rw [afterExec_next hoctet]
      exact ⟨⟨hb, rfl, hi, hok, Nat.zero_le _, hones'⟩, 1, h7 ▸ Nat.le_refl 8, l, hqueue, hshape.length_le⟩
    · have hlt : s.hdlcBitIdx.toNat < 7 := by omega
      have hnext : (s.hdlcBitIdx + 1#8).toNat = s.hdlcBitIdx.toNat + 1 := by bv_omega
      rw [afterExec_next (hdata.trans (dataCase_partial rfl hlt))]
      exact ⟨⟨hb, rfl, hi, hr, hnext ▸ hlt, hones'⟩, 0, .of_queue_eq hnext.le rfl⟩

/-- `j` ones, at most six with those before them. -/
theorem Listening.ones {c : Config} (j : Nat) {n : Nat} {s : State} (h : Listening c n s) (hn : n + j ≤ 6) :
    Listening c (n + j) (execAll (List.replicate j (.hdlcrx true)) s) ∧
      ∃ m, Stores j m s (execAll (List.replicate j (.hdlcrx true)) s) := by
  induction j generalizing n s with
  | zero => exact ⟨h, 0, .of_queue_eq (Nat.le_refl _) rfl⟩
  | succ j ih =>
    obtain ⟨hnext, m, hm⟩ := h.bit (by omega) true
    obtain ⟨hrest, m', hm'⟩ := ih (n := n + 1) hnext (by omega)
    rw [List.replicate_succ, execAll_cons]
    rw [Nat.add_right_comm] at hrest
    exact ⟨hrest, m + m', Nat.add_comm 1 j ▸ hm.trans hm'⟩

/-! ## Receiving a frame -/

/-- The parser in a frame: `q` on the read stream and the first `k` bits of the octet `v` in the accumulator. -/
structure Receiving (c : Config) (q : List Octet) (v : Octet) (k n : Nat) (s : State) : Prop
    extends Listening c n s where
  queue : s.queue .rx = q
  inFrame : s.hdlcRxstart = true
  idx : s.hdlcBitIdx.toNat = k
  bits : ∀ i < k, s.hdlcCurrchar.getLsbD (8 - k + i) = v.getLsbD i

/-- With no bit in it, the accumulator can hold the start of any octet. -/
theorem Receiving.start {c : Config} {q : List Octet} {v : Octet} {n : Nat} {s : State} (h : Receiving c q v 0 n s)
    (w : Octet) : Receiving c q w 0 n s :=
  { h with bits := nofun }

/-- A 0 behind six ones, with room for the flag (rules R210, R211). -/
theorem Listening.flag {c : Config} {s : State} (h : Listening c 6 s) (hroom : (s.queue .rx).length < c.rxBuflen)
    (v : Octet) : Receiving c (s.queue .rx ++ [0x7E#8]) v 0 0 (afterExec (.hdlcrx false) s) := by
  obtain ⟨hb, rfl, hi, hr, hidx, hones⟩ := h
  rw [length_queue_rx] at hroom
  have hflag := (exec_hdlcrx hi false).trans ((hdlcRxOp_flag hones).trans (flagCase_room (s := { s with
    demodBits := shiftIn16 s.demodBits false }) hr hroom))
  rw [afterExec_next hflag]
  exact {
    build := hb
    cfg := rfl
    init := hi
    ring := Ring.pushed_ok hr hroom _
    bitIdx := Nat.zero_le _
    history := endsInOnes_zero _
    queue := Ring.queue_pushed hr hroom _
    inFrame := rfl
    idx := rfl
    bits := nofun }

/-- The six ones and the last 0 of a flag, its first 0 received (rule R211). -/
theorem Listening.restOfFlag {c : Config} {s : State} (h : Listening c 0 s)
    (hroom : (s.queue .rx).length + 3 ≤ c.rxBuflen) : ∃ l, l.length ≤ 2 ∧ (s.hdlcBitIdx.toNat ≤ 1 → l = []) ∧
      ∀ v, Receiving c (s.queue .rx ++ l ++ [0x7E#8]) v 0 0
        (execAll (List.replicate 6 (.hdlcrx true) ++ [.hdlcrx false]) s) := by
  obtain ⟨hsix, m, hidx, l, hl, hlen⟩ := h.ones 6 (Nat.le_refl 6)
  have hle := h.bitIdx
  refine ⟨l, by omega, fun h1 => List.length_eq_zero_iff.mp (by omega), fun v => ?_⟩
  rw [execAll_append, ← hl]
  refine hsix.flag ?_ v
  rw [hl, List.length_append]
  omega

/-! ### The stuffed payload -/

theorem stuffFrom_cons_five (atEnd b : Bool) (rest : List Bool) :
    stuffFrom atEnd 5 (b :: rest) = false :: b :: stuffFrom atEnd (onesAfter 0 b) rest := rfl

theorem stuffFrom_cons_of_lt {n : Nat} (hn : n < 5) (atEnd b : Bool) (rest : List Bool) :
    stuffFrom atEnd n (b :: rest) = b :: stuffFrom atEnd (onesAfter n b) rest := by
  have hne : (n == bitStuffLen) = false := beq_false_of_ne hn.ne
  rw [stuffFrom, hne]
  rfl

/-- The bits `k` to 7 of an octet, in the order they are sent (rule R73). -/
def bitsFrom (v : Octet) (k : Nat) : List Bool := (List.range' k (8 - k)).map fun i => v.getLsbD i

theorem bitsFrom_cons {v : Octet} {k : Nat} (hk : k < 8) : bitsFrom v k = v.getLsbD k :: bitsFrom v (k + 1) := by
  have hlen : 8 - k = 8 - (k + 1) + 1 := by omega
  rw [bitsFrom, hlen, List.range'_succ]
  rfl

theorem octetBits_eq_bitsFrom (v : Octet) : octetBits v = bitsFrom v 0 := rfl

/-- The accumulator after a line bit (rule R73). -/
theorem getLsbD_shiftInTop (r : Octet) (b : Bool) {i : Nat} (hi : i < 8) :
    (shiftInTop r b).getLsbD i = if i = 7 then b else r.getLsbD (i + 1) := by
  have hmask : (0x80#8).getLsbD i = decide (i = 7) := by
    have hall : ∀ k < 8, (0x80#8).getLsbD k = decide (k = 7) := by decide
    exact hall i hi
  by_cases h7 : i = 7 <;> cases b <;> simp [shiftInTop, hmask, h7, Nat.add_comm 1]

/-- A completed octet with room for it is stored as its escaped image (rules R113, R214). -/
theorem storeOctet_room {s : State} (hr : s.rxFifo.ok s.cfg.rxBuflen = true) (ho : s.hdlcRxstart = true) {v : Octet}
    (hroom : s.rxFifo.count + (escapeOctet v).length ≤ s.cfg.rxBuflen) :
    storeOctet v s = .next { s with rxFifo := s.rxFifo.pushedAll s.cfg.rxBuflen (escapeOctet v) } := by
  obtain ⟨l, o, hstore, _, hplain, hpair, _⟩ := storeOctet_next hr ho v
  obtain ⟨rfl, rfl⟩ : l = escapeOctet v ∧ o = true := by
    unfold escapeOctet at hroom ⊢
    cases hv : isReserved v with
    | false =>
      rw [hv] at hroom
      exact hplain hv hroom
    | true =>
      rw [hv] at hroom
      exact hpair hv hroom
  rw [hstore, ← ho]

section Payload

variable {c : Config} {q : List Octet} {v : Octet} {k n : Nat} {s : State}

/-- The stuffed 0 leaves everything but the history (rules R116, R210). -/
theorem Receiving.skip (h : Receiving c q v k 5 s) : Receiving c q v k 0 (afterExec (.hdlcrx false) s) := by
  obtain ⟨⟨hb, rfl, hi, hr, hidx, hones⟩, hq, ho, hk, hbits⟩ := h
  rw [afterExec_next ((exec_hdlcrx hi false).trans (hdlcRxOp_skip hb hones (Nat.le_refl 5) (.inl ⟨rfl, rfl⟩)))]
  exact ⟨⟨hb, rfl, hi, hr, hidx, endsInOnes_zero _⟩, hq, ho, hk, hbits⟩

/-- Stuffing puts a 0 before a bit or not (rule R116); either way the bit comes behind four ones at most. -/
theorem Receiving.unstuff (h : Receiving c q v k n s) (hn : n ≤ 5) : ∃ t m, m < 5 ∧ Receiving c q v k m t ∧
    ∀ atEnd b rest, execAll ((stuffFrom atEnd n (b :: rest)).map .hdlcrx) s =
      execAll ((stuffFrom atEnd (onesAfter m b) rest).map .hdlcrx) (afterExec (.hdlcrx b) t) := by
  rcases Nat.lt_or_eq_of_le hn with hlt | rfl
  · refine ⟨s, n, hlt, h, fun atEnd b rest => ?_⟩
    rw [stuffFrom_cons_of_lt hlt]
    rfl
  · exact ⟨_, 0, by decide, h.skip, fun _ _ _ => rfl⟩

/-- A bit of the octet that does not complete it (rule R214). -/
theorem Receiving.bit (h : Receiving c q v k n s) (hn : n < 5) (hk : k < 7) :
    Receiving c q v (k + 1) (onesAfter n (v.getLsbD k)) (afterExec (.hdlcrx (v.getLsbD k)) s) := by
  obtain ⟨⟨hb, rfl, hi, hr, hidx, hones⟩, hq, ho, rfl, hbits⟩ := h
  have hdata := (exec_hdlcrx hi (v.getLsbD s.hdlcBitIdx.toNat)).trans
    (hdlcRxOp_take hb hones hn.le (fun h => hn.ne h.1) ho)
  have hnext : (s.hdlcBitIdx + 1#8).toNat = s.hdlcBitIdx.toNat + 1 := by bv_omega
  rw [afterExec_next (hdata.trans (dataCase_partial rfl hk))]
  refine ⟨⟨hb, rfl, hi, hr, hnext ▸ hk, hones.shift hn.le _⟩, hq, ho, hnext, fun i hik => ?_⟩
  refine (getLsbD_shiftInTop _ _ (by omega)).trans ?_
  by_cases hlast : i = s.hdlcBitIdx.toNat
  · rw [if_pos (by omega), hlast]
  · rw [if_neg (by omega), ← hbits i (by omega)]
    congr 1
    omega

/-- The bit that completes the octet stores its escaped image (rules R113, R214). -/
theorem Receiving.lastBit (h : Receiving c q v 7 n s) (hn : n < 5)
    (hroom : q.length + (escapeOctet v).length ≤ c.rxBuflen) : Receiving c (q ++ escapeOctet v) v 0
      (onesAfter n (v.getLsbD 7)) (afterExec (.hdlcrx (v.getLsbD 7)) s) := by
  obtain ⟨⟨hb, rfl, hi, hr, hidx, hones⟩, rfl, ho, hk, hbits⟩ := h
  rw [length_queue_rx] at hroom
  have hdone : shiftInTop s.hdlcCurrchar (v.getLsbD 7) = v :=
    shiftInTop_eq rfl fun i hi => (hbits i hi).symm.trans (congrArg _ (Nat.add_comm 1 i))
  have hoctet := ((exec_hdlcrx hi (v.getLsbD 7)).trans
    (hdlcRxOp_take hb hones hn.le (fun h => hn.ne h.1) ho)).trans
      (dataCase_octet (s := { s with demodBits := shiftIn16 s.demodBits (v.getLsbD 7) }) hdone hk)
  have hstore := storeOctet_room (s := { s with
    demodBits := shiftIn16 s.demodBits (v.getLsbD 7)
    hdlcCurrchar := v
    hdlcBitIdx := s.hdlcBitIdx + 1#8 }) hr ho hroom
  rw [hstore, andThen_next] at hoctet
  obtain ⟨hok, hqueue, _⟩ := Ring.pushedAll_spec (escapeOctet v) hr hroom
  rw [afterExec_next hoctet]
  exact ⟨⟨hb, rfl, hi, hok, Nat.zero_le 7, hones.shift hn.le _⟩, hqueue, ho, rfl, nofun⟩

/-- The rest of an octet, stuffed: bit by bit, whatever stuffed bits follow it (rules R116, R214). -/
theorem Receiving.restOfOctet (j : Nat) (h : Receiving c q v k n s) (hn : n ≤ 5) (hk : k + j = 7)
    (hroom : q.length + (escapeOctet v).length ≤ c.rxBuflen) : ∃ t m, m ≤ 5 ∧
      Receiving c (q ++ escapeOctet v) v 0 m t ∧ ∀ atEnd rest,
        execAll ((stuffFrom atEnd n (bitsFrom v k ++ rest)).map .hdlcrx) s =
          execAll ((stuffFrom atEnd m rest).map .hdlcrx) t := by
  induction j generalizing k n s with
  | zero =>
    obtain rfl : k = 7 := hk
    obtain ⟨t, m, hm, ht, hbits⟩ := h.unstuff hn
    exact ⟨_, _, onesAfter_le hm _, ht.lastBit hm hroom, fun atEnd rest => hbits atEnd _ rest⟩
  | succ j ih =>
    obtain ⟨t, m, hm, ht, hbits⟩ := h.unstuff hn
    obtain ⟨u, m', hm', hu, hrest⟩ := ih (ht.bit hm (by omega)) (onesAfter_le hm _) (by omega)
    refine ⟨u, m', hm', hu, fun atEnd rest => ?_⟩
    rw [bitsFrom_cons (by omega), List.cons_append, hbits, hrest]

/-- The stuffed payload, octet by octet (rules R116, R219). -/
theorem Receiving.payload (atEnd : Bool) (ps : List Octet) (h : Receiving c q v 0 n s) (hn : n ≤ 5)
    (hroom : q.length + (escapeAll ps).length ≤ c.rxBuflen) : ∃ w m, m ≤ 5 ∧ Receiving c (q ++ escapeAll ps) w 0 m
      (execAll ((stuffFrom atEnd n (ps.flatMap octetBits)).map .hdlcrx) s) := by
  induction ps generalizing q v n s with
  | nil =>
    have hq : q ++ escapeAll [] = q := List.append_nil q
    rw [hq, List.flatMap_nil, stuffFrom]
    split
    case isTrue hend =>
      obtain rfl : n = 5 := by simpa using (Bool.and_eq_true_iff.mp hend).2
      exact ⟨v, 0, by decide, h.skip⟩
    case isFalse => exact ⟨v, n, hn, h⟩
  | cons p ps ih =>
    have hsplit : escapeAll (p :: ps) = escapeOctet p ++ escapeAll ps := List.flatMap_cons
    rw [hsplit, List.length_append] at hroom
    obtain ⟨t, m, hm, ht, hbits⟩ := (h.start p).restOfOctet 7 hn rfl (by omega)
    rw [List.flatMap_cons, octetBits_eq_bitsFrom, hbits, hsplit, ← List.append_assoc]
    exact ih ht hm (by rw [List.length_append]; omega)

end Payload

/-! ### The frame -/

/-- The first 0 of a flag, whatever came before it (rule R219). -/
theorem Running.hdlcrxZero {s : State} (hb : admissible s.cfg = true) (h : Running s) :
    Listening s.cfg 0 (afterExec (.hdlcrx false) s) ∧
      ((afterExec (.hdlcrx false) s).queue .rx).length ≤ (s.queue .rx).length + 2 := by
  obtain ⟨l, o, cc, bi, hop, hbi, hfit, hshape⟩ := hdlcRxOp_next h.rxOk h.bitIdx false
  obtain ⟨hok, hqueue, _⟩ := Ring.pushedAll_spec l h.rxOk hfit
  rw [afterExec_next ((exec_hdlcrx h.init false).trans hop)]
  refine ⟨⟨hb, rfl, h.init, hok, hbi, endsInOnes_zero _⟩, ?_⟩
  have hlen := hshape.length_le
  have hq : (afterHdlc s false l o cc bi).queue .rx = s.queue .rx ++ l := hqueue
  rw [hq, List.length_append]
  omega

/-- Settles O42: a flag stores four octets at most before itself, from whatever state; the payload then arrives octet by
octet, and the flag behind it completes no octet. -/
theorem framesAreReceivedTransparently : Obligations.FramesAreReceivedTransparently := by
  intro s ps atEnd hb h hroom opened closed
  obtain ⟨hzero, hlen⟩ := h.hdlcrxZero hb
  obtain ⟨l, hl, _, hopen⟩ := hzero.restOfFlag (by omega)
  have hopened : Receiving s.cfg _ 0#8 0 0 opened := hopen 0#8
  have hqueue := hopened.queue
  have hopenLen : (opened.queue .rx).length ≤ (s.queue .rx).length + 5 := by
    rw [hqueue, List.length_append, List.length_append, List.length_singleton]
    omega
  refine ⟨⟨_, hqueue⟩, ?_⟩
  rw [← hqueue] at hopened
  obtain ⟨w, m, hm, hpaid⟩ := hopened.payload atEnd ps (Nat.zero_le 5) (by omega)
  have hclosed : closed = execAll (flagBits.map .hdlcrx) (execAll ((stuffed atEnd ps).map .hdlcrx) opened) := by
    rw [← execAll_append, ← List.map_append]
  obtain ⟨hfirst, k, hk, l', hl', hlen'⟩ := hpaid.toListening.bit hm false
  have hidx := hpaid.idx
  obtain rfl : l' = [] := List.length_eq_zero_iff.mp (by omega)
  rw [hpaid.queue, List.append_nil] at hl'
  obtain ⟨l'', _, hnone, hclose⟩ := hfirst.restOfFlag (by rw [hl', List.length_append]; omega)
  obtain rfl : l'' = [] := hnone (by omega)
  have hdone : Receiving s.cfg _ 0#8 0 0 closed := hclosed ▸ hclose 0#8
  rw [hl', List.append_nil] at hdone
  exact ⟨hdone.queue, hdone.inFrame⟩

end Sys2Proof.Machine

/-! PROOFS. The family of 40_fifo.md: each FIFO is the queue its ring stands for (rules R140 to R147), through the FIFO
operations and through the operations that push and pop (rules R181, R185, R271); and what the ticks leave valid of the
host's answers (rule R147 law 4). -/

namespace Sys2Proof.Machine

/-! ## The queue of a FIFO -/

theorem length_queue (s : State) (g : Fifo) : (s.queue g).length = (s.ring g).count := Ring.length_queue _ _

theorem queue_eq_nil_iff {s : State} {g : Fifo} : s.queue g = [] ↔ (s.ring g).count = 0 := by
  rw [← List.length_eq_zero_iff, length_queue]

@[simp] theorem queue_setRing (s : State) (g : Fifo) (r : Ring) :
    (s.setRing g r).queue g = r.queue (Fifo.cap s.cfg g) := by
  rw [State.queue, ring_setRing_same, setRing_cfg]

/-- A pushed element stands at the write index (rules R141, R146). -/
theorem Ring.read_pushed_tail {n : Nat} {r : Ring} (h : r.ok n = true) (v : Octet) :
    (r.pushed n v).buf.read r.tail = v := by
  obtain ⟨_, _, _, _, hwf, _⟩ := Ring.ok_iff.mp h
  exact Memory.read_write_same hwf r.tail v

/-- A push leaves every other index alone (rules R141, R146). -/
theorem Ring.read_pushed_other {n a : Nat} {r : Ring} (h : a ≠ r.tail) (v : Octet) :
    (r.pushed n v).buf.read a = r.buf.read a :=
  Memory.read_write_other h v

/-! ## The FIFO operations -/

/-- The locked variants have the semantics of the plain operations (rule R145). -/
theorem exec_fpushL (f : BitVec 2) (v : Octet) (s : State) : exec (.fpushL f v) s = exec (.fpush f v) s := rfl

theorem exec_fpopL (f : BitVec 2) (s : State) : exec (.fpopL f) s = exec (.fpop f) s := rfl

theorem exec_femptyL (f : BitVec 2) (s : State) : exec (.femptyL f) s = exec (.fempty f) s := rfl

theorem exec_ffullL (f : BitVec 2) (s : State) : exec (.ffullL f) s = exec (.ffull f) s := rfl

section

variable {s : State} {f : BitVec 2} {g : Fifo}

/-- On a FIFO the operand names, after `INIT`, neither the reserved id nor rule R341 refuses an operation. -/
theorem onFifo_ifInitialised (hf : fifoOf f = some g) (hi : s.initialised = true) (k : Fifo → Res State) :
    (onFifo f fun g => ifInitialised s (k g)) = k g :=
  (onFifo_of_some hf _).trans (ifInitialised_of_init hi _)

theorem exec_fpush (hf : fifoOf f = some g) (hi : s.initialised = true) (v : Octet) :
    exec (.fpush f v) s = fifoPush g v s :=
  onFifo_ifInitialised hf hi fun g => fifoPush g v s

theorem exec_fpush_next (hf : fifoOf f = some g) (hi : s.initialised = true)
    (hr : (s.ring g).ok (Fifo.cap s.cfg g) = true) (hc : (s.ring g).count < Fifo.cap s.cfg g) (v : Octet) :
    exec (.fpush f v) s = .next (s.setRing g ((s.ring g).pushed (Fifo.cap s.cfg g) v)) :=
  (exec_fpush hf hi v).trans (fifoPush_next hr hc v)

theorem exec_fpop (hf : fifoOf f = some g) (hi : s.initialised = true) :
    exec (.fpop f) s = andThen (fifoPop g s) fun p => .next (p.2.reply (.octet p.1)) :=
  onFifo_ifInitialised hf hi fun g => andThen (fifoPop g s) fun p => .next (p.2.reply (.octet p.1))

theorem exec_fpop_empty (hf : fifoOf f = some g) (hi : s.initialised = true) (hq : s.queue g = []) :
    exec (.fpop f) s = .refused .fifoEmpty := by
  rw [exec_fpop hf hi, fifoPop_empty (queue_eq_nil_iff.mp hq), andThen_refused]

theorem exec_fpop_next (hf : fifoOf f = some g) (hi : s.initialised = true)
    (hr : (s.ring g).ok (Fifo.cap s.cfg g) = true) {v : Octet} {l : List Octet} (hq : s.queue g = v :: l) :
    exec (.fpop f) s = .next ((s.setRing g ((s.ring g).popped (Fifo.cap s.cfg g))).reply (.octet v)) := by
  obtain ⟨hpos, hv, _⟩ := Ring.queue_eq_cons hr hq
  rw [exec_fpop hf hi, fifoPop_next hr hpos, andThen_next, hv]

end

/-- Settles O19: the push writes the ring of the FIFO its id names, and both forms are the same push. -/
theorem fpushAppendsToTheQueue : Obligations.FpushAppendsToTheQueue := by
  intro s f g v hf hi hr
  rw [exec_fpushL, length_queue]
  refine ⟨fun hc => ?_, fun hfull => ?_⟩
  · have hpush := exec_fpush_next hf hi hr hc v
    refine ⟨_, hpush, hpush, ?_, ?_, ?_, ?_⟩
    · rw [queue_setRing]
      exact Ring.queue_pushed hr hc v
    · rw [ring_setRing_same]
      exact Ring.pushed_ok hr hc v
    · rw [ring_setRing_same]
    · intro a ha
      rw [ring_setRing_same]
      exact Ring.read_pushed_other ha v
  · have hpush := (exec_fpush hf hi v).trans (fifoPush_full hfull.ge v)
    exact ⟨hpush, hpush⟩

/-- Settles O20: the pop moves the read index of the ring past the oldest element, and both forms are the same pop. -/
theorem fpopRemovesTheOldest : Obligations.FpopRemovesTheOldest := by
  intro s f g hf hi hr
  rw [exec_fpopL]
  refine ⟨fun v l hq => ?_, fun hq => ⟨exec_fpop_empty hf hi hq, exec_fpop_empty hf hi hq⟩⟩
  obtain ⟨_, _, hok, hl⟩ := Ring.queue_eq_cons hr hq
  have hpop := exec_fpop_next hf hi hr hq
  refine ⟨_, hpop, hpop, ?_, ?_, ?_, ?_, ?_⟩
  · rwa [queue_reply, queue_setRing]
  · rwa [reply_ring, ring_setRing_same]
  · rw [reply_ring, ring_setRing_same]
    rfl
  · rw [reply_replies, setRing_replies]
  · rw [reply_ring, ring_setRing_same]
    rfl

/-- What `FEMPTY` returns is a condition of the queue (rule R143). -/
theorem fifoIsEmpty_eq (g : Fifo) (s : State) : fifoIsEmpty g s = decide (s.queue g = []) := by
  rw [Bool.eq_iff_iff, fifoIsEmpty_iff, decide_eq_true_iff, queue_eq_nil_iff]

/-- What `FFULL` returns is a condition of the queue (rule R144). -/
theorem fifoIsFull_eq (g : Fifo) (s : State) :
    fifoIsFull g s = decide ((s.queue g).length = Fifo.cap s.cfg g) := by
  rw [Bool.eq_iff_iff, fifoIsFull_iff, decide_eq_true_iff, length_queue]

/-- Settles O21: the count of the ring is the length of the queue. -/
theorem fifoStatusReadsTheQueue : Obligations.FifoStatusReadsTheQueue := by
  intro s f g hf hi empty full
  rw [exec_femptyL, exec_ffullL]
  have hempty : exec (.fempty f) s = .next empty := by
    refine (onFifo_ifInitialised hf hi fun g => .next (s.reply (.bit (fifoIsEmpty g s)))).trans ?_
    rw [fifoIsEmpty_eq]
    rfl
  have hfull : exec (.ffull f) s = .next full := by
    refine (onFifo_ifInitialised hf hi fun g => .next (s.reply (.bit (fifoIsFull g s)))).trans ?_
    rw [fifoIsFull_eq]
    rfl
  exact ⟨hempty, hempty, hfull, hfull⟩

/-! ## The order of delivery -/

/-- Pushes that fit are all taken. -/
theorem execAll_fpush {f : BitVec 2} {g : Fifo} (hf : fifoOf f = some g) (l : List Octet) {s : State}
    (hi : s.initialised = true) (hr : (s.ring g).ok (Fifo.cap s.cfg g) = true)
    (hfit : (s.ring g).count + l.length ≤ Fifo.cap s.cfg g) :
    execAll (l.map fun v => .fpush f v) s = s.setRing g ((s.ring g).pushedAll (Fifo.cap s.cfg g) l) := by
  induction l generalizing s with
  | nil => exact (setRing_ring s g).symm
  | cons v l ih =>
    rw [List.length_cons] at hfit
    have hc : (s.ring g).count < Fifo.cap s.cfg g := by omega
    have hok := Ring.pushed_ok hr hc v
    have hfit' : ((s.ring g).pushed (Fifo.cap s.cfg g) v).count + l.length ≤ Fifo.cap s.cfg g := by
      simp only [Ring.pushed]
      omega
    rw [List.map_cons, execAll_cons_next (exec_fpush_next hf hi hr hc v),
      ih (by rwa [setRing_initialised]) (by rwa [ring_setRing_same, setRing_cfg])
        (by rwa [ring_setRing_same, setRing_cfg]),
      setRing_setRing, ring_setRing_same, setRing_cfg]
    rfl

/-- As many pops as the queue is long return it, oldest first. -/
theorem execAll_fpop {f : BitVec 2} {g : Fifo} (hf : fifoOf f = some g) {l : List Octet} {s : State}
    (hi : s.initialised = true) (hr : (s.ring g).ok (Fifo.cap s.cfg g) = true) (hq : s.queue g = l) :
    (execAll (List.replicate l.length (.fpop f)) s).queue g = [] ∧
      (execAll (List.replicate l.length (.fpop f)) s).replies = s.replies ++ l.map .octet := by
  induction l generalizing s with
  | nil => exact ⟨hq, (List.append_nil _).symm⟩
  | cons v l ih =>
    obtain ⟨_, _, hok, hl⟩ := Ring.queue_eq_cons hr hq
    rw [List.length_cons, List.replicate_succ, execAll_cons_next (exec_fpop_next hf hi hr hq)]
    obtain ⟨hempty, hreplies⟩ := ih (s := (s.setRing g ((s.ring g).popped (Fifo.cap s.cfg g))).reply (.octet v))
      (by rwa [reply_initialised, setRing_initialised])
      (by rwa [reply_ring, ring_setRing_same, reply_cfg, setRing_cfg])
      (by rwa [queue_reply, queue_setRing])
    refine ⟨hempty, ?_⟩
    rw [hreplies, reply_replies, setRing_replies, List.append_assoc, List.singleton_append, List.map_cons]

/-- Settles O23: the pushes append the list to the queue, and the pops return the queue from its front. -/
theorem fifoDeliversInOrder : Obligations.FifoDeliversInOrder := by
  intro s f g l hf hi hr hfit t u
  have hlen : (s.queue g).length + l.length = (s.queue g ++ l).length := List.length_append.symm
  rw [length_queue] at hfit
  obtain ⟨hok, hqueue, _⟩ := Ring.pushedAll_spec l hr hfit
  have ht : t = s.setRing g ((s.ring g).pushedAll (Fifo.cap s.cfg g) l) := execAll_fpush hf l hi hr hfit
  have htq : t.queue g = s.queue g ++ l := by
    rw [ht, queue_setRing]
    exact hqueue
  obtain ⟨hempty, hreplies⟩ := execAll_fpop hf (s := t) (by rwa [ht, setRing_initialised])
    (by rwa [ht, ring_setRing_same, setRing_cfg]) htq
  rw [← hlen] at hempty hreplies
  refine ⟨htq, hempty, hreplies.trans ?_⟩
  rw [ht, setRing_replies]

/-! ## The operations that push and pop -/

theorem exec_txpush_full {s : State} (hi : s.initialised = true) (h : s.txFifo.count = s.cfg.txBuflen) (b : Octet) :
    exec (.txpush b) s = .refused .txFifoFull :=
  (ifInitialised_of_init hi _).trans (if_pos (fifoIsFull_iff (f := .tx).mpr h))

theorem exec_txpush_next {s : State} (hi : s.initialised = true) (hr : s.txFifo.ok s.cfg.txBuflen = true)
    (hc : s.txFifo.count < s.cfg.txBuflen) (b : Octet) :
    exec (.txpush b) s = .next { s with txFifo := s.txFifo.pushed s.cfg.txBuflen b } := by
  have hroom : ¬ fifoIsFull .tx s = true := fun h => hc.ne (fifoIsFull_iff.mp h)
  exact (ifInitialised_of_init hi _).trans ((if_neg hroom).trans (fifoPush_next (f := .tx) hr hc b))

/-- Settles O15: with room, the octet is pushed onto the ring of `tx_fifo`. -/
theorem txpushQueuesOneOctet : Obligations.TxpushQueuesOneOctet := by
  intro s b hi hr
  rw [length_queue]
  refine ⟨fun hc => ?_, fun hfull => exec_txpush_full hi hfull b⟩
  exact ⟨_, exec_txpush_next hi hr hc b, Ring.queue_pushed hr hc b, Ring.pushed_ok hr hc b, rfl,
    Ring.read_pushed_tail hr b, fun _ ha => Ring.read_pushed_other ha b⟩

/-- Settles O32: the raw sample is pushed onto the ring of the delay line. -/
theorem dlypushStoresTheRawSample : Obligations.DlypushStoresTheRawSample := by
  intro s x hi hr
  have hexec : exec (.dlypush x) s = dlyPushOp x s := ifInitialised_of_init hi _
  rw [hexec, length_queue]
  refine ⟨fun hc => ?_, fun hfull => fifoPush_full (f := .delay) hfull.ge x⟩
  exact ⟨_, dlyPushOp_next hr hc x, Ring.queue_pushed hr hc x, Ring.pushed_ok hr hc x, rfl,
    fun _ ha => Ring.read_pushed_other ha x⟩

/-- The quarter product of two samples fits the register, so the filter input holds it exactly (rules R25, R181). -/
theorem quarterProduct_toInt (d x : Octet) :
    (toS16 (asr (sampleValue d * sampleValue x) 2)).toInt = d.toInt * x.toInt / 4 := by
  obtain ⟨hlo, hhi⟩ := product_range d x
  exact toS16_toInt (by omega) (by omega)

/-- Settles O28: the popped sample is the oldest one, and the quarter of its product with `x` loses nothing. -/
theorem discrimEntersTheDelayedProduct : Obligations.DiscrimEntersTheDelayedProduct := by
  intro s x hi hr
  have hexec : exec (.discrim x) s = discrimOp x s := ifInitialised_of_init hi _
  rw [hexec]
  refine ⟨fun d l hq => ?_, fun hq => ?_⟩
  · obtain ⟨hpos, rfl, hok, hl⟩ := Ring.queue_eq_cons hr hq
    have hexact := quarterProduct_toInt (s.delayFifo.buf.read s.delayFifo.head) x
    obtain ⟨hlo, hhi⟩ := filterInput_range x s
    exact ⟨_, discrimOp_next hr hpos x, hexact, hlo, hhi, rfl, hl, hok, rfl, rfl⟩
  · rw [discrimOp, fifoPop_empty (queue_eq_nil_iff.mp hq), andThen_refused]

/-! ## The host's answers across a tick -/

/-- The parser takes nothing out of `rx_fifo` (rule R63). -/
theorem Running.hdlcRx_rxCount_le {s t : State} (h : Running s) {b : Bool} (ht : hdlcRxOp b s = .next t) :
    s.rxFifo.count ≤ t.rxFifo.count := by
  obtain ⟨l, o, cc, bi, hop, _, hfit, _⟩ := hdlcRxOp_next h.rxOk h.bitIdx b
  obtain ⟨_, _, hcount, _⟩ := Ring.pushedAll_spec l h.rxOk hfit
  cases hop.symm.trans ht
  exact (Nat.le_add_right _ _).trans hcount.ge

/-- An ADC tick takes nothing out of `rx_fifo`: only its parser touches that FIFO. -/
theorem Running.adcTick_rxCount_le {s t : State} (h : Running s) {x : Octet} (ht : adcTickOp x s = .next t) :
    s.rxFifo.count ≤ t.rxFifo.count := by
  have hdecided : (Machine.decided x s).rxFifo = s.rxFifo := by rw [decided_frame]
  rw [adcTickOp_eq h.delayOk h.delay] at ht
  rw [← hdecided]
  split at ht
  · exact (h.decided x).hdlcRx_rxCount_le ht
  · cases ht
    exact Nat.le_refl _

/-- `t` has no more in `tx_fifo` than `s`. -/
def DrainsTx (s t : State) : Prop := t.txFifo.count ≤ s.txFifo.count

theorem DrainsTx.trans {s t u : State} (h : DrainsTx s t) (h' : DrainsTx t u) : DrainsTx s u := Nat.le_trans h' h

theorem DrainsTx.of_same {s t : State} (h : t.txFifo = s.txFifo) : DrainsTx s t :=
  Nat.le_of_eq (congrArg Ring.count h)

theorem fifoPop_drainsTx (s : State) : Leads DrainsTx Prod.snd s (fifoPop .tx s) := by
  intro p hp
  unfold fifoPop at hp
  split at hp
  · obtain ⟨v, _, hv⟩ := andThen_eq_next.mp hp
    cases hv
    exact Nat.sub_le _ _
  · cases hp

theorem fetchOctet_drainsTx (s : State) : Leads DrainsTx id s (fetchOctet s) :=
  .ite (.next (.of_same rfl))
    (.ite (.andThen .trans (fifoPop_drainsTx s) fun _ => .next (.of_same rfl)) (.next (.of_same rfl)))

theorem resolveOctet_drainsTx (s : State) : Leads DrainsTx Prod.snd s (resolveOctet s) :=
  .ite
    (.ite (.next (.of_same rfl)) (.andThen .trans (fifoPop_drainsTx s) fun _ => .next (.of_same rfl)))
    (.ite (.next (.of_same rfl)) (.next (.of_same rfl)))

theorem txFetchOp_drainsTx (s : State) : Leads DrainsTx Prod.snd s (txFetchOp s) :=
  .ite (.next (.of_same rfl)) (.andThen (get := id) .trans (fetchOctet_drainsTx _) resolveOctet_drainsTx)

theorem dacSample_drainsTx (s : State) : Leads DrainsTx id s (dacSample s) :=
  .andThen .trans (get := Prod.snd) (.andThen_value fun _ => .next (.of_same rfl)) fun _ => .next (.of_same rfl)

theorem txBit_dacSample_drainsTx (s : State) : Leads DrainsTx id s (dacSample (txBitOp s)) :=
  (dacSample_drainsTx _).mono (DrainsTx.of_same (by rw [txBitOp_frame])).trans

/-- A DAC tick puts nothing into `tx_fifo` (rule R63). -/
theorem dacTickOp_drainsTx (s : State) : Leads DrainsTx id s (dacTickOp s) :=
  .ite (.refused _)
    (.ite
      (.ite
        (.andThen .trans (txFetchOp_drainsTx s) fun
          | (.stop, _) => .next (.of_same rfl)
          | (.goOn, t) => txBit_dacSample_drainsTx t)
        (txBit_dacSample_drainsTx s))
      (dacSample_drainsTx s))

/-- `t` has no less for the host to pop than `s`, and no more in the way of its pushes. -/
def ServesHost (s t : State) : Prop := s.rxFifo.count ≤ t.rxFifo.count ∧ t.txFifo.count ≤ s.txFifo.count

theorem ServesHost.of_receiver {s t : State} (h : s.rxFifo.count ≤ t.rxFifo.count) (hw : WritesReceiver s t) :
    ServesHost s t :=
  ⟨h, DrainsTx.of_same (by rw [hw])⟩

theorem ServesHost.of_transmitter {s t : State} (h : t.txFifo.count ≤ s.txFifo.count) (hw : WritesTransmitter s t) :
    ServesHost s t :=
  ⟨Nat.le_of_eq (by rw [hw.1]), h⟩

theorem Running.exec_adctick_servesHost {s : State} (h : Running s) (x : Octet) :
    Leads ServesHost id s (exec (.adctick x) s) := by
  rw [exec_adctick h.init]
  exact fun t ht => .of_receiver (h.adcTick_rxCount_le ht) (adcTickOp_writes x s t ht)

theorem Running.exec_hdlcrx_servesHost {s : State} (h : Running s) (b : Bool) :
    Leads ServesHost id s (exec (.hdlcrx b) s) := by
  rw [exec_hdlcrx h.init]
  exact fun t ht => .of_receiver (h.hdlcRx_rxCount_le ht) (hdlcRxOp_writesReceiver b s t ht)

theorem exec_dactick_servesHost (s : State) : Leads ServesHost id s (exec .dactick s) :=
  .ifInitialised fun t ht => .of_transmitter (dacTickOp_drainsTx s t ht) (dacTickOp_writes s t ht)

/-- Settles O18: a tick only adds to `rx_fifo` and only takes from `tx_fifo`, and it leaves the block running, so that
the pop and the push find their rings in their layouts. -/
theorem hostAnswersStayValid : Obligations.HostAnswersStayValid := by
  intro s t i hb h hi ht
  have hticked : i.issuable = true ∧ ServesHost s t := by
    rcases hi with ⟨x, rfl⟩ | rfl | ⟨b, rfl⟩
    · exact ⟨rfl, h.exec_adctick_servesHost x t ht⟩
    · exact ⟨rfl, exec_dactick_servesHost s t ht⟩
    · exact ⟨rfl, h.exec_hdlcrx_servesHost b t ht⟩
  obtain ⟨hissuable, hrx, htx⟩ := hticked
  have hrun : Running t := exec_running ⟨hb, fun _ => h⟩ hissuable ht
  have hcfg : t.cfg = s.cfg := (exec_adds i s t ht).cfg
  refine ⟨fun hq => ?_, fun hq b => ?_⟩
  · rw [Ne, queue_eq_nil_iff] at hq
    exact ⟨_, execRxpop_next hrun.init hrun.rxOk ((Nat.pos_of_ne_zero hq).trans_le hrx)⟩
  · obtain ⟨_, _, hle, _⟩ := Ring.ok_iff.mp h.txOk
    rw [length_queue] at hq
    have hroom : t.txFifo.count < t.cfg.txBuflen := by
      rw [hcfg]
      exact htx.trans_lt (lt_of_le_of_ne hle hq)
    exact ⟨_, exec_txpush_next hrun.init hrun.txOk hroom b⟩

end Sys2Proof.Machine

/-! PROOFS. The family of 41_dds.md: `SINSAMPLE` rebuilds the cycle from the quarter table (rules R160, R162), and
`DDSSTEP` reads it at the advanced phase (rule R164). -/

namespace Sys2Proof.Machine

/-! ## The folded index -/

/-- In the first quarter of each half the table is read forward (rule R162). -/
theorem foldIdx_rising {i k : Nat} (hk : i % 256 = k) (h : k < 128) : foldIdx i = k := by
  subst hk
  exact if_neg h.not_ge

/-- In the second quarter of each half the table is read backward (rule R162). -/
theorem foldIdx_falling {i k : Nat} (hk : i % 256 + k = 255) (h : k < 128) : foldIdx i = k := by
  have hupper : 128 ≤ i % 256 := by omega
  exact (if_pos hupper).trans (by omega)

/-- Index `i` and its mirror image in the first half fold to one table index. -/
theorem foldIdx_reflect {i : Nat} (h : i ≤ 255) : foldIdx (255 - i) = foldIdx i := by
  rcases Nat.lt_or_ge i 128 with hi | hi
  · rw [foldIdx_falling (k := i) (by omega) hi, foldIdx_rising (k := i) (by omega) hi]
  · rw [foldIdx_rising (k := 255 - i) (by omega) (by omega), foldIdx_falling (k := 255 - i) (by omega) (by omega)]

/-- Half a cycle on, the index folds to the same table index. -/
theorem foldIdx_halfCycle (i : Nat) : foldIdx (i + 256) = foldIdx i := by
  rw [foldIdx, foldIdx, Nat.add_mod_right]

/-! ## The sample at an index -/

section

variable {c : Config} {i : Nat} {d : Octet}

theorem sinValue_firstHalf (h : i < 256) (hd : c.sinTable[foldIdx i]? = some d) : sinValue c i = d := by
  rw [sinValue, hd, if_neg h.not_ge, Option.getD_some]

theorem sinValue_secondHalf (h : 256 ≤ i) (hd : c.sinTable[foldIdx i]? = some d) :
    sinValue c i = BitVec.ofNat 8 (255 - d.toNat) := by
  rw [sinValue, hd, if_pos h, Option.getD_some]
  bv_omega

/-- An admissible table has, for every index, an entry in the upper half of the octet range (rules R13, R160). -/
theorem exists_foldedEntry (h : tableOk c.sinTable = true) (i : Nat) :
    ∃ d, c.sinTable[foldIdx i]? = some d ∧ 128 ≤ d.toNat := by
  obtain ⟨hlen, hhigh, _⟩ := tableOk_iff.mp h
  have hlt : foldIdx i < c.sinTable.length := hlen ▸ foldIdx_lt i
  exact ⟨_, List.getElem?_eq_getElem hlt, hhigh _ (List.getElem_mem hlt)⟩

theorem sinValue_reflect (h : i ≤ 255) : sinValue c (255 - i) = sinValue c i := by
  rw [sinValue, sinValue, foldIdx_reflect h, if_neg (by omega), if_neg (by omega)]

theorem le_sinValue_firstHalf (ht : tableOk c.sinTable = true) (h : i < 256) : 128 ≤ (sinValue c i).toNat := by
  obtain ⟨d, hd, hhigh⟩ := exists_foldedEntry ht i
  rwa [sinValue_firstHalf h hd]

/-- Half a cycle apart two samples read one entry, the later one subtracted from 255 (rule R162). -/
theorem sinValue_add_halfCycle (ht : tableOk c.sinTable = true) (h : i < 256) :
    (sinValue c i).toNat + (sinValue c (i + 256)).toNat = 255 := by
  obtain ⟨d, hd, _⟩ := exists_foldedEntry ht i
  rw [sinValue_firstHalf h hd, sinValue_secondHalf (by omega) (by rwa [foldIdx_halfCycle]), BitVec.toNat_ofNat]
  have hoctet := d.isLt
  omega

end

/-! ## The operations -/

section

variable {s : State} (hi : s.initialised = true) (ht : tableOk s.cfg.sinTable = true)
include hi ht

theorem exec_sinsample (idx : BitVec 9) :
    exec (.sinsample idx) s = .next { s with replies := s.replies ++ [.octet (sinValue s.cfg idx.toNat)] } := by
  refine (ifInitialised_of_init hi _).trans ?_
  rw [sinSampleOp_next ht, andThen_next]
  rfl

theorem exec_ddsstep :
    exec .ddsstep s = .next { s with
      phaseAcc := toU16 (nextPhase s)
      events := s.events ++ [.dacWrite (sinValue s.cfg (nextPhase s))]
      replies := s.replies ++ [.octet (sinValue s.cfg (nextPhase s))] } := by
  refine (ifInitialised_of_init hi _).trans ?_
  rw [ddsStepOp_next ht, andThen_next]
  rfl

theorem exec_sinsample_firstHalf {idx : BitVec 9} {d : Octet} {k : Nat} (h : idx.toNat < 256)
    (hk : foldIdx idx.toNat = k) (hd : s.cfg.sinTable[k]? = some d) :
    exec (.sinsample idx) s = .next { s with replies := s.replies ++ [.octet d] } := by
  rw [exec_sinsample hi ht, sinValue_firstHalf h (hk ▸ hd)]

theorem exec_sinsample_secondHalf {idx : BitVec 9} {d : Octet} {k : Nat} (h : 256 ≤ idx.toNat)
    (hk : foldIdx idx.toNat = k) (hd : s.cfg.sinTable[k]? = some d) :
    exec (.sinsample idx) s = .next { s with replies := s.replies ++ [.octet (BitVec.ofNat 8 (255 - d.toNat))] } := by
  rw [exec_sinsample hi ht, sinValue_secondHalf h (hk ▸ hd)]

end

/-- Settles O24: the quarter decides the direction the table is read in, the half whether the entry is subtracted; the
corners read the first and the last entry, which rule R13 fixes. -/
theorem sinsampleReconstructsTheCycle : Obligations.SinsampleReconstructsTheCycle := by
  intro s hi ht
  obtain ⟨_, _, hfirst, hlast⟩ := tableOk_iff.mp ht
  refine ⟨fun idx d => ⟨fun h hd => ?_, fun h h' hd => ?_, fun h h' hd => ?_, fun h hd => ?_⟩, ?_, ?_, ?_, ?_, ?_⟩
  · exact exec_sinsample_firstHalf hi ht (by omega) (foldIdx_rising (by omega) h) hd
  · exact exec_sinsample_firstHalf hi ht h' (foldIdx_falling (by omega) (by omega)) hd
  · exact exec_sinsample_secondHalf hi ht h (foldIdx_rising (by omega) (by omega)) hd
  · have hlt := idx.isLt
    exact exec_sinsample_secondHalf hi ht (by omega) (foldIdx_falling (by omega) (by omega)) hd
  · exact exec_sinsample_firstHalf hi ht (by decide) (by decide) hfirst
  · exact exec_sinsample_firstHalf hi ht (by decide) (by decide) hlast
  · exact exec_sinsample_secondHalf hi ht (by decide) (by decide) hfirst
  · exact exec_sinsample_secondHalf hi ht (by decide) (by decide) hlast
  · exact exec_sinsample_secondHalf hi ht (by decide) (by decide) hfirst

/-- Settles O25: of two indices half a cycle apart one lies in the first half, where the sample is an entry of the
table; the other sample is what is left of 255. -/
theorem sineHalvesMirrorEachOther : Obligations.SineHalvesMirrorEachOther := by
  intro s idx hi ht
  refine ⟨_, _, exec_sinsample hi ht idx, exec_sinsample hi ht _, ?_⟩
  rcases Nat.lt_or_ge idx.toNat 256 with h | h
  · have hopposite : (idx + 256#9).toNat = idx.toNat + 256 := by bv_omega
    have hmirror : (255#9 - idx).toNat = 255 - idx.toNat := by bv_omega
    rw [hopposite, exec_sinsample hi ht, exec_sinsample hi ht, hmirror, sinValue_reflect (by omega)]
    exact ⟨sinValue_add_halfCycle ht h, fun _ => ⟨le_sinValue_firstHalf ht h, rfl⟩, fun _ => by omega⟩
  · have hopposite : idx.toNat = (idx + 256#9).toNat + 256 := by bv_omega
    have hfirst : (idx + 256#9).toNat < 256 := by bv_omega
    have hsum := sinValue_add_halfCycle ht hfirst
    have hhigh := le_sinValue_firstHalf ht hfirst
    rw [← hopposite] at hsum
    exact ⟨by omega, fun _ => by omega, fun _ => by omega⟩

/-- Settles O26: the new phase is below 512, so the operand of `SINSAMPLE` holds it exactly. -/
theorem ddsstepAdvancesThenLooksUp : Obligations.DdsstepAdvancesThenLooksUp := by
  intro s hi ht acc
  have hphase : (BitVec.ofNat 9 acc).toNat = nextPhase s := Nat.mod_eq_of_lt (nextPhase_lt s)
  refine ⟨sinValue s.cfg (nextPhase s), ?_, exec_ddsstep hi ht⟩
  rw [exec_sinsample hi ht, hphase]

end Sys2Proof.Machine

/-! PROOFS. The family of 42_demod.md: each stage of an ADC tick by itself (rules R182 to R184, R186, R187, R189), and
the tick as its stages in order (rules R180, R190). -/

namespace Sys2Proof.Machine

/-! ## The conditions and the shift registers, bit by bit -/

theorem edge_eq_true_iff {v : Octet} : edge v = true ↔ v.getLsbD 0 ≠ v.getLsbD 1 := bne_iff_ne

theorem edge_eq_false_iff {v : Octet} : edge v = false ↔ v.getLsbD 0 = v.getLsbD 1 := bne_eq_false_iff_eq

/-- The four patterns of rule R187 are those with at least two ones. -/
theorem majority_iff {v : Octet} : majority v = true ↔
    2 ≤ (v.getLsbD 0).toNat + (v.getLsbD 1).toNat + (v.getLsbD 2).toNat := by
  have hpatterns : ∀ t : BitVec 3, (t == 7#3 || t == 6#3 || t == 5#3 || t == 3#3) = true ↔
      2 ≤ (t.getLsbD 0).toNat + (t.getLsbD 1).toNat + (t.getLsbD 2).toNat := by decide
  have hbit : ∀ k < 3, (v.extractLsb' 0 3).getLsbD k = v.getLsbD k := by
    intro k hk
    simp [hk]
  rw [← hbit 0 (by decide), ← hbit 1 (by decide), ← hbit 2 (by decide)]
  exact hpatterns _

theorem shiftIn8_zero (r : Octet) (b : Bool) : (shiftIn8 r b).getLsbD 0 = b := by
  cases b <;> simp [shiftIn8]

theorem shiftIn8_succ (r : Octet) (b : Bool) {k : Nat} (hk : k < 7) :
    (shiftIn8 r b).getLsbD (k + 1) = r.getLsbD k := by
  have hlt : k + 1 < 8 := by omega
  cases b <;> simpa [shiftIn8] using fun _ => hlt

/-! ## The stages alone -/

/-- Settles O30: each shift is the floor of a division, which confines a fixed point to a few values. -/
theorem zeroInputFixedPointsOfTheFilters : Obligations.ZeroInputFixedPointsOfTheFilters := by
  intro y
  constructor
  · simp only [butterworth, asr]
    omega
  · simp only [chebyshev, asr]
    omega

/-- Settles O31: the register after `SLICE` is the old one with the sign shifted in. -/
theorem sliceShiftsInTheSign : Obligations.SliceShiftsInTheSign :=
  ⟨rfl, rfl, fun s hi => ⟨sliceOp s, ifInitialised_of_init hi _, shiftIn8_zero _ _,
    fun _ hk => shiftIn8_succ _ _ hk, rfl⟩⟩

/-- Settles O33: the nudge is decided by the edge and the side of the threshold (`clkRecOp_phase`). -/
theorem clkrecNudgesTowardTheThreshold : Obligations.ClkrecNudgesTowardTheThreshold := by
  refine ⟨rfl, rfl, fun s hi hphase => ?_⟩
  obtain ⟨n, _, _, hn, _, hlevel, hbelow, habove, hlo, hhi⟩ := clkRecOp_phase hphase
  rw [← hn] at hlo hhi
  refine ⟨clkRecOp s, ifInitialised_of_init hi _, rfl, hlo, hhi, fun heq => ?_, fun hne h => ?_, fun hne h => ?_⟩
  · rw [hn, hlevel (edge_eq_false_iff.mpr heq)]
  · rw [hn, hbelow (edge_eq_true_iff.mpr hne) h]
  · rw [hn, habove (edge_eq_true_iff.mpr hne) h]

theorem bitDecOp_below {s : State} (h : s.currPhase.toInt < 64) : bitDecOp s = (false, s) :=
  if_neg (Int.not_le.mpr h)

theorem bitDecOp_reached {s : State} (h : 64 ≤ s.currPhase.toInt) : bitDecOp s = (true, { s with
    currPhase := toS8 (s.currPhase.toInt - 64)
    foundBits := shiftIn8 s.foundBits (majority s.sampledBits) }) :=
  if_pos h

theorem exec_bitdec {s : State} (h : s.initialised = true) :
    exec .bitdec s = .next ((bitDecOp s).2.reply (.bit (bitDecOp s).1)) :=
  ifInitialised_of_init h _

/-- Settles O34: `BITDEC` in its two cases; the phase is an `s8`, so what is left of it after 64 is exact. -/
theorem bitdecShiftsInTheMajority : Obligations.BitdecShiftsInTheMajority := by
  refine ⟨rfl, rfl, fun s hi => ⟨fun hbelow => ?_, fun hreached => ?_⟩⟩
  · rw [exec_bitdec hi, bitDecOp_below hbelow]
    rfl
  · obtain ⟨_, hmax⟩ := octet_toInt_range s.currPhase
    rw [exec_bitdec hi, bitDecOp_reached hreached]
    refine ⟨_, rfl, toS8_toInt (by omega) (by omega), ?_, fun k hk => shiftIn8_succ _ _ hk, rfl⟩
    exact (Bool.eq_iff_iff.mp (shiftIn8_zero _ _)).trans majority_iff

theorem nrziDecOp_eq (s : State) : nrziDecOp s = decide (s.foundBits.getLsbD 0 = s.foundBits.getLsbD 1) := by
  rw [Bool.eq_iff_iff, decide_eq_true_iff, nrziDecOp, Bool.not_eq_true', edge_eq_false_iff]

theorem exec_nrzidec {s : State} (h : s.initialised = true) :
    exec .nrzidec s = .next (s.reply (.bit (nrziDecOp s))) :=
  ifInitialised_of_init h _

/-- Settles O35: two bits are equal iff there is no edge between them. -/
theorem nrzidecComparesTheLastTwoBits : Obligations.NrzidecComparesTheLastTwoBits := by
  refine ⟨rfl, rfl, fun s hi => ?_⟩
  rw [exec_nrzidec hi, nrziDecOp_eq]
  rfl

/-! ## The tick -/

/-- A tick whose two FIFO stages have a step is the decision after them, the parser last (rule R180). -/
theorem adcTickOp_of_stages {s a d : State} {x : Octet} (ha : discrimOp x s = .next a)
    (hd : dlyPushOp x (sliceOp (filterOp a)) = .next d) :
    adcTickOp x s =
      if (bitDecOp (clkRecOp d)).1 then hdlcRxOp (nrziDecOp (bitDecOp (clkRecOp d)).2) (bitDecOp (clkRecOp d)).2
      else .next (bitDecOp (clkRecOp d)).2 := by
  rw [adcTickOp, ha, andThen_next, hd, andThen_next]

theorem sliced_delayFifo (s : State) : (sliceOp (filterOp s)).delayFifo = s.delayFifo := by
  rw [filterOp_eq]
  rfl

theorem filterOp_initialised (s : State) : (filterOp s).initialised = s.initialised := by
  rw [filterOp_eq]

/-- `DISCRIM` makes the room in the delay line that `DLYPUSH` takes (rule R190). -/
theorem Running.fifoStages {s : State} (h : Running s) (x : Octet) : ∃ a d,
    discrimOp x s = .next a ∧ dlyPushOp x (sliceOp (filterOp a)) = .next d ∧
      a.cfg = s.cfg ∧ a.initialised = true ∧ d.initialised = true := by
  have ha := discrimOp_next h.delayOk h.delay_pos x
  refine ⟨_, _, ha, dlyPushOp_next ?_ ?_ x, rfl, h.init, (filterOp_initialised _).trans h.init⟩
  · rw [sliced_delayFifo]
    exact Ring.popped_ok h.delayOk h.delay_pos
  · rw [sliced_delayFifo]
    exact h.popped_room

theorem exec_iirB_filterOp {s : State} (hi : s.initialised = true) (hf : s.cfg.filter = .butterworth) :
    exec .iirB s = .next (filterOp s) := by
  rw [filterOp, hf]
  exact ifInitialised_of_init hi _

theorem exec_iirC_filterOp {s : State} (hi : s.initialised = true) (hf : s.cfg.filter = .chebyshev) :
    exec .iirC s = .next (filterOp s) := by
  rw [filterOp, hf]
  exact ifInitialised_of_init hi _

/-- Settles O36: `adcTickOp_of_stages` on the two cases of `BITDEC`, each stage beside its operation. -/
theorem adctickIsItsStagesInOrder : Obligations.AdctickIsItsStagesInOrder := by
  intro s x h
  obtain ⟨a, d, ha, hd, hcfg, hai, hdi⟩ := h.fifoStages x
  obtain ⟨t, ht, _⟩ := h.adcTick x
  have hsliced : (filterOp a).initialised = true := (filterOp_initialised a).trans hai
  have htick := (adcTickOp_of_stages ha hd).symm.trans ht
  refine ⟨a, filterOp a, sliceOp (filterOp a), d, clkRecOp d, t, (ifInitialised_of_init h.init _).trans ha,
    fun hf => exec_iirB_filterOp hai (hcfg ▸ hf), fun hf => exec_iirC_filterOp hai (hcfg ▸ hf),
    ifInitialised_of_init hsliced _, (ifInitialised_of_init hsliced _).trans hd, ifInitialised_of_init hdi _,
    (exec_adctick h.init x).trans ht, fun hbelow => ?_, fun hreached => ?_⟩
  · rw [bitDecOp_below hbelow] at htick
    cases htick
    rfl
  · have hbitdec := exec_bitdec (s := clkRecOp d) hdi
    rw [bitDecOp_reached hreached] at htick hbitdec
    rw [if_pos rfl] at htick
    exact ⟨_, _, hbitdec, rfl, exec_nrzidec hdi, (ifInitialised_of_init hdi _).trans htick⟩

/-- The phase of a tick at its bit decision (rule R186). -/
theorem beforeDecision_phase {s : State} (h : s.currPhase.toNat ≤ 63) (x : Octet) : ∃ n, 7 ≤ n ∧ n ≤ 9 ∧
    (beforeDecision x s).currPhase.toNat = s.currPhase.toNat + n := by
  have hphase : (sliceOp (filterOp (filterInput x s))).currPhase = s.currPhase := by
    rw [filterOp_eq]
    rfl
  obtain ⟨n, hlo, hhi, hn, _⟩ := clkRecOp_phase (s := sliceOp (filterOp (filterInput x s))) (by rwa [hphase])
  rw [hphase] at hn
  exact ⟨n, hlo, hhi, hn⟩

theorem decided_foundBits_of_below {s : State} {x : Octet} (h : (beforeDecision x s).currPhase.toNat < 64) :
    (decided x s).foundBits = s.foundBits := by
  have hint := octet_toInt_of_lt (v := (beforeDecision x s).currPhase) (by omega)
  rw [decided, bitDecOp_below (by omega), beforeDecision_frame]

/-- Settles O38: clock recovery advances the phase, the decision takes 64 off, and the parser writes neither register. -/
theorem adctickAdvancesThePhaseBySevenToNine : Obligations.AdctickAdvancesThePhaseBySevenToNine := by
  intro s t x h ht
  rw [exec_adctick h.init] at ht
  obtain ⟨n, hlo, hhi, hn⟩ := beforeDecision_phase h.phase x
  have hphase := h.phase
  rw [adcTickOp_decided h ht]
  refine ⟨n, hlo, hhi, ?_, ?_⟩
  · rw [← hn]
    exact bitDecOp_phase (by omega)
  · rcases Nat.lt_or_ge (s.currPhase.toNat + n) 64 with hbelow | hreached
    · exact .inl (decided_foundBits_of_below (hn ▸ hbelow))
    · exact .inr hreached

end Sys2Proof.Machine

/-! PROOFS. The family of 43_hdlc_rx.md: which case of the parser a line bit takes (rules R210 to R213), and what a call
of it, alone or at the end of an ADC tick, adds to the read stream (rules R216, R217). -/

namespace Sys2Proof.Machine

/-! ## The cases of a line bit that is no data -/

section

variable {s : State} {b : Bool}

/-- A flag with room is stored and opens a frame, before every other case (rules R210, R211). -/
theorem hdlcRxOp_flag_room (hflag : isFlag (shiftIn16 s.demodBits b) = true)
    (hr : s.rxFifo.ok s.cfg.rxBuflen = true) (hroom : s.rxFifo.count < s.cfg.rxBuflen) :
    hdlcRxOp b s = .next { s with
      demodBits := shiftIn16 s.demodBits b
      rxFifo := s.rxFifo.pushed s.cfg.rxBuflen hdlcFlag
      hdlcRxstart := true
      hdlcCurrchar := 0#8
      hdlcBitIdx := 0#8 } :=
  (if_pos hflag).trans (flagCase_room (s := { s with demodBits := shiftIn16 s.demodBits b }) hr hroom)

/-- A flag without room closes the frame (rules R211, R215). -/
theorem hdlcRxOp_flag_full (hflag : isFlag (shiftIn16 s.demodBits b) = true)
    (hfull : s.rxFifo.count = s.cfg.rxBuflen) :
    hdlcRxOp b s = .next { s with
      demodBits := shiftIn16 s.demodBits b
      hdlcRxstart := false
      hdlcCurrchar := 0#8
      hdlcBitIdx := 0#8 } :=
  (if_pos hflag).trans (flagCase_full (s := { s with demodBits := shiftIn16 s.demodBits b }) hfull)

/-- A run of ones that is no flag ends the frame (rules R210, R212). -/
theorem hdlcRxOp_abort (hflag : isFlag (shiftIn16 s.demodBits b) = false)
    (habort : isAbort s.cfg (shiftIn16 s.demodBits b) = true) :
    hdlcRxOp b s = .next { s with demodBits := shiftIn16 s.demodBits b, hdlcRxstart := false } := by
  simp [hdlcRxOp, hflag, habort, abortCase]

/-- What is neither enters the history only, if it is a stuffed bit or outside a frame (rules R210, R213). -/
theorem hdlcRxOp_ignored (hflag : isFlag (shiftIn16 s.demodBits b) = false)
    (habort : isAbort s.cfg (shiftIn16 s.demodBits b) = false)
    (h : isStuffed (shiftIn16 s.demodBits b) = true ∨ s.hdlcRxstart = false) :
    hdlcRxOp b s = .next { s with demodBits := shiftIn16 s.demodBits b } := by
  rcases h with h | h <;> simp [hdlcRxOp, hflag, habort, h]

end

/-- Settles O39: the patterns of R117 are those of the history as a number, and each case of `hdlcRxOp` is its rule. -/
theorem hdlcrxClassifiesTheLineBits : Obligations.HdlcrxClassifiesTheLineBits := by
  intro s bit hi hr d ones
  have hnat : (shiftIn16 s.demodBits bit).toNat = d := shiftIn16_toNat s.demodBits bit
  have hflag : isFlag (shiftIn16 s.demodBits bit) = true ↔ d % 256 = 0x7E := hnat ▸ isFlag_iff
  have habort : isAbort s.cfg (shiftIn16 s.demodBits bit) = true ↔ d % 2 ^ s.cfg.abortOnes = ones := hnat ▸ isAbort_iff
  have hstuffed : isStuffed (shiftIn16 s.demodBits bit) = true ↔ d % 64 = 0x3E := hnat ▸ isStuffed_iff
  have hnotFlag (h : d % 256 ≠ 0x7E) := Bool.eq_false_iff.mpr (mt hflag.mp h)
  rw [exec_hdlcrx hi, ← shiftIn16_eq, length_queue]
  refine ⟨fun h hroom => ?_, fun h hfull => ?_, fun h hones => ?_, fun h hones hskip => ?_⟩
  · exact ⟨_, hdlcRxOp_flag_room (hflag.mpr h) hr hroom, Ring.queue_pushed hr hroom hdlcFlag, rfl⟩
  · exact hdlcRxOp_flag_full (hflag.mpr h) hfull
  · exact hdlcRxOp_abort (hnotFlag h) (habort.mpr hones)
  · exact hdlcRxOp_ignored (hnotFlag h) (Bool.eq_false_iff.mpr (mt habort.mp hones)) (hskip.imp_left hstuffed.mpr)

/-! ## The growth of the read stream -/

/-- `t` has the `rx_fifo` of `s` with one of the additions of rules R216, R217 behind it, for which there was room. -/
def GrowsReadStream (s t : State) : Prop :=
  ∃ l, t.cfg = s.cfg ∧ t.rxFifo = s.rxFifo.pushedAll s.cfg.rxBuflen l ∧ s.rxFifo.count + l.length ≤ s.cfg.rxBuflen ∧
    StoredShape (decide (s.rxFifo.count + l.length = s.cfg.rxBuflen)) t.hdlcRxstart l

theorem Running.hdlcRx_growsReadStream {s t : State} (h : Running s) {b : Bool} (ht : hdlcRxOp b s = .next t) :
    GrowsReadStream s t := by
  obtain ⟨l, o, cc, bi, hop, _, hfit, hshape⟩ := hdlcRxOp_next h.rxOk h.bitIdx b
  cases hop.symm.trans ht
  exact ⟨l, rfl, rfl, hfit, hshape⟩

/-- What comes before the parser in a tick stores nothing in `rx_fifo` (rule R180). -/
theorem Running.decided_growsReadStream {s : State} (h : Running s) (x : Octet) :
    GrowsReadStream s (Machine.decided x s) := by
  obtain ⟨_, _, hle, _⟩ := Ring.ok_iff.mp h.rxOk
  rw [decided_frame]
  exact ⟨[], rfl, rfl, hle, .none⟩

theorem Running.adcTick_growsReadStream {s t : State} (h : Running s) {x : Octet} (ht : adcTickOp x s = .next t) :
    GrowsReadStream s t := by
  have hcfg : (Machine.decided x s).cfg = s.cfg := by rw [decided_frame]
  have hring : (Machine.decided x s).rxFifo = s.rxFifo := by rw [decided_frame]
  rw [adcTickOp_eq h.delayOk h.delay] at ht
  split at ht
  · have hgrows := (h.decided x).hdlcRx_growsReadStream ht
    rwa [GrowsReadStream, hcfg, hring] at hgrows
  · cases ht
    exact h.decided_growsReadStream x

/-- Settles O41: only the parser stores in `rx_fifo`, and it stores one of the listed shapes by pushes in a row. -/
theorem receiverKeepsTheReadStreamContract : Obligations.ReceiverKeepsTheReadStreamContract := by
  intro s t i h hinstr ht
  have hgrows : GrowsReadStream s t := by
    rcases hinstr with ⟨x, rfl⟩ | ⟨b, rfl⟩
    · exact h.adcTick_growsReadStream ((exec_adctick h.init x).symm.trans ht)
    · exact h.hdlcRx_growsReadStream ((exec_hdlcrx h.init b).symm.trans ht)
  obtain ⟨l, hcfg, hring, hfit, hshape⟩ := hgrows
  obtain ⟨_, hqueue, hcount, _, hread⟩ := Ring.pushedAll_spec l h.rxOk hfit
  rw [← hring] at hqueue hcount hread
  have hq : t.queue .rx = s.queue .rx ++ l := by
    rw [State.queue, hcfg]
    exact hqueue
  refine ⟨l, hq, ?_, hread⟩
  cases hshape with
  | none => exact .inl rfl
  | flag => exact .inr (.inl rfl)
  | plain c hc => exact .inr (.inr (.inl ⟨c, rfl, hc⟩))
  | pair c hc => exact .inr (.inr (.inr (.inl ⟨c, rfl, hc⟩)))
  | dangling hfull hclosed =>
    have hlen : (t.queue .rx).length = t.cfg.rxBuflen := by
      rw [length_queue, hcfg]
      exact hcount.trans (of_decide_eq_true hfull)
    exact .inr (.inr (.inr (.inr ⟨rfl, hlen, hclosed⟩)))

end Sys2Proof.Machine

/-! PROOFS. The family of 44_modulator.md: what a fetch takes next and where it stops, the stuffed 0 of a bit time, and
the DAC tick as its stages (rules R230 to R236). -/

namespace Sys2Proof.Machine

/-! ## The flags around the data -/

theorem ofNat_toNat_pred {r : Reg16} (h : r ≠ 0#16) : BitVec.ofNat 16 (r.toNat - 1) = r - 1#16 := by
  bv_omega

/-- Settles O46: the first stop path of the fetch. -/
theorem txfetchStopsWhenNothingIsLeft : Obligations.TxfetchStopsWhenNothingIsLeft :=
  fun _ hi hq ht => exec_txfetch hi (txFetchOp_idle (queue_eq_nil_iff.mp hq) ht)

/-- Settles O47: the counter that is taken down is not 0, for a trailer flag because the fetch does not stop. -/
theorem txfetchSendsFlagsAroundTheData : Obligations.TxfetchSendsFlagsAroundTheData := by
  intro s hi hleft cnt flag
  rw [queue_eq_nil_iff] at hleft
  refine ⟨fun hp => ?_, fun hp hq => ?_⟩
  · rw [ofNat_toNat_pred hp]
    exact exec_txfetch hi (txFetchOp_preamble hleft hp)
  · have hempty : s.txFifo.count = 0 := queue_eq_nil_iff.mp hq
    have htrailer : s.trailerLen ≠ 0#16 := fun ht => hleft ⟨hempty, ht⟩
    rw [ofNat_toNat_pred htrailer]
    exact exec_txfetch hi (txFetchOp_trailer hempty htrailer hp)

/-! ## The run of ones -/

theorem lineBit_of_stuffDue {s : State} (h : stuffDue s = true) : lineBit s = false := by
  rw [lineBit, h, Bool.not_true, Bool.false_and]

theorem lineBit_of_not_stuffDue {s : State} (h : stuffDue s = false) :
    lineBit s = decide (s.currOut &&& s.txBit ≠ 0#8) := by
  rw [lineBit, h, Bool.not_false, Bool.true_and]

/-- Settles O50: a stuffed 0 and a 0 of the octet clear the count, and a 1 of the octet finds it below five. -/
theorem noSixthOneWhileStuffing : Obligations.NoSixthOneWhileStuffing := by
  intro s t h hon ht
  cases (exec_txbit h.init).symm.trans ht
  have hle : s.stuffCnt.toNat ≤ 5 := h.stuffOn hon
  have hcleared : 0#8 ≠ s.stuffCnt + 1#8 := by bv_omega
  cases hd : stuffDue s with
  | true =>
    rw [txBitOp_stuffed hd, lineBit_of_stuffDue hd]
    exact ⟨Nat.zero_le _, fun _ => ⟨rfl, rfl, rfl, rfl, rfl⟩, iff_of_false hcleared nofun⟩
  | false =>
    have hlt : ¬ 5 ≤ s.stuffCnt.toNat := fun h5 => Bool.eq_false_iff.mp hd (stuffDue_iff.mpr ⟨hon, h5⟩)
    rw [lineBit_of_not_stuffDue hd]
    by_cases hb : s.currOut &&& s.txBit = 0#8
    · rw [txBitOp_zero hd hb]
      exact ⟨Nat.zero_le _, fun h5 => absurd h5.ge hlt, iff_of_false hcleared (by simpa using hb)⟩
    · rw [txBitOp_one hd hb]
      have hsucc : (s.stuffCnt + 1#8).toNat ≤ 5 := (octet_succ_toNat_le _).trans (Nat.lt_of_not_ge hlt)
      exact ⟨hsucc, fun h5 => absurd h5.ge hlt, iff_of_true rfl (by simpa using hb)⟩

/-! ## The fetch that stops -/

/-- The second part of a fetch that stops has an introducer with nothing behind it, and pops no more (rule R231). -/
theorem resolveOctet_stop {s t : State} (h : resolveOctet s = .next (.stop, t)) : t = stopSending s := by
  unfold resolveOctet startOctet at h
  split at h
  · split at h
    · cases h
      rfl
    · obtain ⟨_, _, hstart⟩ := andThen_eq_next.mp h
      cases hstart
  · split at h <;> cases h

/-- What a fetch that stops can change before it stops: the octet, what it took it from, stuffing and the run of ones
(rule R231). -/
theorem txFetchOp_stop {s t : State} (h : txFetchOp s = .next (.stop, t)) : t = stopSending { s with
    txFifo := t.txFifo
    currOut := t.currOut
    bitStuff := t.bitStuff
    stuffCnt := t.stuffCnt
    preambleLen := t.preambleLen
    trailerLen := t.trailerLen } := by
  unfold txFetchOp at h
  split at h
  · cases h
    rfl
  · obtain ⟨u, hu, hr⟩ := andThen_eq_next.mp h
    rw [resolveOctet_stop hr, fetchOctet_frame hu]
    rfl

theorem txFetchOp_replies {s t : State} {r : Fetched} (h : txFetchOp s = .next (r, t)) : t.replies = s.replies := by
  cases r with
  | goOn => rw [txFetchOp_goOn h]
  | stop => rw [txFetchOp_stop h]; rfl

/-! ## The tick as its stages -/

theorem sinTable_ok {c : Config} (h : admissible c = true) : tableOk c.sinTable = true := by
  obtain ⟨_, _, _, _, _, _, _, _, _, htable, _⟩ := admissible_iff.mp h
  exact htable

theorem exec_dactick_idle {s : State} (hi : s.initialised = true) (hs : s.sending = false) :
    exec .dactick s = .refused .dacIrqDisabled :=
  (exec_dactick hi).trans (if_pos hs)

/-- At an octet boundary, a fetch that stops is all of the tick (rule R230). -/
theorem dacTickOp_stopped {s t : State} (hs : s.sending = true) (hc : s.sampleCount = 0#16) (hm : s.txBit = 0#8)
    (hf : txFetchOp s = .next (.stop, t)) : dacTickOp s = .next t := by
  simp [dacTickOp, hs, hc, hm, hf]

/-- `t` is `u` after `DDSSTEP` and one sample fewer due, the value of `DDSSTEP` dropped (rule R230). -/
def Sampled (u t : State) : Prop := ∃ v w, exec .ddsstep u = .next w ∧ w.replies = u.replies ++ [.octet v] ∧
  t = { w with sampleCount := w.sampleCount - 1#16, replies := u.replies }

theorem dacSample_sampled {u : State} (hi : u.initialised = true) (ht : tableOk u.cfg.sinTable = true) :
    ∃ t, dacSample u = .next t ∧ Sampled u t :=
  ⟨_, dacSample_next ht, _, _, exec_ddsstep hi ht, rfl, rfl⟩

theorem txBit_dacSample_sampled {s : State} (hi : s.initialised = true) (ht : tableOk s.cfg.sinTable = true) :
    ∃ t, dacSample (txBitOp s) = .next t ∧ ∃ u, exec .txbit s = .next u ∧ Sampled u t := by
  obtain ⟨t, htick, hsampled⟩ := dacSample_sampled (u := txBitOp s) (by simpa using hi) (by simpa using ht)
  exact ⟨t, htick, _, exec_txbit hi, hsampled⟩

/-- Dropping the value a stage returned leaves the state it was returned from. -/
theorem reply_dropped {t : State} {l : List Reply} (h : t.replies = l) (v : Reply) :
    { t.reply v with replies := l } = t := by
  subst h
  rfl

/-- Settles O45: the two counters decide which stages come before the sample; at an octet boundary what the fetch
returns decides whether there is one. -/
theorem dactickIsItsStagesInOrder : Obligations.DactickIsItsStagesInOrder := by
  intro s hb h hs sampled
  have hi := h.init
  have htable := sinTable_ok hb
  rw [exec_dactick hi]
  by_cases hc : s.sampleCount = 0#16
  · by_cases hm : s.txBit = 0#8
    · obtain ⟨⟨r, t⟩, hf, _⟩ := h.txFetch hs hc hm
      have hreplies := txFetchOp_replies hf
      cases r with
      | stop =>
        refine ⟨t, dacTickOp_stopped hs hc hm hf, absurd hc, fun _ => absurd hm, fun _ _ =>
          ⟨_, exec_txfetch hi hf, ?_⟩⟩
        rw [reply_dropped hreplies, reply_replies, hreplies]
        exact ⟨fun _ => rfl, absurd rfl⟩
      | goOn =>
        have hti : t.initialised = true := by rw [txFetchOp_goOn hf]; exact hi
        have htt : tableOk t.cfg.sinTable = true := by rw [txFetchOp_goOn hf]; exact htable
        obtain ⟨v, htick, hstages⟩ := txBit_dacSample_sampled hti htt
        refine ⟨v, (dacTickOp_fetched hs hc hm hf).trans htick, absurd hc, fun _ => absurd hm, fun _ _ =>
          ⟨_, exec_txfetch hi hf, ?_⟩⟩
        rw [reply_dropped hreplies, reply_replies, hreplies]
        exact ⟨fun hr => absurd (List.append_cancel_left hr) nofun, fun _ => ⟨rfl, hstages⟩⟩
    · obtain ⟨t, htick, hstages⟩ := txBit_dacSample_sampled hi htable
      exact ⟨t, (dacTickOp_bit hs hc hm).trans htick, absurd hc, fun _ _ => hstages, fun _ h0 => absurd h0 hm⟩
  · obtain ⟨t, htick, hsampled⟩ := dacSample_sampled hi htable
    exact ⟨t, (dacTickOp_sample hs hc).trans htick, fun _ => hsampled, fun h0 => absurd h0 hc,
      fun h0 => absurd h0 hc⟩

/-! ## The event of a tick -/

/-- `u` is about to take the sample of a tick that began in `s`: it has the phase of `s`, and nothing is emitted yet. -/
structure BeforeSample (s u : State) : Prop where
  cfg : u.cfg = s.cfg
  sending : u.sending = true
  phaseAcc : u.phaseAcc = s.phaseAcc
  events : u.events = s.events

theorem BeforeSample.txBit {s u : State} (h : BeforeSample s u) : BeforeSample s (txBitOp u) :=
  ⟨(txBitOp_cfg u).trans h.cfg, (txBitOp_sending u).trans h.sending, (txBitOp_phaseAcc u).trans h.phaseAcc,
    (txBitOp_events u).trans h.events⟩

theorem txFetchOp_beforeSample {s t : State} (hs : s.sending = true) (hf : txFetchOp s = .next (.goOn, t)) :
    BeforeSample s t := by
  rw [txFetchOp_goOn hf]
  exact ⟨rfl, hs, rfl, rfl⟩

/-- A tick of a running, sending block comes to its sample, or the fetch stops it (rule R230). -/
theorem Running.dacTick_cases {s : State} (h : Running s) (hs : s.sending = true) :
    (∃ u, BeforeSample s u ∧ dacTickOp s = dacSample u) ∨
    (s.sampleCount = 0#16 ∧ s.txBit = 0#8 ∧ ∃ t, txFetchOp s = .next (.stop, t) ∧ dacTickOp s = .next t) := by
  have hself : BeforeSample s s := ⟨rfl, hs, rfl, rfl⟩
  by_cases hc : s.sampleCount = 0#16
  · by_cases hm : s.txBit = 0#8
    · obtain ⟨⟨r, t⟩, hf, _⟩ := h.txFetch hs hc hm
      cases r with
      | stop => exact .inr ⟨hc, hm, t, hf, dacTickOp_stopped hs hc hm hf⟩
      | goOn => exact .inl ⟨_, (txFetchOp_beforeSample hs hf).txBit, dacTickOp_fetched hs hc hm hf⟩
    · exact .inl ⟨_, hself.txBit, dacTickOp_bit hs hc hm⟩
  · exact .inl ⟨s, hself, dacTickOp_sample hs hc⟩

/-- `SINSAMPLE` at the phase a sample advances to is the sample emitted (rules R162, R164). -/
theorem exec_sinsample_nextPhase {s : State} (hi : s.initialised = true) (ht : tableOk s.cfg.sinTable = true)
    (u : State) : exec (.sinsample (BitVec.ofNat 9 (nextPhase u))) s =
      .next { s with replies := s.replies ++ [.octet (sinValue s.cfg (nextPhase u))] } := by
  rw [exec_sinsample hi ht, BitVec.toNat_ofNat, Nat.mod_eq_of_lt (nextPhase_lt u)]

theorem afterSample_phaseAcc_toNat (s : State) : (afterSample s).phaseAcc.toNat = nextPhase s :=
  toU16_toNat ((nextPhase_lt s).le.trans (by decide))

/-- Settles O44: the stages before the sample leave phase, events and `sending`; a fetch that stops has emitted its
event and leaves an octet boundary. -/
theorem dactickEmitsOneEventWhileSending : Obligations.DactickEmitsOneEventWhileSending := by
  intro s hb h
  have hi := h.init
  have htable := sinTable_ok hb
  refine ⟨exec_dactick_idle hi, fun hs => ?_⟩
  rw [exec_dactick hi]
  rcases h.dacTick_cases hs with ⟨u, hu, htick⟩ | ⟨hc, hm, t, hf, htick⟩
  · have htu : tableOk u.cfg.sinTable = true := hu.cfg ▸ htable
    refine ⟨_, htick.trans (dacSample_next htu), .inl ⟨hu.sending, ?_, sinValue s.cfg (nextPhase u), ?_, ?_⟩⟩
    · rw [afterSample_phaseAcc_toNat, nextPhase, hu.phaseAcc]
      rfl
    · rw [← hu.cfg, ← hu.events]
      rfl
    · rw [afterSample_phaseAcc_toNat]
      exact exec_sinsample_nextPhase hi htable u
  · refine ⟨t, htick, .inr ?_⟩
    rw [txFetchOp_stop hf]
    exact ⟨rfl, rfl, hc, hm, hc, hm, rfl, rfl, exec_dactick_idle hi rfl⟩

end Sys2Proof.Machine

/-! PROOFS. The family of 45_host.md: what the host port does and when it refuses (rules R270 to R277, R301), and the
façade calls as the operations they issue (rules R280 to R283). -/

namespace Sys2Proof.Machine

/-! ## Refusals of the issuable operations -/

/-- The preconditions of rule R301, codes 5 to 7: operation `i` in state `s` fails the one that code `r` stands for. -/
def FailsPrecondition (s : State) (i : Instr) (r : Refusal) : Prop :=
  (∃ b, i = .txpush b ∧ (s.queue .tx).length = s.cfg.txBuflen ∧ r = .txFifoFull) ∨
  (i = .rxpop ∧ s.queue .rx = [] ∧ r = .rxFifoEmpty) ∨
  (i = .dactick ∧ s.sending = false ∧ r = .dacIrqDisabled)

theorem FailsPrecondition.exec {s : State} {i : Instr} {r : Refusal} (hi : s.initialised = true)
    (h : FailsPrecondition s i r) : exec i s = .refused r := by
  obtain ⟨b, rfl, hfull, rfl⟩ | ⟨rfl, hempty, rfl⟩ | ⟨rfl, hs, rfl⟩ := h
  · exact exec_txpush_full hi ((length_queue s .tx).symm.trans hfull) b
  · exact execRxpop_empty hi (queue_eq_nil_iff.mp hempty)
  · exact exec_dactick_idle hi hs

/-- `o` has a step, or operation `i` fails its precondition in state `s`. -/
def StepsOrFails (s : State) (i : Instr) (o : Res State) : Prop :=
  (∃ t, o = .next t) ∨ ∃ r, FailsPrecondition s i r

theorem StepsOrFails.initialised {s t : State} {i : Instr} {o : Res State} (hi : s.initialised = true)
    (h : o = .next t) : StepsOrFails s i (ifInitialised s o) :=
  .inl ⟨t, (ifInitialised_of_init hi o).trans h⟩

/-- In a running block nothing but its own precondition keeps an issuable operation from having a step (rule R301). -/
theorem Running.stepsOrFails {s : State} (hb : admissible s.cfg = true) (h : Running s) {i : Instr}
    (hi : i.issuable = true) : StepsOrFails s i (exec i s) := by
  cases i
  case txpush b =>
    by_cases hfull : (s.queue .tx).length = s.cfg.txBuflen
    · exact .inr ⟨_, .inl ⟨b, rfl, hfull, rfl⟩⟩
    · obtain ⟨_, _, hle, _⟩ := Ring.ok_iff.mp h.txOk
      rw [length_queue] at hfull
      exact .inl ⟨_, exec_txpush_next h.init h.txOk (hle.lt_of_ne hfull) b⟩
  case rxpop =>
    by_cases hempty : s.queue .rx = []
    · exact .inr ⟨_, .inr (.inl ⟨rfl, hempty, rfl⟩)⟩
    · have hpos : 0 < s.rxFifo.count := Nat.pos_of_ne_zero (mt (queue_eq_nil_iff (g := .rx)).mpr hempty)
      exact .inl ⟨_, execRxpop_next h.init h.rxOk hpos⟩
  case dactick =>
    cases hs : s.sending with
    | false => exact .inr ⟨_, .inr (.inr ⟨rfl, hs, rfl⟩)⟩
    | true =>
      obtain ⟨t, ht, _⟩ := h.dacTick hb hs
      exact .initialised h.init ht
  case adctick x =>
    obtain ⟨t, ht, _⟩ := h.adcTick x
    exact .initialised h.init ht
  case hdlcrx b =>
    obtain ⟨t, ht, _⟩ := h.hdlcRx b
    exact .initialised h.init ht
  case sinsample idx => exact .inl ⟨_, exec_sinsample h.init (sinTable_ok hb) idx⟩
  case init => exact .inl ⟨_, rfl⟩
  case txstart | rxempty | txfull | sending | relax => exact .initialised h.init rfl
  all_goals cases hi

/-- Settles O11: an operation that is refused has no step, so it fails its precondition, which fixes the code. -/
theorem issuableOperationsRefuseOnlyOnTheirPrecondition :
    Obligations.IssuableOperationsRefuseOnlyOnTheirPrecondition := by
  intro s i r hb h _ hi
  refine ⟨fun hr => ?_, FailsPrecondition.exec h.init⟩
  obtain ⟨t, ht⟩ | ⟨r', hfails⟩ := h.stepsOrFails hb hi
  · cases ht.symm.trans hr
  · cases (hfails.exec h.init).symm.trans hr
    exact hfails

/-! ## `TXSTART`, the status reads and `RELAX` -/

theorem exec_txstart {s : State} (hi : s.initialised = true) : exec .txstart s = .next (txStartOp s) :=
  ifInitialised_of_init hi _

theorem txStartOp_idle {s : State} (hs : s.sending = false) :
    txStartOp s = { primeSending s with trailerLen := toU16 (trailerFlags s.cfg) } := by
  simp [txStartOp, hs]

theorem txStartOp_sending {s : State} (hs : s.sending = true) :
    txStartOp s = { s with trailerLen := toU16 (trailerFlags s.cfg) } := by
  simp [txStartOp, hs]

@[simp] theorem txStartOp_cfg (s : State) : (txStartOp s).cfg = s.cfg := (txStartOp_onlyAdds s).cfg

@[simp] theorem txStartOp_initialised (s : State) : (txStartOp s).initialised = s.initialised := by
  cases hs : s.sending with
  | true => rw [txStartOp_sending hs]
  | false => rw [txStartOp_idle hs]; rfl

/-- Settles O14: the two branches of the operation, and that the second of two in a row finds its work done. -/
theorem txstartPrimesOnlyAnIdleTransmitter : Obligations.TxstartPrimesOnlyAnIdleTransmitter := by
  refine ⟨rfl, fun s hi => ?_⟩
  rw [exec_txstart hi]
  refine ⟨fun hs => ?_, fun hs => ?_, fun t ht => ?_⟩
  · rw [txStartOp_idle hs]
    rfl
  · rw [txStartOp_sending hs]
  · cases ht
    rw [exec_txstart ((txStartOp_initialised s).trans hi), txStartOp_twice]

theorem exec_sending {s : State} (hi : s.initialised = true) :
    exec .sending s = .next (s.reply (.bit s.sending)) := ifInitialised_of_init hi _

theorem exec_relax {s : State} (hi : s.initialised = true) : exec .relax s = .next s := ifInitialised_of_init hi _

/-- Settles O17: the condition each read returns is one of the queue, or `sending`. -/
theorem statusReadsOnlyReturnTheirBit : Obligations.StatusReadsOnlyReturnTheirBit := by
  intro s hi
  refine ⟨?_, ?_, exec_sending hi, exec_relax hi⟩
  · rw [← fifoIsEmpty_eq]
    exact ifInitialised_of_init hi _
  · refine (ifInitialised_of_init hi _).trans ?_
    rw [fifoIsFull_eq]
    rfl

/-! ## A façade call, operation by operation -/

/-- The first operation of a call, then the rest. -/
theorem callSteps_cons {e : Bool} {c c' : Call} {s s' : State} (h : callStep e c s = .next (c', s')) (k : Nat) :
    callSteps e (k + 1) c s = callSteps e k c' s' := by
  rw [callSteps_succ, h, andThen_next]

theorem callSteps_one (e : Bool) (c : Call) (s : State) : callSteps e 1 c s = callStep e c s := by
  rw [callSteps_succ]
  cases callStep e c s <;> rfl

theorem callSteps_two {e : Bool} {c c' : Call} {s s' : State} {p : Call × State} (h : callStep e c s = .next (c', s'))
    (h' : callStep e c' s' = .next p) : callSteps e 2 c s = .next p := by
  rw [callSteps_cons h, callSteps_one, h']

/-- The first `j` operations of a call, then the rest. -/
theorem callSteps_add {e : Bool} {j : Nat} {c c' : Call} {s s' : State}
    (h : callSteps e j c s = .next (c', s')) (k : Nat) : callSteps e (j + k) c s = callSteps e k c' s' := by
  induction j generalizing c s with
  | zero =>
    cases h
    rw [Nat.zero_add]
  | succ j ih =>
    obtain ⟨q, hq, hrest⟩ := andThen_eq_next.mp h
    rw [Nat.succ_add, callSteps_cons hq, ih hrest]

/-! ## `FLUSH` -/

theorem callStep_flushPoll {s : State} (hi : s.initialised = true) (e : Bool) : callStep e .flushPoll s =
    .next (if s.sending = true then .flushRelax else .done .flushed, s.reply (.bit s.sending)) := by
  rw [callStep_next rfl (exec_sending hi), answerOf_append (r := .bit s.sending) rfl]
  simp only [Call.answer, Option.some.injEq, Reply.bit.injEq]

theorem callStep_flushRelax {s : State} (hi : s.initialised = true) (e : Bool) :
    callStep e .flushRelax s = .next (.flushPoll, s) := by
  rw [callStep_next rfl (exec_relax hi), Call.answer]

/-- Settles O55: the answer to the one read decides between the return and the way round the loop. -/
theorem flushWaitsForTheTransmitter : Obligations.FlushWaitsForTheTransmitter := by
  intro s e hi asked
  have hpoll := callStep_flushPoll hi e
  refine ⟨fun hs => ?_, fun hs => ?_⟩
  · rw [hpoll, if_neg (by simp [hs])]
    rfl
  · rw [if_pos hs] at hpoll
    exact callSteps_two hpoll (callStep_flushRelax (s := s.reply _) hi e)

/-! ## `READ` -/

/-- The state once `READ` has asked for an octet that is there and popped it. -/
def afterRead (s : State) (v : Octet) : State := { s with
  rxFifo := s.rxFifo.popped s.cfg.rxBuflen
  replies := s.replies ++ [.bit false] ++ [.octet v] }

/-- `READ` takes an octet that is there (rule R282). -/
theorem callSteps_readOctet {s : State} (hi : s.initialised = true) (hr : s.rxFifo.ok s.cfg.rxBuflen = true)
    {v : Octet} {l : List Octet} (hq : s.queue .rx = v :: l) (e : Bool) (n : Nat) (got : List Octet) :
    callSteps e 2 (readFrom (n + 1) got) s = .next (readFrom n (got ++ [v]), afterRead s v) := by
  obtain ⟨hpos, hv, _⟩ := Ring.queue_eq_cons hr hq
  have hpoll := callStep_readPoll hi e (n + 1) got
  rw [fifoIsEmpty_eq, hq, decide_eq_false (List.cons_ne_nil v l), if_neg Bool.false_ne_true] at hpoll
  have hpop : exec .rxpop (s.reply (.bit false)) = .next (afterRead s v) := by
    rw [← hv]
    exact execRxpop_next (s := s.reply (.bit false)) hi hr hpos
  rw [readFrom_succ, callSteps_two hpoll (callStep_next rfl hpop e), answerOf_append (r := .octet v) rfl]
  rfl

/-- `READ` takes the octets that are there, in order (rule R282). -/
theorem callSteps_readAll (e : Bool) (m : Nat) {l rest : List Octet} (got : List Octet) {s : State}
    (hi : s.initialised = true) (hr : s.rxFifo.ok s.cfg.rxBuflen = true) (hq : s.queue .rx = l ++ rest) :
    ∃ t, callSteps e (2 * l.length) (readFrom (l.length + m) got) s = .next (readFrom m (got ++ l), t) ∧
      t.queue .rx = rest ∧ t = { s with rxFifo := t.rxFifo, replies := t.replies } := by
  induction l generalizing got s with
  | nil =>
    rw [List.length_nil, Nat.zero_add, List.append_nil]
    exact ⟨s, rfl, hq, rfl⟩
  | cons v l ih =>
    obtain ⟨_, _, hok, hl⟩ := Ring.queue_eq_cons hr hq
    obtain ⟨t, hcall, hqueue, hframe⟩ := ih (got ++ [v]) (s := afterRead s v) hi hok hl
    refine ⟨t, ?_, hqueue, hframe⟩
    rw [List.length_cons, Nat.mul_succ, Nat.add_comm (2 * l.length), Nat.add_right_comm,
      callSteps_add (callSteps_readOctet hi hr hq e _ got), hcall, List.append_assoc, List.singleton_append]

section ReadOnEmpty

variable {s : State} {e : Bool}

/-- When `READ` gives up on an empty `rx_fifo`: it is non-blocking, or its timed wait has expired (rule R282). -/
def ReadGivesUp (timeoutMs : Int) (expired : Bool) : Prop := timeoutMs = 0 ∨ (0 < timeoutMs ∧ expired = true)

theorem callStep_readEmpty (hi : s.initialised = true) (hq : s.queue .rx = []) (n : Nat) (got : List Octet) :
    callStep e (readFrom (n + 1) got) s =
      .next (readEmpty s.cfg.rxTimeoutMs e (n + 1) got, s.reply (.bit true)) := by
  have hempty : fifoIsEmpty .rx s = true := fifoIsEmpty_iff.mpr (queue_eq_nil_iff.mp hq)
  rw [readFrom_succ, callStep_readPoll hi, hempty, if_pos rfl]

theorem callStep_readGivesUp (hi : s.initialised = true) (hq : s.queue .rx = [])
    (h : ReadGivesUp s.cfg.rxTimeoutMs e) (n : Nat) (got : List Octet) :
    callStep e (readFrom (n + 1) got) s = .next (.done (.delivered got), s.reply (.bit true)) := by
  rw [callStep_readEmpty hi hq, readEmpty]
  obtain h0 | hexp := h
  · rw [if_pos h0]
  · rw [if_neg hexp.1.ne', if_pos hexp]

theorem callSteps_readWaits (hi : s.initialised = true) (hq : s.queue .rx = [])
    (h : ¬ ReadGivesUp s.cfg.rxTimeoutMs e) (n : Nat) (got : List Octet) :
    callSteps e 2 (readFrom (n + 1) got) s = .next (readFrom (n + 1) got, s.reply (.bit true)) := by
  obtain ⟨h0, hexp⟩ := not_or.mp h
  have hwait := callStep_readEmpty hi hq n got (e := e)
  rw [readEmpty, if_neg h0, if_neg hexp] at hwait
  exact callSteps_two hwait (callStep_readRelax (s := s.reply _) hi e (n + 1) got)

end ReadOnEmpty

/-- Settles O56: `READ` takes a front part of the queue octet by octet; on an empty one its mode decides. -/
theorem readDeliversWhatIsQueued : Obligations.ReadDeliversWhatIsQueued := by
  intro s e n hi hr k
  refine ⟨fun hn => ?_, fun hn => ?_, fun hq got => ⟨fun h0 => ?_, fun hpos => ⟨?_, ?_⟩, fun hneg => ?_⟩⟩
  · have hlen : ((s.queue .rx).take n).length = n := List.length_take_of_le hn
    obtain ⟨t, hcall, hqueue, hframe⟩ := callSteps_readAll e 0 [] hi hr (List.take_append_drop n _).symm
    rw [hlen] at hcall
    exact ⟨t, hcall, hqueue, hframe⟩
  · obtain ⟨m, rfl⟩ := Nat.exists_eq_add_of_lt hn
    obtain ⟨t, hcall, hqueue, hframe⟩ := callSteps_readAll e (m + 1) [] hi hr (List.append_nil _).symm
    rw [Nat.add_assoc, Nat.add_sub_cancel_left]
    refine ⟨t, hcall, hqueue, hframe, fun h => ?_⟩
    have hti : t.initialised = true := by rwa [hframe]
    have htc : ReadGivesUp t.cfg.rxTimeoutMs e := by rwa [hframe]
    rw [callSteps_add hcall, callSteps_one]
    exact callStep_readGivesUp hti hqueue htc m _
  · exact callStep_readGivesUp hi hq (.inl h0) n got
  · exact callStep_readGivesUp hi hq (.inr ⟨hpos, rfl⟩) n got
  · exact callSteps_readWaits hi hq (by simp [ReadGivesUp, hpos.ne']) n got
  · exact callSteps_readWaits hi hq (by simp [ReadGivesUp, hneg.ne, hneg.le]) n got

/-! ## `WRITE` -/

/-- The state once `WRITE` has queued the octets of a list, each after a look at `tx_fifo` and before a `TXSTART`. -/
def afterWrites (s : State) : List Octet → State
  | [] => s
  | v :: l => { txStartOp s with
      txFifo := s.txFifo.pushedAll s.cfg.txBuflen (v :: l)
      replies := s.replies ++ List.replicate (v :: l).length (.bit false) }

section AfterWrites

variable (s : State) (l : List Octet)

@[simp] theorem afterWrites_cfg : (afterWrites s l).cfg = s.cfg := by
  cases l <;> simp [afterWrites]

@[simp] theorem afterWrites_initialised : (afterWrites s l).initialised = s.initialised := by
  cases l <;> simp [afterWrites]

@[simp] theorem afterWrites_txFifo : (afterWrites s l).txFifo = s.txFifo.pushedAll s.cfg.txBuflen l := by
  cases l <;> rfl

@[simp] theorem afterWrites_replies :
    (afterWrites s l).replies = s.replies ++ List.replicate l.length (.bit false) := by
  cases l <;> simp [afterWrites]

/-- Octet after octet: the later `TXSTART`s find the work of the first one done. -/
theorem afterWrites_cons (v : Octet) : afterWrites (afterWrites s [v]) l = afterWrites s (v :: l) := by
  cases l with
  | nil => rfl
  | cons w m =>
    have hstart : txStartOp (afterWrites s [v]) = { txStartOp s with
        txFifo := (afterWrites s [v]).txFifo
        replies := (afterWrites s [v]).replies } :=
      (txStartOp_setTx (txStartOp s) _ _).trans (by rw [txStartOp_twice]; rfl)
    rw [afterWrites, hstart]
    simp [afterWrites, List.replicate_succ, Ring.pushedAll]

theorem afterWrites_started (hl : l ≠ []) : (afterWrites s l).sending = true ∧
    (afterWrites s l).trailerLen = toU16 (trailerFlags s.cfg) ∧
    afterWrites s l = { txStartOp s with
      txFifo := (afterWrites s l).txFifo
      replies := (afterWrites s l).replies } := by
  cases l with
  | nil => exact absurd rfl hl
  | cons v m =>
    refine ⟨?_, rfl, rfl⟩
    cases hs : s.sending with
    | true => exact (congrArg State.sending (txStartOp_sending hs)).trans hs
    | false => exact congrArg State.sending (txStartOp_idle hs)

end AfterWrites

section Write

variable {s : State}

/-- `WRITE` queues an octet for which there is room, and starts the transmitter (rule R280). -/
theorem callSteps_writeOctet (hi : s.initialised = true) (hr : s.txFifo.ok s.cfg.txBuflen = true)
    (hc : s.txFifo.count < s.cfg.txBuflen) (e : Bool) (v : Octet) (rest : List Octet) (n : Nat) :
    callSteps e 3 (writeFrom (v :: rest) n) s = .next (writeFrom rest n, afterWrites s [v]) := by
  have hroom : ¬ fifoIsFull .tx s = true := fun h => hc.ne (fifoIsFull_iff.mp h)
  have hpoll := callStep_writePoll hi e (v :: rest) n
  rw [if_neg hroom, Bool.eq_false_of_not_eq_true hroom] at hpoll
  have hpush := callStep_writePush (s := s.reply (.bit false)) hi hr hc e v rest n
  have hstart := callStep_writeStart (s := { s with
    txFifo := s.txFifo.pushed s.cfg.txBuflen v
    replies := s.replies ++ [.bit false] }) hi e (v :: rest) n
  rw [txStartOp_setTx] at hstart
  rw [writeFrom, callSteps_cons hpoll, callSteps_two hpush hstart]
  rfl

/-- `WRITE` queues the octets for which there is room, in order (rule R280). -/
theorem callSteps_writeAll (e : Bool) (l rest : List Octet) (n : Nat) (hi : s.initialised = true)
    (hr : s.txFifo.ok s.cfg.txBuflen = true) (hfit : s.txFifo.count + l.length ≤ s.cfg.txBuflen) :
    callSteps e (3 * l.length) (writeFrom (l ++ rest) n) s = .next (writeFrom rest n, afterWrites s l) := by
  induction l generalizing s with
  | nil => rfl
  | cons v l ih =>
    rw [List.length_cons] at hfit ⊢
    have hc : s.txFifo.count < s.cfg.txBuflen := by omega
    have hnext := ih (s := afterWrites s [v]) (by simpa using hi)
      (by simpa [Ring.pushedAll] using Ring.pushed_ok hr hc v)
      (by simp only [afterWrites_txFifo, afterWrites_cfg, Ring.pushedAll, Ring.pushed]; omega)
    rw [Nat.mul_succ, Nat.add_comm, List.cons_append, callSteps_add (callSteps_writeOctet hi hr hc e v _ n), hnext,
      afterWrites_cons]

/-- On a full `tx_fifo`, `WRITE` goes round its waiting loop (rule R280). -/
theorem callSteps_writeWaits (hi : s.initialised = true) (hfull : s.txFifo.count = s.cfg.txBuflen) (e : Bool)
    {buf : List Octet} (hbuf : buf ≠ []) (n : Nat) :
    callSteps e 2 (writeFrom buf n) s = .next (writeFrom buf n, s.reply (.bit true)) := by
  obtain ⟨v, rest, rfl⟩ := List.exists_cons_of_ne_nil hbuf
  have hpoll := callStep_writePoll hi e (v :: rest) n
  rw [fifoIsFull_iff (f := .tx).mpr hfull, if_pos rfl] at hpoll
  exact callSteps_two hpoll (callStep_writeRelax (s := s.reply _) hi e (v :: rest) n)

end Write

/-- What rule R280 says of the state `t` that `WRITE` leaves once it has queued `l`. -/
def Queued (s : State) (l : List Octet) (t : State) : Prop :=
  t.queue .tx = s.queue .tx ++ l ∧ t.txFifo.ok s.cfg.txBuflen = true ∧
  t.replies = s.replies ++ List.replicate l.length (.bit false) ∧
  (l = [] → t = s) ∧
  (l ≠ [] → t.sending = true ∧ t.trailerLen = toU16 (trailerFlags s.cfg) ∧
    ∃ u, exec .txstart s = .next u ∧ t = { u with txFifo := t.txFifo, replies := t.replies })

theorem queued_afterWrites {s : State} {l : List Octet} (hi : s.initialised = true)
    (hr : s.txFifo.ok s.cfg.txBuflen = true) (hfit : s.txFifo.count + l.length ≤ s.cfg.txBuflen) :
    Queued s l (afterWrites s l) := by
  obtain ⟨hok, hqueue, _⟩ := Ring.pushedAll_spec l hr hfit
  refine ⟨?_, ?_, afterWrites_replies s l, ?_, fun hl => ?_⟩
  · rw [State.queue, ring_tx, afterWrites_txFifo, afterWrites_cfg]
    exact hqueue
  · rwa [afterWrites_txFifo]
  · rintro rfl
    rfl
  · obtain ⟨hsending, htrailer, hframe⟩ := afterWrites_started s l hl
    exact ⟨hsending, htrailer, _, exec_txstart hi, hframe⟩

/-- Settles O57: `WRITE` queues what fits octet by octet, and then returns or finds `tx_fifo` full. -/
theorem writeQueuesItsOctetsAndStarts : Obligations.WriteQueuesItsOctetsAndStarts := by
  intro s e buf n hi hr
  obtain ⟨_, _, hle, _⟩ := Ring.ok_iff.mp hr
  rw [length_queue]
  intro room queued
  have hroom : s.txFifo.count + room = s.cfg.txBuflen := Nat.add_sub_of_le hle
  refine ⟨?_, fun hfit => ?_, fun hover => ?_, fun hbuf hfull => callSteps_writeWaits hi hfull e hbuf n⟩
  · rintro rfl
    rfl
  · have hcall := callSteps_writeAll e buf [] n hi hr (by omega)
    rw [List.append_nil] at hcall
    exact ⟨_, hcall, queued_afterWrites hi hr (by omega)⟩
  · have hlen : (buf.take room).length = room := List.length_take_of_le hover.le
    have hfit : s.txFifo.count + (buf.take room).length = s.cfg.txBuflen := by rw [hlen, hroom]
    have hcall := callSteps_writeAll e (buf.take room) (buf.drop room) n hi hr hfit.le
    rw [List.take_append_drop, hlen] at hcall
    have hfull : (afterWrites s (buf.take room)).txFifo.count = (afterWrites s (buf.take room)).cfg.txBuflen := by
      obtain ⟨_, _, hcount, _⟩ := Ring.pushedAll_spec (buf.take room) hr hfit.le
      rw [afterWrites_txFifo, afterWrites_cfg, hcount, hfit]
    have hrest : buf.drop room ≠ [] := fun h => hover.not_ge (List.drop_eq_nil_iff.mp h)
    refine ⟨_, hcall, queued_afterWrites hi hr hfit.le, ?_, ?_⟩
    · rw [length_queue, ring_tx, hfull, afterWrites_cfg]
    · rw [callSteps_add hcall]
      exact callSteps_writeWaits (by rwa [afterWrites_initialised]) hfull e hrest n

/-! ## `MODEMINIT` -/

/-- The queue of a cleared ring (rules R146, R340). -/
theorem Ring.queue_ofZeros (n k : Nat) : (Ring.ofZeros k).queue n = List.replicate k 0#8 := by
  simp [Ring.queue, Ring.ofZeros, Memory.read, Memory.unlisted]

/-- Settles O59: the one operation is `INIT`, which has a step in every state. -/
theorem modeminitPerformsInit : Obligations.ModeminitPerformsInit := by
  intro s e
  refine ⟨_, callStep_modemInit s e, rfl, Ring.queue_ofZeros _ _, Ring.queue_ofZeros _ _, Ring.queue_ofZeros _ _, rfl,
    rfl, ?_⟩
  cases hstop : s.initialised && s.sending
  · exact .inl (by simp)
  · exact .inr (by simp)

end Sys2Proof.Machine

/-! PROOFS. The family of 70_reset_and_hazards.md: `INIT` and what can be done before the first one (rules R64, R340,
R341). -/

namespace Sys2Proof.Machine

/-! ## Before the first `INIT` -/

theorem ifInitialised_of_not_init {s : State} (h : s.initialised = false) (o : Res State) :
    ifInitialised s o = .refused .notInitialised := by
  simp [ifInitialised, h]

/-- An operation on the FIFO its operand names keeps its check, unless the id is the reserved one (rule R102). -/
theorem onFifo_eq_ifInitialised {f : BitVec 2} (hf : fifoIdOk f = true) (s : State) (k : Fifo → Res State) :
    ∃ o, (onFifo f fun g => ifInitialised s (k g)) = ifInitialised s o := by
  obtain ⟨g, hg⟩ := Option.isSome_iff_exists.mp (fifoOf_isSome_iff.mpr (bne_iff_ne.mp hf))
  exact ⟨k g, onFifo_of_some hg _⟩

/-- Every well-formed operation but `INIT` looks at `initialised` before anything else (rule R341). -/
theorem exec_eq_ifInitialised {i : Instr} (hwf : i.wf = true) (hi : i ≠ .init) (s : State) :
    ∃ o, exec i s = ifInitialised s o := by
  cases i
  case init => exact absurd rfl hi
  case fpush | fpop | fempty | ffull | fpushL | fpopL | femptyL | ffullL => exact onFifo_eq_ifInitialised hwf s _
  all_goals exact ⟨_, rfl⟩

/-! ## `INIT` -/

/-- `INIT` leaves the reset state but for the build and the boundary, to which only the stop event of an interrupted
transmission is added (rules R64, R340). -/
theorem exec_init (s : State) : exec .init s = .next { State.reset with
    cfg := s.cfg
    pending := s.pending
    events := s.events ++ (if s.initialised = true ∧ s.sending = true then [.dacIrqStop] else [])
    replies := s.replies } := by
  by_cases h : s.initialised = true ∧ s.sending = true
  · rw [if_pos h, exec, execInit, if_pos (Bool.and_eq_true_iff.mpr h)]
    rfl
  · rw [if_neg h, List.append_nil, exec, execInit, if_neg (mt Bool.and_eq_true_iff.mp h)]
    rfl

/-- Settles O12: every other operation checks `initialised` first; `INIT` uses the registers only to see whether it
interrupts a transmission, and an uninitialised block has none. -/
theorem beforeInitOnlyInitHasAStep : Obligations.BeforeInitOnlyInitHasAStep := by
  refine ⟨fun s i hs hwf hi => ?_, fun s u hs hu hcfg hpending hevents hreplies => ?_⟩
  · obtain ⟨o, ho⟩ := exec_eq_ifInitialised hwf hi s
    rw [ho, ifInitialised_of_not_init hs]
  · simp only [exec_init, hs, hu, hcfg, hpending, hevents, hreplies, Bool.false_eq_true, false_and]

/-- Settles O13: `INIT` leaves the reset state, whose delay line is four zeros and whose other rings are empty. -/
theorem initLeavesTheResetValues : Obligations.InitLeavesTheResetValues := by
  refine ⟨rfl, fun s => ⟨_, exec_init s, Ring.queue_ofZeros 4 4, Ring.queue_ofZeros _ 0, Ring.queue_ofZeros _ 0,
    fun f => ?_, ?_⟩⟩
  · cases f <;> exact ⟨rfl, rfl⟩
  · and_intros <;> rfl

end Sys2Proof.Machine
